-- ==== Sys2Proof/Word.lean ====
section
/-! DEFINITION. The widths of the block's values (00_scope.md R7, R8; 10_state.md R11 to R18) and its closed sets
of names: directions, levels, pins, flags, channels, wire prefixes, stubs. -/

namespace Sys2Proof

/-- One received byte; one slot of ByteChannel (10_state.md R11). -/
abbrev Byte := BitVec 8

/-- One Command word; one slot of CommandChannel (10_state.md R12, 30_encoding.md R80). -/
abbrev CmdWord := BitVec 34

/-- A u32: `STP.speed`, `STP.elapsed_ticks` and the parameters they meet (10_state.md R16). -/
abbrev U32 := BitVec 32

/-- A u16: an angle or a servo duty (10_state.md R18). -/
abbrev U16 := BitVec 16

/-- The canonical set of three directions (30_encoding.md R81; 90_conflicts.md C5). -/
inductive Direction where
  | forward
  | backward
  | stop
  deriving DecidableEq, Repr, Inhabited

/-- A pin level (10_state.md R17). -/
inductive Level where
  | low
  | high
  deriving DecidableEq, Repr, Inhabited

/-- The two output lines of the generator (10_state.md R17). -/
inductive PinId where
  | dir
  | step
  deriving DecidableEq, Repr

/-- The two event flags (10_state.md R19). -/
inductive FlagId where
  | dataReady
  | tickReady
  deriving DecidableEq, Repr

/-- The two channels (10_state.md R11, R12). -/
inductive ChannelId where
  | bc
  | cc
  deriving DecidableEq, Repr

/-- The three recognised first bytes of a wire command (30_encoding.md R70). -/
inductive Lead where
  | angle
  | speed
  | direction
  deriving DecidableEq, Repr

/-- The three stubs (42_step_pulse.md R166). -/
inductive Stub where
  | hold
  | setAccel
  | estop
  deriving DecidableEq, Repr

/-- A decoded Command: the sum type of §3 (00_scope.md R9, 30_encoding.md R80). -/
inductive Command where
  | setSpeed (speed : U32)
  | setDirection (d : Direction)
  | setServoAngle (angle : U16)
  deriving DecidableEq, Repr

end Sys2Proof
end

