-- ==== Sys2Proof/Config.lean ====
section
/-! DEFINITION. The configuration record (00_scope.md R7, 10_state.md R21): fixed before reset is released, read-only
after it. A value of `Config` is a VALID configuration: an invalid one builds no machine (43_servo.md R181,
93_implementation_defined.md U9), so it cannot be written. The parameters the spec leaves OPEN are, in the one
configuration the reset state uses, constants without a body. -/

namespace Sys2Proof

/-- SYNC_MODE (20_memory.md R49). -/
inductive SyncMode where
  | exact
  | lagged
  deriving DecidableEq, Repr

/-- PULSE_VARIANT (00_scope.md R7). -/
inductive PulseVariant where
  | tick
  | blocking
  deriving DecidableEq, Repr

/-- TICK_DELIVERY (00_scope.md R7). -/
inductive TickDelivery where
  | flag
  | direct
  deriving DecidableEq, Repr

/-- The two inequalities of 43_servo.md R181, over naturals: no product and no sum of the servo overflows 16 bits. -/
def servoFits (dutyAtZero maxAngle : U16) : Bool :=
  decide (3 * dutyAtZero.toNat ≤ 65535) &&
    decide ((2 * dutyAtZero.toNat) / 90 * maxAngle.toNat + dutyAtZero.toNat ≤ 65535)

/-- The configuration record of 00_scope.md R7. The two depths are powers of two, so they are given by their
exponents. -/
structure Config where
  /-- BYTE_DEPTH is `2 ^ byteLog`. -/
  byteLog : Nat
  /-- CMD_DEPTH is `2 ^ cmdLog`. -/
  cmdLog : Nat
  syncMode : SyncMode
  tickFrequency : U32
  basePeriod : U32
  pulseVariant : PulseVariant
  tickDelivery : TickDelivery
  dutyAtZero : U16
  maxAngle : U16
  initDirection : Direction
  initSpeed : U32
  parseErrText : List Byte
  echo : Bool
  /-- BYTE_DEPTH >= 4: one full command fits (00_scope.md R7). -/
  byteLog_ge : 2 ≤ byteLog
  /-- 43_servo.md R181. -/
  servo_ok : servoFits dutyAtZero maxAngle = true
  deriving DecidableEq, Repr

namespace Config

/-- BYTE_DEPTH (00_scope.md R7). -/
def byteDepth (c : Config) : Nat := 2 ^ c.byteLog

/-- CMD_DEPTH (00_scope.md R7). -/
def cmdDepth (c : Config) : Nat := 2 ^ c.cmdLog

/-- SYNC_MODE = exact. -/
def isExact (c : Config) : Bool := decide (c.syncMode = .exact)

/-- TICK_FREQUENCY is OPEN (92_eei_decisions.md section 7): DESIGN CHOICE, log 2, an uninterpreted constant. -/
opaque openTickFrequency : U32

/-- BASE_PERIOD is OPEN: log 2. -/
opaque openBasePeriod : U32

/-- PARSE_ERR_TEXT is OPEN (D13): log 2. -/
opaque openParseErrText : List Byte

/-- DUTY_AT_ZERO is OPEN within 43_servo.md R181 (D21): log 2. -/
opaque openDutyAtZero : U16

/-- MAX_ANGLE is OPEN within 43_servo.md R181 (D21): log 2. -/
opaque openMaxAngle : U16

/-- The duty a servo emits when its registers, which no valid configuration produces, give a sum outside 16 bits:
a free value of the operands (duty per degree, clamped angle, duty at zero); log 16. -/
opaque freeDuty : U16 → U16 → U16 → U16

/-- The servo pair of the reset configuration: the open pair where it is valid, so that every valid pair is
possible and no invalid one is; log 2. -/
def openServo : U16 × U16 :=
  if servoFits openDutyAtZero openMaxAngle then (openDutyAtZero, openMaxAngle) else (0, 0)

theorem openServo_fits : servoFits openServo.1 openServo.2 = true := by
  unfold openServo
  split
  · assumption
  · decide

/-- The configuration of the reset state: the spec's default where it gives one (00_scope.md R7), `lagged` for
SYNC_MODE (20_memory.md R49: a model that cannot tell must use it), the open constants elsewhere; log 2. -/
def build : Config where
  byteLog := 3
  cmdLog := 1
  syncMode := .lagged
  tickFrequency := openTickFrequency
  basePeriod := openBasePeriod
  pulseVariant := .tick
  tickDelivery := .flag
  dutyAtZero := openServo.1
  maxAngle := openServo.2
  initDirection := .stop
  initSpeed := 0
  parseErrText := openParseErrText
  echo := false
  byteLog_ge := by decide
  servo_ok := openServo_fits

end Config

end Sys2Proof
end

