-- ==== Sys2Proof/Syntax.lean ====
section
/-! DEFINITION. The instructions: one constructor per row of spec/opcode_table.json, in the table's order. -/

namespace Sys2Proof

/-- What the block executes (30_encoding.md: wire commands R70 to R76, Command words R80 to R82, port operations
R85; the internal steps listed under R85). -/
inductive Instr where
  -- wire commands: digits are nibbles 0..9
  | a (d0 d1 d2 : BitVec 4)
  | s (d0 d1 d2 : BitVec 4)
  | df
  | db
  | ds
  | skip (b : Byte)
  /-- A prefix, the good digits after it, and the first byte that does not fit (41_parser.md R131). -/
  | malformed (p : Lead) (taken : List (BitVec 4)) (bad : Byte)
  /-- A prefix and the good digits after it, where the channel is then seen empty (41_parser.md R132). -/
  | incomplete (p : Lead) (taken : List (BitVec 4))
  -- Command words
  | cmdSetSpeed (v : U32)
  | cmdSetDirection (d : Direction)
  | cmdSetServoAngle (angle : U16)
  | cmdReserved (payload : U32)
  -- port operations
  | bcEnq (b : Byte)
  | bcDeq
  | ccEnq (w : CmdWord)
  | ccDeq
  | parse
  | setDir (d : Direction)
  | setSpeed (v : U32)
  | advanceTick
  | advanceBlocking
  | setAngle (angle : U16)
  | center
  | flagSet (f : FlagId)
  | flagTake (f : FlagId)
  | hold
  | setAccel (v : U32)
  | estop
  -- internal steps
  | syncTail (ch : ChannelId) (v : Nat)
  | syncHead (ch : ChannelId) (v : Nat)
  | parseStep
  | parseAndForward
  | dispatch (w : CmdWord)
  | controlIter
  | pulse
  | servoNew (dutyAtZero maxAngle : U16)
  | rxEvent (b : Byte)
  | tickEvent
  | reset
  deriving DecidableEq, Repr

end Sys2Proof
end

