-- ==== Sys2Proof/Machine/Operands.lean ====
section
/-! DEFINITION. Operand forms and the block's arithmetic: byte values and digits of the wire (30_encoding.md R71 to
R73, 41_parser.md R133), Command words (R80 to R82), pointer arithmetic (10_state.md R20, 20_memory.md R42), the
three divisions (42_step_pulse.md R167), the servo's sums (43_servo.md R180, R182), pin levels (R168). -/

namespace Sys2Proof

/-- The prefix byte (30_encoding.md R71). -/
def leadByte : Lead → Byte
  | .angle => 0x41
  | .speed => 0x53
  | .direction => 0x44

/-- The prefix a byte is at a scan position, if it is one (30_encoding.md R74). -/
def leadOf (b : Byte) : Option Lead :=
  if b = 0x41 then some .angle
  else if b = 0x53 then some .speed
  else if b = 0x44 then some .direction
  else none

/-- The range test `'0' <= b <= '9'` (41_parser.md R133). -/
def isDigit (b : Byte) : Bool := decide (0x30#8 ≤ b) && decide (b ≤ 0x39#8)

/-- `val(b) = b - 0x30`, used only after the range test (41_parser.md R133). -/
def digitVal (b : Byte) : Nat := b.toNat - 0x30

/-- The digit nibble of a digit byte (30_encoding.md R72: value in the low nibble). -/
def digitNibble (b : Byte) : BitVec 4 := b.extractLsb' 0 4

/-- The byte of a digit nibble: `0b0011` in the high nibble (30_encoding.md R72). -/
def digitByte (d : BitVec 4) : Byte := 0x3#4 ++ d

/-- Whether a nibble is a digit value 0..9. -/
def digitOk (d : BitVec 4) : Bool := decide (d ≤ 9#4)

/-- The argument byte of a direction command (30_encoding.md R74). -/
def directionByte : Direction → Byte
  | .forward => 0x46
  | .backward => 0x42
  | .stop => 0x53

/-- The direction an argument byte selects (30_encoding.md R73). -/
def directionOf (b : Byte) : Option Direction :=
  if b = 0x46 then some .forward
  else if b = 0x42 then some .backward
  else if b = 0x53 then some .stop
  else none

/-- Direction codes (30_encoding.md R81). -/
def directionCode : Direction → BitVec 2
  | .forward => 0
  | .backward => 1
  | .stop => 2

/-- The direction of a code; `0b11` is never held (30_encoding.md R82). -/
def directionOfCode (c : BitVec 2) : Option Direction :=
  if c = 0 then some .forward
  else if c = 1 then some .backward
  else if c = 2 then some .stop
  else none

/-- `tag[33:32]` of a Command word (30_encoding.md R80). -/
def wordTag (w : CmdWord) : BitVec 2 := w.extractLsb' 32 2

/-- `payload[31:0]` of a Command word (30_encoding.md R80). -/
def wordPayload (w : CmdWord) : U32 := w.extractLsb' 0 32

/-- `tag ++ payload` (30_encoding.md R80). -/
def mkWord (tag : BitVec 2) (payload : U32) : CmdWord := tag ++ payload

/-- The Command word of a Command (30_encoding.md R80). -/
def wordOfCommand : Command → CmdWord
  | .setSpeed v => mkWord 0 v
  | .setDirection d => mkWord 1 ((directionCode d).setWidth 32)
  | .setServoAngle a => mkWord 2 (a.setWidth 32)

/-- The Command of a well-formed word; none for the ill-formed words of 30_encoding.md R82. -/
def commandOfWord (w : CmdWord) : Option Command :=
  if wordTag w = 0 then some (.setSpeed (wordPayload w))
  else if wordTag w = 1 then
    if (wordPayload w).toNat < 4 then
      (directionOfCode ((wordPayload w).setWidth 2)).map .setDirection
    else none
  else if wordTag w = 2 then
    if (wordPayload w).toNat < 65536 then some (.setServoAngle ((wordPayload w).setWidth 16)) else none
  else none

/-- Well-formedness of a Command word (30_encoding.md R82). -/
def wordOk (w : CmdWord) : Bool := (commandOfWord w).isSome

/-! Pointer arithmetic modulo `2N` (10_state.md R11, R20); slots are pointers modulo `N` (20_memory.md R42). -/

/-- `p +_PW 1`. -/
def ptrNext (n p : Nat) : Nat := (p + 1) % (2 * n)

/-- `a -_PW b`, read as a number in `0 .. 2N - 1`. -/
def ptrSub (n a b : Nat) : Nat := (a + (2 * n - b % (2 * n))) % (2 * n)

/-- The direction pin's level for a direction; none where the pin is not written (42_step_pulse.md R168). -/
def directionLevel : Direction → Option Level
  | .forward => some .high
  | .backward => some .low
  | .stop => none

/-- The level of the phase bit: 1 = high, 0 = low (10_state.md R16). -/
def phaseLevel (clockLevel : Bool) : Level := if clockLevel then .high else .low

/-- `TICK_FREQUENCY / STP.speed`, unsigned, rounding toward zero; used only when the speed is not 0
(42_step_pulse.md R158). -/
def tickThreshold (tickFrequency speed : U32) : U32 := tickFrequency / speed

/-- `BASE_PERIOD / STP.speed`, the same way (42_step_pulse.md R162). -/
def halfPeriod (basePeriod speed : U32) : U32 := basePeriod / speed

/-- `duty_at_90 = duty_at_zero * 3` (43_servo.md R180). -/
def servoDutyAt90 (dutyAtZero : U16) : U16 := BitVec.ofNat 16 (3 * dutyAtZero.toNat)

/-- `duty_per_degree = (duty_at_90 - duty_at_zero) / 90` (43_servo.md R180). -/
def servoDutyPerDegree (dutyAtZero : U16) : U16 :=
  BitVec.ofNat 16 ((3 * dutyAtZero.toNat - dutyAtZero.toNat) / 90)

/-- The clamp to `[0, max_angle]` (43_servo.md R182). -/
def clampAngle (maxAngle angle : U16) : U16 := if angle > maxAngle then maxAngle else angle

/-- `duty = duty_per_degree * a + duty_at_zero` (43_servo.md R182). The sum fits 16 bits for the registers of every
valid configuration (R181); where it would not, the duty is the free value of Config, log 16. -/
def servoDuty (dutyPerDegree a dutyAtZero : U16) : U16 :=
  if dutyPerDegree.toNat * a.toNat + dutyAtZero.toNat ≤ 65535 then
    BitVec.ofNat 16 (dutyPerDegree.toNat * a.toNat + dutyAtZero.toNat)
  else Config.freeDuty dutyPerDegree a dutyAtZero

/-- `acc*10 + val(b)` over naturals (41_parser.md R133). -/
def accNext (acc : BitVec 10) (b : Byte) : Nat := acc.toNat * 10 + digitVal b

end Sys2Proof
end

