-- ==== Sys2Proof/WellFormed.lean ====
section
/-! DEFINITION. Which terms of Instr have an encoding: the operand ranges of 30_encoding.md. -/

namespace Sys2Proof

/-- Whether a byte is an argument or a digit that the prefix's payload accepts next (41_parser.md R131). -/
def fitsPayload : Lead → Byte → Bool
  | .angle, b => isDigit b
  | .speed, b => isDigit b
  | .direction, b => (directionOf b).isSome

/-- How many payload items a failed attempt of the prefix can have taken at most (30_encoding.md R75). -/
def takenMax : Lead → Nat
  | .angle => 2
  | .speed => 2
  | .direction => 0

/-- The payload taken before an attempt failed: digits, and fewer than the format needs. -/
def takenOk (p : Lead) (taken : List (BitVec 4)) : Bool :=
  decide (taken.length ≤ takenMax p) && taken.all digitOk

/-- An instruction is well-formed when its operands lie in the ranges its encoding can express: digits 0..9 (R72), a
skipped byte that is no prefix (R76), failed attempts as they can arise (R75, R76), well-formed Command words where
the operation takes a Command (R82). Every other operand has the range of its type. -/
def Instr.wellFormed : Instr → Bool
  | .a d0 d1 d2 => digitOk d0 && digitOk d1 && digitOk d2
  | .s d0 d1 d2 => digitOk d0 && digitOk d1 && digitOk d2
  | .skip b => (leadOf b).isNone
  | .malformed p taken bad => takenOk p taken && !fitsPayload p bad
  | .incomplete p taken => takenOk p taken
  | .ccEnq w => wordOk w
  | .dispatch w => wordOk w
  | .df | .db | .ds | .cmdSetSpeed _ | .cmdSetDirection _ | .cmdSetServoAngle _ | .cmdReserved _ | .bcEnq _ | .bcDeq
  | .ccDeq | .parse | .setDir _ | .setSpeed _ | .advanceTick | .advanceBlocking | .setAngle _ | .center | .flagSet _
  | .flagTake _ | .hold | .setAccel _ | .estop | .syncTail _ _ | .syncHead _ _ | .parseStep | .parseAndForward
  | .controlIter | .pulse | .servoNew _ _ | .rxEvent _ | .tickEvent | .reset => true

end Sys2Proof
end

