-- ==== Sys2Proof/Decode.lean ====
section
/-! DEFINITION. From bits to instructions and back. A `Code` is one instruction as bits, at the level the table gives
it: bytes of the wire (30_encoding.md R72), a 34-bit Command word (R80), a port operation's word (a 4-bit code, R85,
with its operand above it: log 10), or an internal step, which has no code in the spec (R85; numbered in the table's
order: log 11). -/

namespace Sys2Proof

/-- One instruction as bits. -/
inductive Code where
  | wire (bytes : List Byte)
  | command (w : CmdWord)
  | op (w : BitVec 38)
  | step (number : Nat) (operands : List Nat)
  deriving DecidableEq, Repr

/-- Why a code is no instruction. -/
inductive DecodeError where
  /-- no byte at all: the channel is seen empty at a scan position (41_parser.md R124) -/
  | noBytes
  /-- bytes after a complete wire command -/
  | trailingBytes
  /-- an ill-formed Command word other than the reserved tag (30_encoding.md R82) -/
  | illFormedWord
  /-- direction code `0b11` (30_encoding.md R81) -/
  | reservedDirection
  /-- a non-zero bit above the operand of a port operation -/
  | paddingNotZero
  /-- no such internal step -/
  | unknownStep
  /-- an internal step with operands it does not take -/
  | badStepOperands
  deriving DecidableEq, Repr

/-- The payload of `A` and `S` from the digits already taken on: three digits, or the first byte that is none, or
the end of the bytes (41_parser.md R126, R127, R131, R132). -/
def decodeDigits (p : Lead) (whole : BitVec 4 → BitVec 4 → BitVec 4 → Instr) (taken : List (BitVec 4)) :
    List Byte → Instr × List Byte
  | [] => (.incomplete p taken, [])
  | b :: rest =>
    if isDigit b then
      match taken with
      | [d0, d1] => (whole d0 d1 (digitNibble b), rest)
      | _ => decodeDigits p whole (taken ++ [digitNibble b]) rest
    else (.malformed p taken b, rest)

/-- The payload of `D` (41_parser.md R128 to R132). -/
def decodeDirection : List Byte → Instr × List Byte
  | [] => (.incomplete .direction [], [])
  | b :: rest =>
    match directionOf b with
    | some .forward => (.df, rest)
    | some .backward => (.db, rest)
    | some .stop => (.ds, rest)
    | none => (.malformed .direction [] b, rest)

/-- The first wire command of a byte list that starts at a scan position, with the bytes after it
(30_encoding.md R74: by the first byte, then by position). -/
def decodeWire : List Byte → Except DecodeError (Instr × List Byte)
  | [] => .error .noBytes
  | b :: rest =>
    match leadOf b with
    | some .angle => .ok (decodeDigits .angle .a [] rest)
    | some .speed => .ok (decodeDigits .speed .s [] rest)
    | some .direction => .ok (decodeDirection rest)
    | none => .ok (.skip b, rest)

/-- A Command word (30_encoding.md R80, R82). -/
def decodeCommand (w : CmdWord) : Except DecodeError Instr :=
  if wordTag w = 3 then .ok (.cmdReserved (wordPayload w))
  else match commandOfWord w with
    | some (.setSpeed v) => .ok (.cmdSetSpeed v)
    | some (.setDirection d) => .ok (.cmdSetDirection d)
    | some (.setServoAngle a) => .ok (.cmdSetServoAngle a)
    | none => .error .illFormedWord

/-- The operand of a port operation, bits 37:4. -/
def opOperand (w : BitVec 38) : BitVec 34 := w.extractLsb' 4 34

/-- The 4-bit code of a port operation, bits 3:0 (30_encoding.md R85). -/
def opCode (w : BitVec 38) : BitVec 4 := w.extractLsb' 0 4

/-- The operand read as a `k`-bit field; the bits above it must be zero. -/
def opField (k : Nat) (w : BitVec 38) : Except DecodeError (BitVec k) :=
  if (opOperand w).toNat < 2 ^ k then .ok (BitVec.ofNat k (opOperand w).toNat) else .error .paddingNotZero

/-- A port operation without operands: all operand bits are zero. -/
def opBare (i : Instr) (w : BitVec 38) : Except DecodeError Instr :=
  if opOperand w = 0 then .ok i else .error .paddingNotZero

/-- The flag a number names (30_encoding.md R85: 0 data_ready, 1 tick_ready). -/
def flagOfBit (b : BitVec 1) : FlagId := if b = 0 then .dataReady else .tickReady

/-- The number of a flag. -/
def flagBit : FlagId → BitVec 1
  | .dataReady => 0
  | .tickReady => 1

/-- A port operation (30_encoding.md R85). -/
def decodeOp (w : BitVec 38) : Except DecodeError Instr :=
  match (opCode w).toNat with
  | 0x0 => (opField 8 w).map .bcEnq
  | 0x1 => opBare .bcDeq w
  | 0x2 => if wordOk (opOperand w) then .ok (.ccEnq (opOperand w)) else .error .illFormedWord
  | 0x3 => opBare .ccDeq w
  | 0x4 => opBare .parse w
  | 0x5 =>
    match opField 2 w with
    | .ok c => match directionOfCode c with
      | some d => .ok (.setDir d)
      | none => .error .reservedDirection
    | .error e => .error e
  | 0x6 => (opField 32 w).map .setSpeed
  | 0x7 => opBare .advanceTick w
  | 0x8 => opBare .advanceBlocking w
  | 0x9 => (opField 16 w).map .setAngle
  | 0xA => opBare .center w
  | 0xB => (opField 1 w).map (fun b => .flagSet (flagOfBit b))
  | 0xC => (opField 1 w).map (fun b => .flagTake (flagOfBit b))
  | 0xD => opBare .hold w
  | 0xE => (opField 32 w).map .setAccel
  | _ => opBare .estop w

/-- A channel's number in an internal step (log 11). -/
def channelNumber : ChannelId → Nat
  | .bc => 0
  | .cc => 1

/-- The channel of a number. -/
def channelOfNumber (k : Nat) : Option ChannelId :=
  if k = 0 then some .bc else if k = 1 then some .cc else none

/-- An operand that must fit `k` bits. -/
def stepField (k v : Nat) : Option (BitVec k) := if v < 2 ^ k then some (BitVec.ofNat k v) else none

/-- An internal step's operands, read for its number (log 11). -/
def stepOf : Nat → List Nat → Option Instr
  | 0, [c, v] => (channelOfNumber c).map (fun ch => .syncTail ch v)
  | 1, [c, v] => (channelOfNumber c).map (fun ch => .syncHead ch v)
  | 2, [] => some .parseStep
  | 3, [] => some .parseAndForward
  | 4, [w] => (stepField 34 w).bind (fun c => if wordOk c then some (.dispatch c) else none)
  | 5, [] => some .controlIter
  | 6, [] => some .pulse
  | 7, [dz, ma] => (stepField 16 dz).bind (fun d => (stepField 16 ma).map (fun m => .servoNew d m))
  | 8, [b] => (stepField 8 b).map .rxEvent
  | 9, [] => some .tickEvent
  | 10, [] => some .reset
  | _, _ => none

/-- An internal step. -/
def decodeStep (number : Nat) (operands : List Nat) : Except DecodeError Instr :=
  match stepOf number operands with
  | some i => .ok i
  | none => if number ≤ 10 then .error .badStepOperands else .error .unknownStep

/-- The decoder, total, rejecting by name. -/
def decode : Code → Except DecodeError Instr
  | .wire bytes =>
    match decodeWire bytes with
    | .ok (i, []) => .ok i
    | .ok (_, _ :: _) => .error .trailingBytes
    | .error e => .error e
  | .command w => decodeCommand w
  | .op w => decodeOp w
  | .step number operands => decodeStep number operands

/-! The encoder, from the same tables. -/

/-- The bytes of a failed or whole attempt: prefix, then digits. -/
def attemptBytes (p : Lead) (digits : List (BitVec 4)) : List Byte := leadByte p :: digits.map digitByte

/-- A port operation's word: operand above the code (log 10). -/
def opWord (code : BitVec 4) (operand : Nat) : BitVec 38 := BitVec.ofNat 34 operand ++ code

/-- The code of an instruction (30_encoding.md R72, R80, R85). -/
def encode : Instr → Code
  | .a d0 d1 d2 => .wire (attemptBytes .angle [d0, d1, d2])
  | .s d0 d1 d2 => .wire (attemptBytes .speed [d0, d1, d2])
  | .df => .wire [leadByte .direction, directionByte .forward]
  | .db => .wire [leadByte .direction, directionByte .backward]
  | .ds => .wire [leadByte .direction, directionByte .stop]
  | .skip b => .wire [b]
  | .malformed p taken bad => .wire (attemptBytes p taken ++ [bad])
  | .incomplete p taken => .wire (attemptBytes p taken)
  | .cmdSetSpeed v => .command (wordOfCommand (.setSpeed v))
  | .cmdSetDirection d => .command (wordOfCommand (.setDirection d))
  | .cmdSetServoAngle a => .command (wordOfCommand (.setServoAngle a))
  | .cmdReserved payload => .command (mkWord 3 payload)
  | .bcEnq b => .op (opWord 0x0 b.toNat)
  | .bcDeq => .op (opWord 0x1 0)
  | .ccEnq w => .op (opWord 0x2 w.toNat)
  | .ccDeq => .op (opWord 0x3 0)
  | .parse => .op (opWord 0x4 0)
  | .setDir d => .op (opWord 0x5 (directionCode d).toNat)
  | .setSpeed v => .op (opWord 0x6 v.toNat)
  | .advanceTick => .op (opWord 0x7 0)
  | .advanceBlocking => .op (opWord 0x8 0)
  | .setAngle a => .op (opWord 0x9 a.toNat)
  | .center => .op (opWord 0xA 0)
  | .flagSet f => .op (opWord 0xB (flagBit f).toNat)
  | .flagTake f => .op (opWord 0xC (flagBit f).toNat)
  | .hold => .op (opWord 0xD 0)
  | .setAccel v => .op (opWord 0xE v.toNat)
  | .estop => .op (opWord 0xF 0)
  | .syncTail ch v => .step 0 [channelNumber ch, v]
  | .syncHead ch v => .step 1 [channelNumber ch, v]
  | .parseStep => .step 2 []
  | .parseAndForward => .step 3 []
  | .dispatch w => .step 4 [w.toNat]
  | .controlIter => .step 5 []
  | .pulse => .step 6 []
  | .servoNew dz ma => .step 7 [dz.toNat, ma.toNat]
  | .rxEvent b => .step 8 [b.toNat]
  | .tickEvent => .step 9 []
  | .reset => .step 10 []

/-! The opcode table's numbering (log 12). A wire row is ONE number whose first byte in arrival order is the most
significant (the table's note: "first byte in bits [31:24]"). -/

/-- The `k` bytes of a table number, first byte most significant. -/
def bigEndianBytes : Nat → Nat → List Byte
  | 0, _ => []
  | k + 1, w => BitVec.ofNat 8 (w / 256 ^ k) :: bigEndianBytes k w

/-- The bytes of a wire row's number, with zero bytes after them up to the longest wire command. -/
def tableBytes (nbits w : Nat) : List Byte :=
  bigEndianBytes ((nbits + 7) / 8) w ++ List.replicate (4 - (nbits + 7) / 8) 0

/-- A row of at most 8 bits whose number fits 4 bits is a port operation. -/
def isOpRow (nbits w : Nat) : Bool := decide (nbits ≤ 8) && decide (w < 16)

/-- The instruction the decoder reads from a table row's number. -/
def decodeTableWord (nbits w : Nat) : Option Instr :=
  if isOpRow nbits w then
    match decode (.op (BitVec.ofNat 38 w)) with
    | .ok i => some i
    | .error _ => none
  else if nbits ≤ 32 then
    match decodeWire (tableBytes nbits w) with
    | .ok (i, _) => some i
    | .error _ => none
  else
    match decode (.command (BitVec.ofNat 34 w)) with
    | .ok i => some i
    | .error _ => none

end Sys2Proof
end

