-- ==== Sys2Proof/Machine/State.lean ====
section
/-! DEFINITION. The state as plain data: every register of 10_state.md R11 to R19, the trace of R30, the configuration
(a parameter of every step, held here and never written: log 1), and the model's own bookkeeping of the agents
(60_exceptions.md R220, R221: logs 3, 4, 6). -/

namespace Sys2Proof.Machine

/-- Slot storage: (slot, item) pairs, slots strictly rising. For bytes this is a list of `Host.Cell`. An unlisted slot
holds NO VALUE (10_state.md R31, 20_memory.md R43; log 8). -/
abbrev Memory (α : Type) := List (Nat × α)

/-- A channel (10_state.md R11, R12): slot storage, the two pointers, and each side's copy of the other's pointer. -/
structure Ring (α : Type) where
  mem : Memory α
  tail : Nat
  head : Nat
  headSync : Nat
  tailSync : Nat
  deriving DecidableEq, Repr

/-- `P.pstate` (10_state.md R14): nine values, so codes 9 to 15 cannot be written (93 U20). -/
inductive PState where
  | idle
  | scan
  | aD0
  | aD1
  | aD2
  | sD0
  | sD1
  | sD2
  | dArg
  deriving DecidableEq, Repr

/-- The parser's registers (10_state.md R14). -/
structure Parser where
  pstate : PState
  acc : BitVec 10
  deriving DecidableEq, Repr

/-- The stepper's registers (10_state.md R16). -/
structure Stepper where
  direction : Direction
  speed : U32
  clockLevel : Bool
  elapsedTicks : U32
  deriving DecidableEq, Repr

/-- The pins, as last driven; none = never written since reset (10_state.md R17). -/
structure Pins where
  dir : Option Level
  step : Option Level
  deriving DecidableEq, Repr

/-- The servo's registers (10_state.md R18; 90_conflicts.md C7 for `dutyAt90`). -/
structure Servo where
  dutyAtZero : U16
  dutyPerDegree : U16
  dutyAt90 : U16
  maxAngle : U16
  deriving DecidableEq, Repr

/-- The event flags (10_state.md R19). -/
structure Flags where
  dataReady : Bool
  tickReady : Bool
  deriving DecidableEq, Repr

/-- One event of the output trace (10_state.md R30). -/
inductive Event where
  | pinWrite (pin : PinId) (level : Level)
  | wait (n : U32)
  | pwmWrite (duty : U16)
  | serialWrite (bytes : List Byte)
  /-- ghost: a byte rejected by ByteChannel -/
  | dropByte (b : Byte)
  /-- ghost: a Command word rejected by CommandChannel -/
  | dropCommand (w : CmdWord)
  deriving DecidableEq, Repr

/-- The result of a parse call: `Ok(Command)` or the one ParseError (41_parser.md R120, R141). -/
inductive ParseResult where
  | ok (c : Command)
  | err
  deriving DecidableEq, Repr

/-- The result of a port operation (30_encoding.md R85, R86). -/
inductive OpResult where
  /-- no port operation since reset -/
  | unset
  | accepted
  | rejectedByte (b : Byte)
  | rejectedCommand (w : CmdWord)
  | byte (r : Option Byte)
  | command (r : Option CmdWord)
  | parsed (r : ParseResult)
  | flag (v : Bool)
  deriving DecidableEq, Repr

/-- Where the event context stands (60_exceptions.md R212): at its top, where the next raised byte is taken and its echo
line runs, before the enqueue line of RX_EVENT, or before its flag line. -/
inductive EvtPos where
  | waiting
  | enqueue (b : Byte)
  | setFlag
  deriving DecidableEq, Repr

/-- Where the control loop stands (44_control_loop.md R191, one atomic step a line): at the top, before the dispatch of
the word it took, or before PULSE. -/
inductive CtlPos where
  | top
  | dispatch (w : CmdWord)
  | pulse
  deriving DecidableEq, Repr

/-- One choice of the scheduler or the environment (60_exceptions.md R221; log 3). -/
inductive Turn where
  /-- an operation or an internal step, given by its code, runs whole -/
  | issue (c : Code)
  /-- the parser agent runs to its next scan position: a whole wire command where it scans -/
  | wire
  /-- the environment raises the byte-received event (R210) -/
  | byteIn (b : Byte)
  /-- one atomic step of the event context -/
  | evt
  /-- one atomic step of the parsing side -/
  | par
  /-- one atomic step of the control loop -/
  | ctl
  deriving DecidableEq, Repr

structure State where
  /-- the configuration record (00_scope.md R7); a parameter of every step, never written (10_state.md R10; log 1) -/
  cfg : Config
  /-- ByteChannel (10_state.md R11) -/
  bc : Ring Byte
  /-- CommandChannel (10_state.md R12) -/
  cc : Ring CmdWord
  /-- the parser's `P.pstate`, `P.acc` (10_state.md R14) -/
  p : Parser
  /-- the stepper's `STP.*` (10_state.md R16) -/
  stp : Stepper
  /-- the pins `PIN.*` (10_state.md R17) -/
  pin : Pins
  /-- the servo's `SRV.*` (10_state.md R18) -/
  srv : Servo
  /-- `PWM.duty` (10_state.md R18) -/
  pwm : Option U16
  /-- the flags `FLG.*` (10_state.md R19) -/
  flg : Flags
  /-- the output trace, oldest first (10_state.md R30) -/
  trace : List Event
  /-- model's own: the event context's position (log 4) -/
  evt : EvtPos
  /-- model's own: the byte events raised and not yet taken by the event context, oldest first (60_exceptions.md R208,
  R210; log 21) -/
  rx : List Byte
  /-- model's own: the result of a finished call that PARSE_AND_FORWARD has still to use (41_parser.md R140; log 4) -/
  par : Option ParseResult
  /-- model's own: the control loop's position (log 4) -/
  ctl : CtlPos
  /-- model's own: the result of the last port operation (30_encoding.md R86; log 6) -/
  res : OpResult
  /-- model's own: the choices of scheduler and environment still to be taken, next first (log 3) -/
  sched : List Turn
  deriving DecidableEq, Repr

/-- Why the machine stops. -/
inductive Fault where
  /-- raised by HOLD, SET_ACCEL, ESTOP, always (42_step_pulse.md R166, 60_exceptions.md R204); the spec's own fault;
  safe -/
  | notImplemented (op : Stub)
  /-- raised by a dequeue whose slot holds no value (20_memory.md R43, 93 U13); unreachable from reset; safe -/
  | slotHoldsNoValue (ch : ChannelId)
  deriving DecidableEq, Repr

/-- Why the model gives an instruction, or a schedule, no step. -/
inductive Refusal where
  /-- an arm of exec without a meaning; no arm of this model is one -/
  | notModelled (mnemonic : String)
  /-- raised by step: an issued code that the decoder rejects; safe -/
  | undecodable (e : DecodeError)
  /-- raised by DISPATCH, the reserved Command word and the control loop's dispatch step: an ill-formed Command word
  (30_encoding.md R82, 93 U12); safe -/
  | illFormedCommand (w : CmdWord)
  /-- raised by SERVO_NEW: operands that break the inequalities of 43_servo.md R181 (93 U9); safe -/
  | servoConfigInvalid
  /-- raised by SERVO_NEW: operands other than DUTY_AT_ZERO and MAX_ANGLE, with which alone it runs (43_servo.md R180;
  the registers are "immutable thereafter", 10_state.md R18; log 17); safe -/
  | servoImmutable
  /-- raised by TICK_EVENT in the blocking variant: "there is no tick source and the event never occurs"
  (60_exceptions.md R213; log 22); safe -/
  | noTickSource
  /-- raised by an issued BC_ENQ, BC_DEQ, CC_ENQ, CC_DEQ or PARSE while the agent that owns the channel's end is inside
  its program: no run drives one end from two contexts (70_reset_and_hazards.md R255, 93 U6; log 23); safe -/
  | endInUse
  /-- raised by PARSE and PARSE_AND_FORWARD: a call is in progress (41_parser.md R120), or, for the second, its result is
  still to be forwarded (R142); safe -/
  | parserBusy
  /-- raised by PARSE_STEP: no call is in progress (41_parser.md R121, R123); safe -/
  | parserIdle
  /-- raised by the wire commands: the parser is not at a scan position (30_encoding.md R74); safe -/
  | notAtScanPosition
  /-- raised by the wire commands: their bytes are not what the parser sees next in ByteChannel; safe -/
  | wireBytesNotQueued
  /-- raised by SYNC_TAIL and SYNC_HEAD: the chosen value is not between the copy and the pointer (20_memory.md R50);
  safe -/
  | syncChoiceOutOfRange
  /-- raised by CONTROL_ITER: the iteration before has not finished (60_exceptions.md R221); safe -/
  | loopBusy
  deriving DecidableEq, Repr

/-- What an instruction answers. -/
abbrev Result := Host.Outcome State Fault Refusal

/-- An empty channel: all pointers and copies 0, no slot holds a value (10_state.md R31, D6). -/
def Ring.empty {α : Type} : Ring α := { mem := [], tail := 0, head := 0, headSync := 0, tailSync := 0 }

/-- The registers `SERVO_NEW` writes (43_servo.md R180). -/
def Servo.new (dutyAtZero maxAngle : U16) : Servo :=
  { dutyAtZero := dutyAtZero, dutyPerDegree := servoDutyPerDegree dutyAtZero, dutyAt90 := servoDutyAt90 dutyAtZero
    maxAngle := maxAngle }

/-- The reset table of 10_state.md R31 for a configuration; every agent at the top of its loop (70_reset_and_hazards.md
R240). The schedule is no register and is given (log 29). -/
def State.resetWith (c : Config) (sched : List Turn) : State where
  cfg := c
  bc := Ring.empty
  cc := Ring.empty
  p := { pstate := .idle, acc := 0 }
  stp := { direction := c.initDirection, speed := c.initSpeed, clockLevel := false, elapsedTicks := 0 }
  pin := { dir := none, step := none }
  srv := Servo.new c.dutyAtZero c.maxAngle
  pwm := none
  flg := { dataReady := false, tickReady := false }
  trace := []
  evt := .waiting
  rx := []
  par := none
  ctl := .top
  res := .unset
  sched := sched

/-- The machine right after reset (10_state.md R31), with the reset configuration of log 2 and nothing scheduled. -/
def State.reset : State := State.resetWith Config.build []

end Sys2Proof.Machine
end

