-- ==== Sys2Proof/Machine/Flags.lean ====
section
/-! DEFINITION. The two event flags (10_state.md R19) and the combinational channel status (10_state.md R20). -/

namespace Sys2Proof.Machine

/-- The value of a flag. -/
def Flags.get (f : FlagId) (g : Flags) : Bool :=
  match f with
  | .dataReady => g.dataReady
  | .tickReady => g.tickReady

/-- The flags with one of them written. -/
def Flags.put (f : FlagId) (v : Bool) (g : Flags) : Flags :=
  match f with
  | .dataReady => { g with dataReady := v }
  | .tickReady => { g with tickReady := v }

/-- `full_p(ch)`: what the producer tests (10_state.md R20). -/
def Ring.fullP {α : Type} (n : Nat) (r : Ring α) : Bool := decide (ptrSub n r.tail r.headSync = n)

/-- `empty_c(ch)`: what the consumer tests (10_state.md R20). -/
def Ring.emptyC {α : Type} (r : Ring α) : Bool := decide (r.tailSync = r.head)

/-- `len(ch)` (10_state.md R13). -/
def Ring.len {α : Type} (n : Nat) (r : Ring α) : Nat := ptrSub n r.tail r.head

/-- How many items the consumer sees: `tail_sync -_PW head`. -/
def Ring.seen {α : Type} (n : Nat) (r : Ring α) : Nat := ptrSub n r.tailSync r.head

end Sys2Proof.Machine
end

