-- ==== Sys2Proof/Machine/Ops.lean ====
section
/-! DEFINITION. The named operations: slot storage, the ring's enqueue, dequeue and synchroniser, reads and writes of
the registers, events, and the error outcomes (60_exceptions.md R200, R207: the block enters no handler and saves
nothing, so raising an outcome IS the whole of taking it, and R208: there is no return). -/

namespace Sys2Proof.Machine

/-! ## Slot storage -/

/-- The item a listed slot holds. -/
def Memory.get {α : Type} : Memory α → Nat → Option α
  | [], _ => none
  | (j, v) :: m, i => if i = j then some v else Memory.get m i

/-- The storage with one slot written; the form (slots strictly rising) is kept. -/
def Memory.set {α : Type} : Memory α → Nat → α → Memory α
  | [], i, v => [(i, v)]
  | (j, w) :: m, i, v =>
    if i < j then (i, v) :: (j, w) :: m
    else if i = j then (i, v) :: m
    else (j, w) :: Memory.set m i v

/-- The canonical form: slots strictly rising. (An unlisted slot holds no value, so no entry can equal it.) -/
def Memory.wf {α : Type} : Memory α → Bool
  | [] => true
  | [_] => true
  | (i, _) :: (j, w) :: m => decide (i < j) && Memory.wf ((j, w) :: m)

/-! ## A ring of depth `n` -/

/-- Whether slot `i` lies inside `contents(ch)`: it holds a value only between the enqueue that wrote it and the
dequeue that read it (20_memory.md R43). -/
def Ring.live {α : Type} (n : Nat) (r : Ring α) (i : Nat) : Bool :=
  decide ((i + (n - r.head % n)) % n < r.len n)

/-- `MemRead(ch, i)` (00_scope.md R8): none where the slot holds no value (20_memory.md R43). -/
def Ring.read {α : Type} (n : Nat) (r : Ring α) (i : Nat) : Option α :=
  if r.live n i then r.mem.get i else none

/-- The first `k` items from `head` on. -/
def Ring.items {α : Type} (n : Nat) (r : Ring α) (k : Nat) : List α :=
  (List.range k).filterMap (fun j => r.read n ((r.head + j) % n))

/-- `contents(ch)` (10_state.md R13). -/
def Ring.contents {α : Type} (n : Nat) (r : Ring α) : List α := r.items n (r.len n)

/-- What the consumer sees of the contents: the items its copy of `tail` covers. -/
def Ring.visible {α : Type} (n : Nat) (r : Ring α) : List α := r.items n (r.seen n)

/-- `ENQ` (40_channel_ops.md R101): none where the ring is seen full. -/
def Ring.enq {α : Type} (n : Nat) (exact : Bool) (x : α) (r : Ring α) : Option (Ring α) :=
  if r.fullP n then none
  else some
    { r with
      mem := r.mem.set (r.tail % n) x
      tail := ptrNext n r.tail
      tailSync := if exact then ptrNext n r.tail else r.tailSync }

/-- What `DEQ` finds. -/
inductive Taken (α : Type) where
  /-- the ring is seen empty: `None` -/
  | nothing
  /-- `Some(v)`, and the ring after it -/
  | item (v : α) (r : Ring α)
  /-- the slot holds no value (20_memory.md R43) -/
  | noValue
  deriving DecidableEq, Repr

/-- `DEQ` (40_channel_ops.md R102). The slot is not cleared; it no longer lies inside the contents. -/
def Ring.deq {α : Type} (n : Nat) (exact : Bool) (r : Ring α) : Taken α :=
  if r.emptyC then .nothing
  else match r.read n (r.head % n) with
    | none => .noValue
    | some v =>
      .item v { r with head := ptrNext n r.head, headSync := if exact then ptrNext n r.head else r.headSync }

/-- `sync_tail`: the choice `v` must lie between the copy and the pointer (20_memory.md R50). -/
def Ring.syncTail {α : Type} (n v : Nat) (r : Ring α) : Option (Ring α) :=
  if v < 2 * n ∧ ptrSub n v r.tailSync ≤ ptrSub n r.tail r.tailSync then some { r with tailSync := v } else none

/-- `sync_head` (20_memory.md R50). -/
def Ring.syncHead {α : Type} (n v : Nat) (r : Ring α) : Option (Ring α) :=
  if v < 2 * n ∧ ptrSub n v r.headSync ≤ ptrSub n r.head r.headSync then some { r with headSync := v } else none

/-! ## Register writes -/

def State.withBc (s : State) (r : Ring Byte) : State := { s with bc := r }
def State.withCc (s : State) (r : Ring CmdWord) : State := { s with cc := r }
def State.withP (s : State) (p : Parser) : State := { s with p := p }
def State.withStp (s : State) (x : Stepper) : State := { s with stp := x }
def State.withPin (s : State) (x : Pins) : State := { s with pin := x }
def State.withSrv (s : State) (x : Servo) : State := { s with srv := x }
def State.withPwm (s : State) (x : Option U16) : State := { s with pwm := x }
def State.withFlg (s : State) (x : Flags) : State := { s with flg := x }
def State.withEvt (s : State) (x : EvtPos) : State := { s with evt := x }
def State.withRx (s : State) (x : List Byte) : State := { s with rx := x }
def State.withPar (s : State) (x : Option ParseResult) : State := { s with par := x }
def State.withCtl (s : State) (x : CtlPos) : State := { s with ctl := x }
def State.withRes (s : State) (x : OpResult) : State := { s with res := x }
def State.withSched (s : State) (x : List Turn) : State := { s with sched := x }

/-- `emit` (00_scope.md R8, 10_state.md R30): append one event to the trace. -/
def State.emit (s : State) (e : Event) : State := { s with trace := s.trace ++ [e] }

/-- Drive the direction pin: the register and the event (10_state.md R17). -/
def State.driveDir (s : State) (l : Level) : State :=
  (s.withPin { s.pin with dir := some l }).emit (.pinWrite .dir l)

/-- Drive the step pin. -/
def State.driveStep (s : State) (l : Level) : State :=
  (s.withPin { s.pin with step := some l }).emit (.pinWrite .step l)

/-- Give the PWM capability a duty (43_servo.md R182, R183). -/
def State.driveDuty (s : State) (d : U16) : State := (s.withPwm (some d)).emit (.pwmWrite d)

/-! ## Depths of the state's configuration -/

/-- `DEPTH(BC)`. -/
def State.nBc (s : State) : Nat := s.cfg.byteDepth

/-- `DEPTH(CC)`. -/
def State.nCc (s : State) : Nat := s.cfg.cmdDepth

/-- The bytes the parser sees. -/
def State.visibleBytes (s : State) : List Byte := s.bc.visible s.nBc

/-! ## Outcomes -/

/-- Run one thing after another; a fault or a refusal ends it. -/
def andThen (o : Result) (f : State → Result) : Result :=
  match o with
  | .next s => f s
  | .fault r => .fault r
  | .refused r => .refused r

/-- `raise NotImplemented(op)`: the block does not continue (60_exceptions.md R204). -/
def raiseNotImplemented (op : Stub) : Result := .fault (.notImplemented op)

/-- `raise ChannelFull(BC, b)`: the ghost event and the returned item, nothing else (60_exceptions.md R203). -/
def raiseFullBc (b : Byte) (s : State) : State := (s.emit (.dropByte b)).withRes (.rejectedByte b)

/-- `raise ChannelFull(CC, c)` (60_exceptions.md R203). -/
def raiseFullCc (w : CmdWord) (s : State) : State := (s.emit (.dropCommand w)).withRes (.rejectedCommand w)

/-- The cause code of the error outcome a port operation returned, if it returned one (60_exceptions.md R200). -/
def OpResult.causeCode : OpResult → Option Nat
  | .parsed .err => some 1
  | .rejectedByte _ => some 2
  | .rejectedCommand _ => some 3
  | .unset | .accepted | .byte _ | .command _ | .parsed (.ok _) | .flag _ => none

/-- The cause code of a fault that the spec numbers (60_exceptions.md R200). -/
def Fault.causeCode : Fault → Option Nat
  | .notImplemented _ => some 4
  | .slotHoldsNoValue _ => none

/-- The one status bit of a result: `accepted`, `valid`, `ok`, or the flag's value (30_encoding.md R86). -/
def OpResult.statusBit : OpResult → Option Bool
  | .unset => none
  | .accepted => some true
  | .rejectedByte _ => some false
  | .rejectedCommand _ => some false
  | .byte r => some r.isSome
  | .command r => some r.isSome
  | .parsed (.ok _) => some true
  | .parsed .err => some false
  | .flag v => some v

end Sys2Proof.Machine
end

