-- ==== Sys2Proof/Machine/Channel.lean ====
section
/-! DEFINITION. Channel and flag operations (40_channel_ops.md) and the synchroniser's steps (20_memory.md R50). -/

namespace Sys2Proof.Machine

/-- BC_ENQ (40_channel_ops.md R101, R103). -/
def execBcEnq (b : Byte) (s : State) : Result :=
  match s.bc.enq s.nBc s.cfg.isExact b with
  | none => .next (raiseFullBc b s)
  | some r => .next ((s.withBc r).withRes .accepted)

/-- BC_DEQ (40_channel_ops.md R102, R104). -/
def execBcDeq (s : State) : Result :=
  match s.bc.deq s.nBc s.cfg.isExact with
  | .nothing => .next (s.withRes (.byte none))
  | .item v r => .next ((s.withBc r).withRes (.byte (some v)))
  | .noValue => .fault (.slotHoldsNoValue .bc)

/-- CC_ENQ (40_channel_ops.md R101, R105). -/
def execCcEnq (w : CmdWord) (s : State) : Result :=
  match s.cc.enq s.nCc s.cfg.isExact w with
  | none => .next (raiseFullCc w s)
  | some r => .next ((s.withCc r).withRes .accepted)

/-- CC_DEQ (40_channel_ops.md R102, R106). -/
def execCcDeq (s : State) : Result :=
  match s.cc.deq s.nCc s.cfg.isExact with
  | .nothing => .next (s.withRes (.command none))
  | .item v r => .next ((s.withCc r).withRes (.command (some v)))
  | .noValue => .fault (.slotHoldsNoValue .cc)

/-- FLAG_SET (40_channel_ops.md R107). -/
def execFlagSet (f : FlagId) (s : State) : Result := .next (s.withFlg (s.flg.put f true))

/-- FLAG_TAKE (40_channel_ops.md R108): read and clear, one indivisible step (20_memory.md R57). -/
def execFlagTake (f : FlagId) (s : State) : Result :=
  .next ((s.withFlg (s.flg.put f false)).withRes (.flag (s.flg.get f)))

/-- SYNC_TAIL (20_memory.md R50). In `exact` mode, where copy and pointer are equal, the only choice is the copy
itself: a stutter (log 15). -/
def execSyncTail (ch : ChannelId) (v : Nat) (s : State) : Result :=
  match ch with
  | .bc => match s.bc.syncTail s.nBc v with
    | some r => .next (s.withBc r)
    | none => .refused .syncChoiceOutOfRange
  | .cc => match s.cc.syncTail s.nCc v with
    | some r => .next (s.withCc r)
    | none => .refused .syncChoiceOutOfRange

/-- SYNC_HEAD (20_memory.md R50). -/
def execSyncHead (ch : ChannelId) (v : Nat) (s : State) : Result :=
  match ch with
  | .bc => match s.bc.syncHead s.nBc v with
    | some r => .next (s.withBc r)
    | none => .refused .syncChoiceOutOfRange
  | .cc => match s.cc.syncHead s.nCc v with
    | some r => .next (s.withCc r)
    | none => .refused .syncChoiceOutOfRange

end Sys2Proof.Machine
end

