-- ==== Sys2Proof/Machine/ServoMap.lean ====
section
/-! DEFINITION. The servo angle mapper (43_servo.md). -/

namespace Sys2Proof.Machine

/-- SERVO_NEW (43_servo.md R180): construction, with the arguments DUTY_AT_ZERO and MAX_ANGLE and no others; the
registers are immutable after it (10_state.md R18; log 17). Operands that break R181 are refused (93 U9). Nothing is
emitted. -/
def execServoNew (dutyAtZero maxAngle : U16) (s : State) : Result :=
  if servoFits dutyAtZero maxAngle then
    if dutyAtZero = s.cfg.dutyAtZero ∧ maxAngle = s.cfg.maxAngle then
      .next (s.withSrv (Servo.new dutyAtZero maxAngle))
    else .refused .servoImmutable
  else .refused .servoConfigInvalid

/-- The duty `SET_ANGLE` computes from the servo's registers (43_servo.md R182). -/
def Servo.duty (x : Servo) (angle : U16) : U16 :=
  servoDuty x.dutyPerDegree (clampAngle x.maxAngle angle) x.dutyAtZero

/-- SET_ANGLE (43_servo.md R182). -/
def execSetAngle (angle : U16) (s : State) : Result := .next (s.driveDuty (s.srv.duty angle))

/-- CENTER (43_servo.md R183). -/
def execCenter (s : State) : Result := .next (s.driveDuty s.srv.dutyAt90)

end Sys2Proof.Machine
end

