-- ==== Sys2Proof/Machine/StepPulse.lean ====
section
/-! DEFINITION. The step-pulse generator (42_step_pulse.md). -/

namespace Sys2Proof.Machine

/-- SET_DIR (42_step_pulse.md R150): pure assignment. -/
def execSetDir (d : Direction) (s : State) : Result := .next (s.withStp { s.stp with direction := d })

/-- SET_SPEED (42_step_pulse.md R151): pure assignment. -/
def execSetSpeed (v : U32) (s : State) : Result := .next (s.withStp { s.stp with speed := v })

/-- The direction-pin line of both variants (42_step_pulse.md R168). -/
def applyDirection (s : State) : State :=
  match directionLevel s.stp.direction with
  | some l => s.driveDir l
  | none => s

/-- The counter and the phase after a call at non-zero speed: "If accumulated ticks >= threshold, reset the counter and
flip the output level; otherwise increment the counter" (42_step_pulse.md R155, R159). -/
def tickStepper (tickFrequency : U32) (x : Stepper) : Stepper :=
  if x.elapsedTicks ≥ tickThreshold tickFrequency x.speed then
    { x with elapsedTicks := 0, clockLevel := !x.clockLevel }
  else { x with elapsedTicks := x.elapsedTicks + 1 }

/-- ADVANCE_TICK (42_step_pulse.md R155): the direction is examined first, the speed second (R156). -/
def execAdvanceTick (s : State) : Result :=
  if s.stp.direction = .stop then .next (s.driveStep .low)
  else if s.stp.speed = 0 then .next (applyDirection s)
  else
    .next (((applyDirection s).withStp (tickStepper s.cfg.tickFrequency s.stp)).driveStep
      (phaseLevel (tickStepper s.cfg.tickFrequency s.stp).clockLevel))

/-- The pulse of the blocking variant: high, wait, low, wait (42_step_pulse.md R162). -/
def blockingPulse (half : U32) (s : State) : State :=
  (((s.driveStep .high).emit (.wait half)).driveStep .low).emit (.wait half)

/-- ADVANCE_BLOCKING (42_step_pulse.md R162), one atomic step (R163 item 6). -/
def execAdvanceBlocking (s : State) : Result :=
  if s.stp.direction = .stop then .next s
  else if s.stp.speed = 0 then .next (applyDirection s)
  else .next (blockingPulse (halfPeriod s.cfg.basePeriod s.stp.speed) (applyDirection s))

/-- HOLD (42_step_pulse.md R166). -/
def execHold (_s : State) : Result := raiseNotImplemented .hold

/-- SET_ACCEL (42_step_pulse.md R166). -/
def execSetAccel (_v : U32) (_s : State) : Result := raiseNotImplemented .setAccel

/-- ESTOP (42_step_pulse.md R166). -/
def execEstop (_s : State) : Result := raiseNotImplemented .estop

end Sys2Proof.Machine
end

