-- ==== Sys2Proof/Machine/Control.lean ====
section
/-! DEFINITION. Dispatch and the control loop (44_control_loop.md), the four Command words among them. -/

namespace Sys2Proof.Machine

/-- The effect of a decoded Command (44_control_loop.md R190). -/
def runCommand (c : Command) (s : State) : Result :=
  match c with
  | .setSpeed v => execSetSpeed v s
  | .setDirection d => execSetDir d s
  | .setServoAngle a => execSetAngle a s

/-- A `SetSpeed` word, dispatched (44_control_loop.md R190). -/
def execCmdSetSpeed (v : U32) (s : State) : Result := runCommand (.setSpeed v) s

/-- A `SetDirection` word, dispatched. -/
def execCmdSetDirection (d : Direction) (s : State) : Result := runCommand (.setDirection d) s

/-- A `SetServoAngle` word, dispatched. -/
def execCmdSetServoAngle (a : U16) (s : State) : Result := runCommand (.setServoAngle a) s

/-- A word with the reserved tag: no DISPATCH step is defined for it (30_encoding.md R82, 93 U12). -/
def execCmdReserved (payload : U32) (_s : State) : Result := .refused (.illFormedCommand (mkWord 3 payload))

/-- DISPATCH (44_control_loop.md R190). -/
def execDispatch (w : CmdWord) (s : State) : Result :=
  match commandOfWord w with
  | some c => runCommand c s
  | none => .refused (.illFormedCommand w)

/-- The flag-delivered tick: take the flag, advance if it was set (44_control_loop.md R192). -/
def takeAndAdvance (s : State) : Result :=
  if s.flg.tickReady then andThen (execFlagTake .tickReady s) execAdvanceTick else execFlagTake .tickReady s

/-- PULSE (44_control_loop.md R192), one atomic step (R191; log 37). -/
def execPulse (s : State) : Result :=
  match s.cfg.pulseVariant with
  | .blocking => execAdvanceBlocking s
  | .tick => match s.cfg.tickDelivery with
    | .flag => takeAndAdvance s
    | .direct => .next s

/-- The dequeue line of an iteration (44_control_loop.md R191). -/
def ctlDequeue (s : State) : Result :=
  andThen (execCcDeq s) (fun t => match t.res with
    | .command (some w) => .next (t.withCtl (.dispatch w))
    | _ => .next (t.withCtl .pulse))

/-- One atomic step of the control loop: one line of an iteration (44_control_loop.md R191; 60_exceptions.md R221).
PULSE is one of the lines, so the flag take and the advance inside it are one atomic step, although each is also one by
itself (20_memory.md R55, 42_step_pulse.md R155): the model's choice, log 37. -/
def ctlTurn (s : State) : Result :=
  match s.ctl with
  | .top => ctlDequeue s
  | .dispatch w => execDispatch w (s.withCtl .pulse)
  | .pulse => execPulse (s.withCtl .top)

/-- The control loop's steps until it is back at the top, at most `k` of them. -/
def ctlFinish : Nat → State → Result
  | 0, s => .next s
  | k + 1, s => if s.ctl = .top then .next s else andThen (ctlTurn s) (ctlFinish k)

/-- CONTROL_ITER (44_control_loop.md R191), run whole: the loop's own steps, from the top to the top (dequeue,
dispatch of the word if one was taken, pulse). -/
def execControlIter (s : State) : Result :=
  if s.ctl = .top then andThen (ctlTurn s) (ctlFinish 2) else .refused .loopBusy

end Sys2Proof.Machine
end

