-- ==== Sys2Proof/Machine/Parse.lean ====
section
/-! DEFINITION. The command parser (41_parser.md): the transition function, the step, the call, and the wire commands
as what the parser's steps do with their bytes. -/

namespace Sys2Proof.Machine

/-- What one parser step answers (41_parser.md R121). -/
inductive StepOut where
  | continue
  | done (r : ParseResult)
  deriving DecidableEq, Repr

/-- A row of the transition table: next state, next `acc`, `out`. -/
structure Transition where
  pstate : PState
  acc : BitVec 10
  out : StepOut
  deriving DecidableEq, Repr

/-- The Command of a completed `A` or `S` payload: the value zero-extended to 16 or 32 bits (30_encoding.md R73). -/
def angleCommand (v : Nat) : Command := .setServoAngle (BitVec.ofNat 16 v)

/-- See `angleCommand`. -/
def speedCommand (v : Nat) : Command := .setSpeed (BitVec.ofNat 32 v)

/-- A payload state that waits for a digit: a digit goes on as given, any other byte ends the attempt and the scan goes
on (41_parser.md R131: no rewind, the byte is consumed). -/
def onDigit (acc : BitVec 10) (b : Byte) (t : Transition) : Transition :=
  if isDigit b then t else { pstate := .scan, acc := acc, out := .continue }

/-- The first byte of an attempt, or a skipped byte (41_parser.md R123, rows of SCAN; R125). -/
def scanByte (acc : BitVec 10) (b : Byte) : Transition :=
  match leadOf b with
  | some .angle => { pstate := .aD0, acc := 0, out := .continue }
  | some .speed => { pstate := .sD0, acc := 0, out := .continue }
  | some .direction => { pstate := .dArg, acc := acc, out := .continue }
  | none => { pstate := .scan, acc := acc, out := .continue }

/-- The argument byte of a direction command (41_parser.md R123, rows of D_ARG). -/
def argByte (acc : BitVec 10) (b : Byte) : Transition :=
  match directionOf b with
  | some d => { pstate := .idle, acc := acc, out := .done (.ok (.setDirection d)) }
  | none => { pstate := .scan, acc := acc, out := .continue }

/-- `acc*10 + val(b)` in the 10-bit register; it never exceeds 999 (41_parser.md R133; log 18). -/
def accPut (acc : BitVec 10) (b : Byte) : BitVec 10 := BitVec.ofNat 10 (accNext acc b)

/-- The transition function `ptrans` (41_parser.md R123), complete; none in IDLE, where no step is taken. `None` is
tested before anything else (60_exceptions.md R206). -/
def ptrans (st : PState) (acc : BitVec 10) (r : Option Byte) : Option Transition :=
  match st, r with
  | .idle, _ => none
  | _, none => some { pstate := .idle, acc := acc, out := .done .err }
  | .scan, some b => some (scanByte acc b)
  | .aD0, some b => some (onDigit acc b { pstate := .aD1, acc := BitVec.ofNat 10 (digitVal b), out := .continue })
  | .aD1, some b => some (onDigit acc b { pstate := .aD2, acc := accPut acc b, out := .continue })
  | .aD2, some b =>
    some (onDigit acc b { pstate := .idle, acc := accPut acc b, out := .done (.ok (angleCommand (accNext acc b))) })
  | .sD0, some b => some (onDigit acc b { pstate := .sD1, acc := BitVec.ofNat 10 (digitVal b), out := .continue })
  | .sD1, some b => some (onDigit acc b { pstate := .sD2, acc := accPut acc b, out := .continue })
  | .sD2, some b =>
    some (onDigit acc b { pstate := .idle, acc := accPut acc b, out := .done (.ok (speedCommand (accNext acc b))) })
  | .dArg, some b => some (argByte acc b)

/-- Take a transition: the two registers, and the result of the call where it ends. -/
def applyTransition (t : Transition) (s : State) : State :=
  match t.out with
  | .continue => s.withP { pstate := t.pstate, acc := t.acc }
  | .done r => (s.withP { pstate := t.pstate, acc := t.acc }).withPar (some r)

/-- The transition on what a dequeue returned. -/
def parseOn (r : Option Byte) (s : State) : Result :=
  match ptrans s.p.pstate s.p.acc r with
  | some t => .next (applyTransition t s)
  | none => .refused .parserIdle

/-- PARSE_STEP (41_parser.md R121): one BC_DEQ and one transition; not defined in IDLE. What its BC_DEQ returns goes to
the transition and not to the model's register `res`, and a result that ends the call goes to `par`: the model's choice,
log 6. -/
def execParseStep (s : State) : Result :=
  if s.p.pstate = .idle then .refused .parserIdle
  else match s.bc.deq s.nBc s.cfg.isExact with
    | .nothing => parseOn none s
    | .item b r => parseOn (some b) (s.withBc r)
    | .noValue => .fault (.slotHoldsNoValue .bc)

/-- The start of a call: `P.pstate <- SCAN; P.acc <- 0` (41_parser.md R120). -/
def startCall (s : State) : State := (s.withP { pstate := .scan, acc := 0 }).withPar none

/-- `repeat PARSE_STEP() until out != Continue` (41_parser.md R120). The number bounds the steps that find a byte; the
step after them finds the channel seen empty and ends the call (R138). -/
def parseLoop : Nat → State → Result
  | 0, s => execParseStep s
  | k + 1, s => andThen (execParseStep s) (fun t => if t.p.pstate = .idle then .next t else parseLoop k t)

/-- A whole call from IDLE, no byte becoming visible during it (41_parser.md R120, R137). -/
def parseCall (s : State) : Result := parseLoop (s.bc.seen s.nBc) (startCall s)

/-- The port's result of a call goes to its caller, in `res`; what the parsing side holds is as before (log 6). -/
def reportParse (held : Option ParseResult) (s : State) : State :=
  match s.par with
  | some r => (s.withRes (.parsed r)).withPar held
  | none => s

/-- PARSE (41_parser.md R120). -/
def execParse (s : State) : Result :=
  if s.p.pstate = .idle then andThen (parseCall s) (fun t => .next (reportParse s.par t)) else .refused .parserBusy

/-- What is done with a result (41_parser.md R140): a Command is enqueued and the enqueue's result ignored; an error
writes the fixed text (R141). -/
def forward (r : ParseResult) (s : State) : Result :=
  match r with
  | .ok c => execCcEnq (wordOfCommand c) (s.withPar none)
  | .err => .next ((s.withPar none).emit (.serialWrite s.cfg.parseErrText))

/-- Forward the result in hand. -/
def forwardHeld (s : State) : Result :=
  match s.par with
  | some r => forward r s
  | none => .next s

/-- PARSE_AND_FORWARD (41_parser.md R140), run whole; a call may start whenever the parser is IDLE (R142) and the result
before it has been used (60_exceptions.md R221). -/
def execParseAndForward (s : State) : Result :=
  if s.p.pstate = .idle ∧ s.par = none then andThen (parseCall s) forwardHeld else .refused .parserBusy

/-- One atomic step of the parsing side (60_exceptions.md R220, R221): forward a result in hand, start a call, or take
one PARSE_STEP. That the start of a call (`P.pstate <- SCAN; P.acc <- 0`, 41_parser.md R120) is a step by itself, before
the first PARSE_STEP, is the model's choice: log 36. -/
def parTurn (s : State) : Result :=
  match s.par with
  | some r => forward r s
  | none => if s.p.pstate = .idle then .next (startCall s) else execParseStep s

/-! ## The wire commands

A wire command is executed by the parser's own steps on the bytes in ByteChannel (30_encoding.md R74; 41_parser.md
R125 to R132). Its meaning takes those steps, in a call that stands at a scan position, where its bytes are what the
parser sees next (log 13). -/

/-- `k` parser steps. -/
def parseSteps : Nat → State → Result
  | 0, s => .next s
  | k + 1, s => andThen (execParseStep s) (parseSteps k)

/-- A wire command of the given bytes: one parser step per byte. -/
def wireCommand (bytes : List Byte) (s : State) : Result :=
  if s.p.pstate ≠ .scan then .refused .notAtScanPosition
  else if s.visibleBytes.take bytes.length = bytes then parseSteps bytes.length s
  else .refused .wireBytesNotQueued

/-- `A d0 d1 d2` (41_parser.md R126). -/
def execA (d0 d1 d2 : BitVec 4) (s : State) : Result := wireCommand (attemptBytes .angle [d0, d1, d2]) s

/-- `S d0 d1 d2` (41_parser.md R127). -/
def execS (d0 d1 d2 : BitVec 4) (s : State) : Result := wireCommand (attemptBytes .speed [d0, d1, d2]) s

/-- `DF` (41_parser.md R128). -/
def execDf (s : State) : Result := wireCommand [leadByte .direction, directionByte .forward] s

/-- `DB` (41_parser.md R129). -/
def execDb (s : State) : Result := wireCommand [leadByte .direction, directionByte .backward] s

/-- `DS` (41_parser.md R130). -/
def execDs (s : State) : Result := wireCommand [leadByte .direction, directionByte .stop] s

/-- A skipped byte (41_parser.md R125). -/
def execSkip (b : Byte) (s : State) : Result := wireCommand [b] s

/-- A malformed payload (41_parser.md R131): prefix, good digits and the offending byte are consumed. -/
def execMalformed (p : Lead) (taken : List (BitVec 4)) (bad : Byte) (s : State) : Result :=
  wireCommand (attemptBytes p taken ++ [bad]) s

/-- An incomplete payload (41_parser.md R132): the bytes are all the parser sees, and the step after them finds the
channel seen empty. -/
def execIncomplete (p : Lead) (taken : List (BitVec 4)) (s : State) : Result :=
  if s.p.pstate ≠ .scan then .refused .notAtScanPosition
  else if s.visibleBytes = attemptBytes p taken then parseSteps ((attemptBytes p taken).length + 1) s
  else .refused .wireBytesNotQueued

/-! ## The call as a function of a byte list (41_parser.md R137) -/

/-- `digits(k, acc, r)`: the value, or where the scan goes on, or the end of the bytes. -/
inductive Digits where
  | done (v : Nat) (rest : List Byte)
  | bad (rest : List Byte)
  | short
  deriving DecidableEq, Repr

/-- `digits` with `left` digits still to take (`k = 3 - left`). -/
def digitsList : Nat → Nat → List Byte → Digits
  | 0, acc, r => .done acc r
  | _ + 1, _, [] => .short
  | left + 1, acc, b :: r =>
    if isDigit b then digitsList left (acc * 10 + digitVal b) r else .bad r

/-- `parse_list`, with a bound on the attempts that is never reached from `parseList`. -/
def parseListFuel : Nat → List Byte → ParseResult × List Byte
  | 0, bs => (.err, bs)
  | _ + 1, [] => (.err, [])
  | k + 1, b :: r =>
    match leadOf b with
    | some .angle =>
      match digitsList 3 0 r with
      | .done v rest => (.ok (angleCommand v), rest)
      | .bad rest => parseListFuel k rest
      | .short => (.err, [])
    | some .speed =>
      match digitsList 3 0 r with
      | .done v rest => (.ok (speedCommand v), rest)
      | .bad rest => parseListFuel k rest
      | .short => (.err, [])
    | some .direction =>
      match r with
      | [] => (.err, [])
      | b' :: rest =>
        match directionOf b' with
        | some d => (.ok (.setDirection d), rest)
        | none => parseListFuel k rest
    | none => parseListFuel k r

/-- `parse_list` (41_parser.md R137). -/
def parseList (bs : List Byte) : ParseResult × List Byte := parseListFuel (bs.length + 1) bs

end Sys2Proof.Machine
end

