-- ==== Sys2Proof/Machine/Events.lean ====
section
/-! DEFINITION. The event context (60_exceptions.md R212, R213) and reset (70_reset_and_hazards.md R240). -/

namespace Sys2Proof.Machine

/-- The environment raises the byte-received event, at any time and any number of times (60_exceptions.md R210): the
event context takes the bytes in the order raised, each after the handler of the one before has finished (R208, R212;
log 21). -/
def raiseByte (b : Byte) (s : State) : State := s.withRx (s.rx ++ [b])

/-- The echo line of RX_EVENT (60_exceptions.md R212). -/
def echoByte (b : Byte) (s : State) : State := if s.cfg.echo then s.emit (.serialWrite [b]) else s

/-- One atomic step of the event context: a line of RX_EVENT, in order (60_exceptions.md R212), the first for the oldest
byte raised; nothing while none is. -/
def evtTurn (s : State) : Result :=
  match s.evt with
  | .waiting => match s.rx with
    | [] => .next s
    | b :: bs => .next (((echoByte b s).withEvt (.enqueue b)).withRx bs)
  | .enqueue b => execBcEnq b (s.withEvt .setFlag)
  | .setFlag => execFlagSet .dataReady (s.withEvt .waiting)

/-- RX_EVENT (60_exceptions.md R212): the event, and, where the event context has nothing else to do, its three lines.
"A second event arriving while the first is handled is the next atomic step of the event context" (R208): it is raised,
and its lines follow as the event context's own steps (log 21). -/
def execRxEvent (b : Byte) (s : State) : Result :=
  if s.evt = .waiting ∧ s.rx = [] then andThen (andThen (evtTurn (raiseByte b s)) evtTurn) evtTurn
  else .next (raiseByte b s)

/-- The handler of a tick (60_exceptions.md R213). -/
def tickHandler (s : State) : Result :=
  match s.cfg.tickDelivery with
  | .flag => execFlagSet .tickReady s
  | .direct => execAdvanceTick s

/-- TICK_EVENT (60_exceptions.md R213), one atomic step; in the blocking variant "there is no tick source and the event
never occurs" (log 22). -/
def execTickEvent (s : State) : Result :=
  match s.cfg.pulseVariant with
  | .tick => tickHandler s
  | .blocking => .refused .noTickSource

/-- RESET (70_reset_and_hazards.md R240, R243): every register to the table of 10_state.md R31; the configuration and
the schedule, which are no registers, stay (log 29). -/
def execReset (s : State) : Result := .next (State.resetWith s.cfg s.sched)

end Sys2Proof.Machine
end

