-- ==== Sys2Proof/Machine/Dispatch.lean ====
section
/-! DEFINITION. One arm per instruction, in the order of spec/opcode_table.json. -/

namespace Sys2Proof.Machine

def exec (i : Instr) (s : State) : Host.Outcome State Fault Refusal :=
  match i with
  -- wire commands
  | .a d0 d1 d2 => Sys2Proof.Machine.execA d0 d1 d2 s
  | .s d0 d1 d2 => Sys2Proof.Machine.execS d0 d1 d2 s
  | .df => Sys2Proof.Machine.execDf s
  | .db => Sys2Proof.Machine.execDb s
  | .ds => Sys2Proof.Machine.execDs s
  | .skip b => Sys2Proof.Machine.execSkip b s
  | .malformed p taken bad => Sys2Proof.Machine.execMalformed p taken bad s
  | .incomplete p taken => Sys2Proof.Machine.execIncomplete p taken s
  -- Command words
  | .cmdSetSpeed v => Sys2Proof.Machine.execCmdSetSpeed v s
  | .cmdSetDirection d => Sys2Proof.Machine.execCmdSetDirection d s
  | .cmdSetServoAngle angle => Sys2Proof.Machine.execCmdSetServoAngle angle s
  | .cmdReserved payload => Sys2Proof.Machine.execCmdReserved payload s
  -- port operations
  | .bcEnq b => Sys2Proof.Machine.execBcEnq b s
  | .bcDeq => Sys2Proof.Machine.execBcDeq s
  | .ccEnq w => Sys2Proof.Machine.execCcEnq w s
  | .ccDeq => Sys2Proof.Machine.execCcDeq s
  | .parse => Sys2Proof.Machine.execParse s
  | .setDir d => Sys2Proof.Machine.execSetDir d s
  | .setSpeed v => Sys2Proof.Machine.execSetSpeed v s
  | .advanceTick => Sys2Proof.Machine.execAdvanceTick s
  | .advanceBlocking => Sys2Proof.Machine.execAdvanceBlocking s
  | .setAngle angle => Sys2Proof.Machine.execSetAngle angle s
  | .center => Sys2Proof.Machine.execCenter s
  | .flagSet f => Sys2Proof.Machine.execFlagSet f s
  | .flagTake f => Sys2Proof.Machine.execFlagTake f s
  | .hold => Sys2Proof.Machine.execHold s
  | .setAccel v => Sys2Proof.Machine.execSetAccel v s
  | .estop => Sys2Proof.Machine.execEstop s
  -- internal steps
  | .syncTail ch v => Sys2Proof.Machine.execSyncTail ch v s
  | .syncHead ch v => Sys2Proof.Machine.execSyncHead ch v s
  | .parseStep => Sys2Proof.Machine.execParseStep s
  | .parseAndForward => Sys2Proof.Machine.execParseAndForward s
  | .dispatch w => Sys2Proof.Machine.execDispatch w s
  | .controlIter => Sys2Proof.Machine.execControlIter s
  | .pulse => Sys2Proof.Machine.execPulse s
  | .servoNew dutyAtZero maxAngle => Sys2Proof.Machine.execServoNew dutyAtZero maxAngle s
  | .rxEvent b => Sys2Proof.Machine.execRxEvent b s
  | .tickEvent => Sys2Proof.Machine.execTickEvent s
  | .reset => Sys2Proof.Machine.execReset s

end Sys2Proof.Machine
end

