-- ==== Sys2Proof/Machine/Fetch.lean ====
section
/-! DEFINITION. Where an instruction comes from (log 3, log 25): an issued code, the bytes the parser sees in
ByteChannel (10_state.md R15), or the Command word the control loop took. -/

namespace Sys2Proof.Machine

/-- The event context is between two handlers, with none to start. -/
def State.evtRests (s : State) : Bool := decide (s.evt = .waiting) && decide (s.rx = [])

/-- The parsing side is between two calls, with no result in hand. -/
def State.parRests (s : State) : Bool := decide (s.p.pstate = .idle) && decide (s.par = none)

/-- The control loop is between two iterations. -/
def State.ctlRests (s : State) : Bool := decide (s.ctl = .top)

/-- Whether an issued instruction would drive a channel's end (20_memory.md R41) from outside its owner's program while
the owner is inside it: such a run does not exist (70_reset_and_hazards.md R255, 93 U6; log 23). The agents' own
instructions are steps of their programs. -/
def State.endInUse (s : State) : Instr → Bool
  | .bcEnq _ => !s.evtRests
  | .bcDeq => !s.parRests
  | .ccEnq _ => !s.parRests
  | .ccDeq => !s.ctlRests
  | .parse => s.par.isSome
  | .a _ _ _ | .s _ _ _ | .df | .db | .ds | .skip _ | .malformed _ _ _ | .incomplete _ _ | .cmdSetSpeed _
  | .cmdSetDirection _ | .cmdSetServoAngle _ | .cmdReserved _ | .setDir _ | .setSpeed _ | .advanceTick
  | .advanceBlocking | .setAngle _ | .center | .flagSet _ | .flagTake _ | .hold | .setAccel _ | .estop | .syncTail _ _
  | .syncHead _ _ | .parseStep | .parseAndForward | .dispatch _ | .controlIter | .pulse | .servoNew _ _ | .rxEvent _
  | .tickEvent | .reset => false

/-- An issued code: decoded, then executed, where its channel end is free. -/
def issueTurn (c : Code) (s : State) : Result :=
  match decode c with
  | .ok i => if s.endInUse i then .refused .endInUse else exec i s
  | .error e => .refused (.undecodable e)

/-- The parser agent to its next scan position: at a scan position the wire command that starts at `BC.head`, decoded
from the bytes the parser sees (with no byte, the step that ends the call, 41_parser.md R124); elsewhere one atomic
step. -/
def wireTurn (s : State) : Result :=
  if s.p.pstate = .scan ∧ s.par = none then
    match decodeWire s.visibleBytes with
    | .ok (i, _) => exec i s
    | .error _ => exec .parseStep s
  else parTurn s

/-- The Command word in the control loop's hand: decoded, then executed; the loop goes on to PULSE
(44_control_loop.md R190, R191). -/
def commandTurn (w : CmdWord) (s : State) : Result :=
  match decode (.command w) with
  | .ok i => exec i (s.withCtl .pulse)
  | .error _ => .refused (.illFormedCommand w)

/-- One atomic step of the control loop, its Command words fetched and decoded. -/
def ctlStep (s : State) : Result :=
  match s.ctl with
  | .dispatch w => commandTurn w s
  | .top | .pulse => ctlTurn s

/-- One choice of the schedule. -/
def runTurn (t : Turn) (s : State) : Result :=
  match t with
  | .issue c => issueTurn c s
  | .wire => wireTurn s
  | .byteIn b => .next (raiseByte b s)
  | .evt => evtTurn s
  | .par => parTurn s
  | .ctl => ctlStep s

/-- A ring whose consumer sees exactly the given items next: they lie from slot `head mod N` on. -/
def Ring.holding {α : Type} (n : Nat) (items : List α) (r : Ring α) : Ring α :=
  { mem := (items.zipIdx).foldl (fun m x => m.set ((r.head + x.2) % n) x.1) r.mem
    tail := (r.head + items.length) % (2 * n)
    head := r.head
    headSync := r.head
    tailSync := (r.head + items.length) % (2 * n) }

/-- A call at a scan position with the given bytes in ByteChannel, the parser to run next. -/
def State.withWire (s : State) (bytes : List Byte) : State :=
  { s with
    bc := s.bc.holding s.nBc bytes
    p := { s.p with pstate := .scan }
    par := none
    sched := .wire :: s.sched }

end Sys2Proof.Machine
end

