-- ==== Sys2Proof/Machine/Step.lean ====
section
/-! DEFINITION. One step: the next choice of the schedule; with none left the block idles (44_control_loop.md R193,
60_exceptions.md R230). -/

namespace Sys2Proof.Machine

/-- One step of the machine. -/
def step (s : State) : Host.Outcome State Fault Refusal :=
  match s.sched with
  | [] => .next s
  | t :: rest => runTurn t (s.withSched rest)

/-- The state in which the very next step runs the instruction of a table row's number (log 12, log 25): a port
operation is issued; a wire command lies in ByteChannel with the parser at a scan position and next to run; a
Command word is in the control loop's hand, which runs next. -/
def State.withFetchWord (s : State) (nbits w : Nat) : State :=
  if isOpRow nbits w then s.withSched (.issue (.op (BitVec.ofNat 38 w)) :: s.sched)
  else if nbits ≤ 32 then s.withWire (tableBytes nbits w)
  else (s.withCtl (.dispatch (BitVec.ofNat 34 w))).withSched (.ctl :: s.sched)

end Sys2Proof.Machine
end

