-- ==== Sys2Proof/Machine/Gray.lean ====
section
/-! DEFINITION. The Gray-coded form of the pointer crossing (20_memory.md R52, R53). It is an implementation of the
binary tests of 10_state.md R20, not a second definition: no step uses it (log 34). A `w`-bit value is a number
below `2 ^ w`. -/

namespace Sys2Proof.Machine

/-- `bin2gray(b) = b xor (b >> 1)`. -/
def bin2gray (b : Nat) : Nat := b ^^^ (b >>> 1)

/-- `gray2bin`: bit `PW-1` is copied, then each bit is the bit above it xor the Gray bit. For `w` bits, the bits from
the top down are the running xor of the Gray bits, which is the xor of all right shifts. -/
def gray2bin : Nat → Nat → Nat
  | 0, _ => 0
  | w + 1, g => g ^^^ gray2bin w (g >>> 1)

/-- `empty_c` in Gray form. -/
def grayEmpty (tailSync head : Nat) : Bool := decide (bin2gray tailSync = bin2gray head)

/-- `full_p` in Gray form for `w`-bit pointers: the two top bits differ, the rest are equal; for `w = 1` the pointers
differ (20_memory.md R52). -/
def grayFull (w tail headSync : Nat) : Bool :=
  if w = 1 then decide (tail ≠ headSync)
  else decide (bin2gray tail = bin2gray headSync ^^^ (0b11 <<< (w - 2)))

end Sys2Proof.Machine
end

