-- ==== Sys2Proof/Safety.lean ====
section
/-! DEFINITION. What a safe state is (10_state.md R32, 20_memory.md R49, R43) and what a run may not do
(60_exceptions.md R204). -/

namespace Sys2Proof.Machine

/-- The invariant of a channel of depth `n` (10_state.md R32, I1 to I5, in the form of 20_memory.md R48:
`deq_seen <= deq <= enq_seen <= enq <= deq_seen + N`): pointers are numbers modulo `2N`, the three gaps between
`head_sync`, `head`, `tail_sync`, `tail` together do not exceed the depth, and every slot of the contents holds a
value (20_memory.md R43). -/
structure Ring.Inv {α : Type} (n : Nat) (r : Ring α) : Prop where
  mem_wf : r.mem.wf = true
  slots_lt : ∀ c ∈ r.mem, c.1 < n
  tail_lt : r.tail < 2 * n
  head_lt : r.head < 2 * n
  headSync_lt : r.headSync < 2 * n
  tailSync_lt : r.tailSync < 2 * n
  order : ptrSub n r.head r.headSync + r.seen n + ptrSub n r.tail r.tailSync ≤ n
  filled : ∀ k, k < r.len n → (r.mem.get ((r.head + k) % n)).isSome = true

/-- In `exact` mode the copies are the pointers (20_memory.md R49). -/
def Ring.Synced {α : Type} (r : Ring α) : Prop := r.headSync = r.head ∧ r.tailSync = r.tail

/-- The bound of `P.acc` (10_state.md R32 I6), with the bounds of the digits already taken (41_parser.md R133). -/
def Parser.accOk (p : Parser) : Prop :=
  p.acc.toNat ≤ 999 ∧ (p.pstate = .aD1 ∨ p.pstate = .sD1 → p.acc.toNat ≤ 9) ∧
    (p.pstate = .aD2 ∨ p.pstate = .sD2 → p.acc.toNat ≤ 99)

/-- The servo's registers are what construction wrote (43_servo.md R180), and no step changes them (10_state.md
R18). -/
def State.servoBuilt (s : State) : Prop := s.srv = Servo.new s.cfg.dutyAtZero s.cfg.maxAngle

/-- The invariant of the block: 10_state.md R32, with what its other rules keep true. -/
structure State.Inv (s : State) : Prop where
  bc : s.bc.Inv s.nBc
  cc : s.cc.Inv s.nCc
  synced : s.cfg.syncMode = .exact → s.bc.Synced ∧ s.cc.Synced
  acc : s.p.accOk
  resting : s.p.pstate ≠ .idle → s.par = none
  ticks : s.stp.elapsedTicks ≤ s.cfg.tickFrequency
  servo : s.servoBuilt
  ccWords : ∀ c ∈ s.cc.mem, wordOk c.2 = true
  ctlWord : ∀ w, s.ctl = .dispatch w → wordOk w = true

/-- A run is safe as long as no step faults (60_exceptions.md R204: every claim carries "no fault recorded"). -/
def Result.safe (o : Result) : Bool :=
  match o with
  | .fault _ => false
  | .next _ => true
  | .refused _ => true

/-! Words for what an operation leaves in a channel. -/

/-- ByteChannel after `k` bytes were taken: the read pointer `k` further, its copy with it in `exact` mode. -/
def State.bcAfter (s : State) (k : Nat) : Ring Byte :=
  { s.bc with
    head := (s.bc.head + k) % (2 * s.nBc)
    headSync := if s.cfg.syncMode = .exact then (s.bc.head + k) % (2 * s.nBc) else s.bc.headSync }

/-- CommandChannel after `k` words were taken. -/
def State.ccAfter (s : State) (k : Nat) : Ring CmdWord :=
  { s.cc with
    head := (s.cc.head + k) % (2 * s.nCc)
    headSync := if s.cfg.syncMode = .exact then (s.cc.head + k) % (2 * s.nCc) else s.cc.headSync }

/-- ByteChannel after `b` was accepted: the item in slot `tail mod N`, the write pointer one further. -/
def State.bcWith (s : State) (b : Byte) : Ring Byte :=
  { s.bc with
    mem := s.bc.mem.set (s.bc.tail % s.nBc) b
    tail := (s.bc.tail + 1) % (2 * s.nBc)
    tailSync := if s.cfg.syncMode = .exact then (s.bc.tail + 1) % (2 * s.nBc) else s.bc.tailSync }

/-- CommandChannel after `w` was accepted. -/
def State.ccWith (s : State) (w : CmdWord) : Ring CmdWord :=
  { s.cc with
    mem := s.cc.mem.set (s.cc.tail % s.nCc) w
    tail := (s.cc.tail + 1) % (2 * s.nCc)
    tailSync := if s.cfg.syncMode = .exact then (s.cc.tail + 1) % (2 * s.nCc) else s.cc.tailSync }

/-! ## Runs, fairness and what a consumer was given (60_exceptions.md R221; 20_memory.md R50, R54; log 27) -/

/-- An infinite run without a reset: at every moment one choice, taken by `step` (60_exceptions.md R221). -/
def IsRun (turns : Nat → Turn) (run : Nat → State) : Prop :=
  ∀ k, turns k ≠ .issue (.step 10 []) ∧ step ((run k).withSched [turns k]) = .next (run (k + 1))

/-- "Every pointer value is eventually copied" (20_memory.md R50), for a channel over time: whatever the moment, each
copy equals its pointer then or later. -/
def Ring.SyncFair {α : Type} (rings : Nat → Ring α) : Prop :=
  ∀ k, (∃ m, k ≤ m ∧ (rings m).tailSync = (rings m).tail) ∧ (∃ m, k ≤ m ∧ (rings m).headSync = (rings m).head)

/-- The fairness of a run (20_memory.md R50): of both channels. -/
def SyncFair (run : Nat → State) : Prop := Ring.SyncFair (fun k => (run k).bc) ∧ Ring.SyncFair (fun k => (run k).cc)

/-- The items that left a channel of depth `n` in the `m` steps from moment `k` on, in the order they left: in each step
the contents' first ones, as many as the read pointer advanced (40_channel_ops.md R102). -/
def Ring.returned {α : Type} (n : Nat) (rings : Nat → Ring α) (k : Nat) : Nat → List α
  | 0 => []
  | m + 1 => Ring.returned n rings k m ++
      ((rings (k + m)).contents n).take (ptrSub n (rings (k + m + 1)).head (rings (k + m)).head)

/-- Whether a choice makes the parsing side dequeue ByteChannel at least once: its own step inside a call, or an issued
BC_DEQ, PARSE_STEP, PARSE or PARSE_AND_FORWARD. -/
def State.dequeuesByte (s : State) : Turn → Prop
  | .issue c => decode c = .ok .bcDeq ∨ decode c = .ok .parseStep ∨ decode c = .ok .parse ∨
      decode c = .ok .parseAndForward
  | .par | .wire => s.p.pstate ≠ .idle ∧ s.par = none
  | .byteIn _ | .evt | .ctl => False

/-- Whether a choice makes the control loop dequeue CommandChannel: its step at the top, or an issued CC_DEQ or
CONTROL_ITER. -/
def State.dequeuesCommand (s : State) : Turn → Prop
  | .issue c => decode c = .ok .ccDeq ∨ decode c = .ok .controlIter
  | .ctl => s.ctl = .top
  | .wire | .byteIn _ | .evt | .par => False

end Sys2Proof.Machine
end

