-- ==== Sys2Proof/Certificates/Slice0/Obligations.lean ====
section
/-! DEFINITION. The statements for the provers. -/

namespace Sys2Proof.Machine

/-- The value of three digits, the first the most significant. -/
def digitsValue (d0 d1 d2 : BitVec 4) : Nat := 100 * d0.toNat + 10 * d1.toNat + d2.toNat

/-- `ADVANCE_TICK`, `k` times. -/
def advanceTimes : Nat → State → Result
  | 0, s => .next s
  | k + 1, s => andThen (exec .advanceTick s) (advanceTimes k)

end Sys2Proof.Machine

open Sys2Proof Sys2Proof.Machine

/-! ## Encodings -/

/-- 30_encoding.md R72, R80, R85: for every well-formed instruction, decoding its code gives it back. (The
operand bits of a port operation and the numbers of internal steps are the model's: logs 10, 11.) -/
def Obligations.DecodeEncodeRoundTrip : Prop :=
  ∀ i : Instr, i.wellFormed = true → decode (encode i) = .ok i

/-- 30_encoding.md R72, R76, R80, R82, R85: the decoder answers well-formed instructions only, and no two codes decode to
one instruction. -/
def Obligations.EveryDecodedCodeIsItsEncoding : Prop :=
  ∀ (c : Code) (i : Instr), decode c = .ok i → i.wellFormed = true ∧ encode i = c

/-- A few words written out from 30_encoding.md R72, R80, R85 (X1 to X3 of 95_test_vectors.md among them). -/
def Obligations.WrittenWordsDecode : Prop :=
  decode (.wire [0x41, 0x30, 0x39, 0x30]) = .ok (.a 0 9 0) ∧
  decode (.wire [0x53, 0x30, 0x30, 0x35]) = .ok (.s 0 0 5) ∧
  decode (.wire [0x44, 0x46]) = .ok .df ∧
  decode (.wire [0x44, 0x42]) = .ok .db ∧
  decode (.wire [0x44, 0x53]) = .ok .ds ∧
  decode (.command 0x000000005#34) = .ok (.cmdSetSpeed 5) ∧
  decode (.command 0x20000005A#34) = .ok (.cmdSetServoAngle 90) ∧
  decode (.op 0x4#38) = .ok .parse

/-- 30_encoding.md R74, R75: every non-empty byte list starts with exactly one wire command, of 1 to 4 bytes. -/
def Obligations.EveryByteListStartsWithOneCommand : Prop :=
  ∀ (b : Byte) (bs : List Byte), ∃ (i : Instr) (used rest : List Byte),
    decodeWire (b :: bs) = .ok (i, rest) ∧ encode i = .wire used ∧ used ++ rest = b :: bs ∧
      1 ≤ used.length ∧ used.length ≤ 4

/-- 30_encoding.md R80, R81: the layout of a Command word, and that a Command is read back from its word. -/
def Obligations.CommandWordLayout : Prop :=
  (∀ v : U32, wordTag (wordOfCommand (.setSpeed v)) = 0b00 ∧ wordPayload (wordOfCommand (.setSpeed v)) = v) ∧
  (∀ d : Direction, wordTag (wordOfCommand (.setDirection d)) = 0b01 ∧
    (wordPayload (wordOfCommand (.setDirection d))).toNat =
      (match d with
        | .forward => 0
        | .backward => 1
        | .stop => 2)) ∧
  (∀ a : U16, wordTag (wordOfCommand (.setServoAngle a)) = 0b10 ∧
    (wordPayload (wordOfCommand (.setServoAngle a))).toNat = a.toNat) ∧
  (∀ c c' : Command, wordOfCommand c = wordOfCommand c' ↔ c = c')

/-- 30_encoding.md R82: which words are ill-formed; the dispatch of one is refused, and so is the word of the reserved
tag. -/
def Obligations.IllFormedWordsAreRefused : Prop :=
  (∀ w : CmdWord, commandOfWord w = none ↔
    (wordTag w = 0b11 ∨
      (wordTag w = 0b01 ∧ ((wordPayload w).toNat % 4 = 3 ∨ (wordPayload w).toNat / 4 ≠ 0)) ∨
      (wordTag w = 0b10 ∧ (wordPayload w).toNat / 65536 ≠ 0))) ∧
  (∀ (w : CmdWord) (s : State), commandOfWord w = none → exec (.dispatch w) s = .refused (.illFormedCommand w)) ∧
  (∀ (payload : U32) (s : State), exec (.cmdReserved payload) s = .refused (.illFormedCommand (mkWord 0b11 payload)))

/-! ## The step -/

/-- A step runs the decoded instruction: an issued code, at the state with that choice taken off the schedule; where the
instruction would drive a channel's end whose owner is inside its program, no such run exists (70_reset_and_hazards.md
R255; the refusal is the model's: log 23); an undecodable code is refused by name; with nothing scheduled the block
idles (44_control_loop.md R193). The schedule is the model's (log 3). -/
def Obligations.StepRunsIssuedInstruction : Prop :=
  (∀ (s : State) (c : Code) (rest : List Turn) (i : Instr), s.sched = .issue c :: rest → decode c = .ok i →
    (s.endInUse i = false → step s = exec i { s with sched := rest }) ∧
    (s.endInUse i = true → step s = .refused .endInUse)) ∧
  (∀ (s : State) (c : Code) (rest : List Turn) (e : DecodeError), s.sched = .issue c :: rest → decode c = .error e →
    step s = .refused (.undecodable e)) ∧
  (∀ s : State, s.sched = [] → step s = .next s)

/-- A step runs the decoded instruction: the wire command at `BC.head` where the parser scans (10_state.md R15), and a
parser step where it sees no byte (41_parser.md R124). (The schedule and this reading are the model's: logs 3, 13.) -/
def Obligations.StepRunsWireCommandAtHead : Prop :=
  (∀ (s : State) (rest : List Turn) (i : Instr) (bytes : List Byte), s.sched = .wire :: rest → s.p.pstate = .scan →
    s.par = none → decodeWire s.visibleBytes = .ok (i, bytes) → step s = exec i { s with sched := rest }) ∧
  (∀ (s : State) (rest : List Turn), s.sched = .wire :: rest → s.p.pstate = .scan → s.par = none →
    s.visibleBytes = [] → step s = exec .parseStep { s with sched := rest })

/-- A step runs the decoded instruction: the Command word in the control loop's hand, the loop going on to PULSE
(44_control_loop.md R190, R191). (Schedule and position are the model's: logs 3, 4.) -/
def Obligations.StepRunsCommandWordInHand : Prop :=
  ∀ (s : State) (rest : List Turn) (w : CmdWord) (i : Instr), s.sched = .ctl :: rest → s.ctl = .dispatch w →
    decode (.command w) = .ok i → step s = exec i { s with sched := rest, ctl := .pulse }

/-! ## Invariants and safety -/

/-- 10_state.md R32 (with 20_memory.md R43, R49, 41_parser.md R133, 42_step_pulse.md R160, 43_servo.md R181): every step
keeps the block's invariant, whatever the schedule. -/
def Obligations.StepKeepsInvariant : Prop :=
  ∀ s t : State, s.Inv → step s = .next t → t.Inv

/-- 10_state.md R31: the reset state of every configuration meets the invariant. -/
def Obligations.ResetMeetsInvariant : Prop :=
  (∀ (c : Config) (sched : List Turn), (State.resetWith c sched).Inv) ∧ State.reset.Inv

/-- 10_state.md R32: the invariant gives the lines I1 to I7. -/
def Obligations.InvariantGivesPointerBounds : Prop :=
  (∀ (α : Type) (n : Nat) (r : Machine.Ring α), r.Inv n →
    ptrSub n r.tail r.head ≤ n ∧ ptrSub n r.head r.headSync ≤ n ∧ ptrSub n r.tail r.tailSync ≤ n ∧
      ptrSub n r.tail r.headSync ≤ n ∧ ptrSub n r.tailSync r.head ≤ n ∧
      ptrSub n r.tailSync r.head ≤ ptrSub n r.tail r.head) ∧
  (∀ s : State, s.Inv → s.p.acc.toNat ≤ 999 ∧ s.stp.elapsedTicks.toNat ≤ s.cfg.tickFrequency.toNat)

/-- 20_memory.md R43, 60_exceptions.md R204: from a state with the invariant no step reads a slot that holds no value;
the only fault is a stub's. -/
def Obligations.OnlyStubsFault : Prop :=
  ∀ (s : State) (f : Fault), s.Inv → step s = .fault f → ∃ op : Stub, f = .notImplemented op

/-- 60_exceptions.md R200 ("There is no fatal error path in the core logic itself"): the agents' own atomic steps always
complete. (Where an agent stands inside its program is the model's: log 4.) -/
def Obligations.AgentStepsAlwaysComplete : Prop :=
  ∀ s : State, s.Inv →
    (∃ t, evtTurn s = .next t) ∧ (∃ t, parTurn s = .next t) ∧ (∃ t, ctlStep s = .next t)

/-- 10_state.md R10, R21: no step changes the configuration; R18: nor the servo's registers, once construction wrote
them (43_servo.md R180; log 17). -/
def Obligations.ConfigurationNeverChanges : Prop :=
  ∀ s t : State, step s = .next t → t.cfg = s.cfg ∧ (s.servoBuilt → t.srv = s.srv)

/-- 10_state.md R30: the trace is append-only; only a reset empties it (R31). -/
def Obligations.TraceOnlyGrows : Prop :=
  ∀ s t : State, step s = .next t →
    (∃ es : List Event, t.trace = s.trace ++ es) ∨ (∃ rest, s.sched = .issue (.step 10 []) :: rest)

/-- 60_exceptions.md R220: each agent's own atomic steps write only its registers: the event context (the lines of
RX_EVENT, and TICK_EVENT), the parsing side, the control loop, the synchroniser. The pointers' copies move with them in
`exact` mode only (20_memory.md R49). -/
def Obligations.AgentsWriteOnlyTheirRegisters : Prop :=
  (∀ s t : State, evtTurn s = .next t →
    t = { s with
      bc := { s.bc with mem := t.bc.mem, tail := t.bc.tail, tailSync := t.bc.tailSync }
      flg := { s.flg with dataReady := t.flg.dataReady }
      trace := t.trace
      evt := t.evt
      rx := t.rx
      res := t.res } ∧
    (s.flg.dataReady = true → t.flg.dataReady = true) ∧
    (t.rx = s.rx ∨ ∃ b, s.rx = b :: t.rx) ∧
    (s.cfg.syncMode = .lagged → t.bc.tailSync = s.bc.tailSync)) ∧
  (∀ s t : State, exec .tickEvent s = .next t →
    (s.cfg.tickDelivery = .flag → t = { s with flg := { s.flg with tickReady := true } }) ∧
    (s.cfg.tickDelivery = .direct →
      t = { s with
        stp := { s.stp with clockLevel := t.stp.clockLevel, elapsedTicks := t.stp.elapsedTicks }
        pin := t.pin
        trace := t.trace })) ∧
  (∀ s t : State, parTurn s = .next t →
    t = { s with
      bc := { s.bc with head := t.bc.head, headSync := t.bc.headSync }
      p := t.p
      cc := { s.cc with mem := t.cc.mem, tail := t.cc.tail, tailSync := t.cc.tailSync }
      trace := t.trace
      par := t.par
      res := t.res } ∧
    (s.cfg.syncMode = .lagged → t.bc.headSync = s.bc.headSync ∧ t.cc.tailSync = s.cc.tailSync)) ∧
  (∀ s t : State, ctlStep s = .next t →
    t = { s with
      cc := { s.cc with head := t.cc.head, headSync := t.cc.headSync }
      stp := t.stp
      pin := t.pin
      pwm := t.pwm
      flg := { s.flg with tickReady := t.flg.tickReady }
      trace := t.trace
      ctl := t.ctl
      res := t.res } ∧
    (s.cfg.syncMode = .lagged → t.cc.headSync = s.cc.headSync)) ∧
  (∀ (s t : State) (v : Nat),
    (exec (.syncTail .bc v) s = .next t → t = { s with bc := { s.bc with tailSync := t.bc.tailSync } }) ∧
    (exec (.syncHead .bc v) s = .next t → t = { s with bc := { s.bc with headSync := t.bc.headSync } }) ∧
    (exec (.syncTail .cc v) s = .next t → t = { s with cc := { s.cc with tailSync := t.cc.tailSync } }) ∧
    (exec (.syncHead .cc v) s = .next t → t = { s with cc := { s.cc with headSync := t.cc.headSync } }))

/-- 20_memory.md R54 (O1 to O3): in every step but a reset, items leave a channel only at the front, as many as the read
pointer advances, those that stay keep their order, and what is accepted stands at the end. -/
def Obligations.EveryStepMovesChannelsAsQueues : Prop :=
  ∀ s t : State, s.Inv → step s = .next t → (∀ rest, s.sched ≠ .issue (.step 10 []) :: rest) →
    (∃ xs, t.bc.contents s.nBc = (s.bc.contents s.nBc).drop (ptrSub s.nBc t.bc.head s.bc.head) ++ xs ∧
      xs.length = ptrSub s.nBc t.bc.tail s.bc.tail ∧ xs.length ≤ 1) ∧
    (∃ ws, t.cc.contents s.nCc = (s.cc.contents s.nCc).drop (ptrSub s.nCc t.cc.head s.cc.head) ++ ws ∧
      ws.length = ptrSub s.nCc t.cc.tail s.cc.tail ∧ ws.length ≤ 1)

/-- 60_exceptions.md R221: an agent's program run whole is a run of its own atomic steps, nothing between them; where the
event context is busy, RX_EVENT is the raising of the event (R208). (Running one whole is the model's: log 5.) -/
def Obligations.WholeProgramsAreAgentSteps : Prop :=
  (∀ (b : Byte) (s t : State) (rest : List Turn), exec (.rxEvent b) { s with sched := rest } = .next t →
    (s.evt = .waiting ∧ s.rx = [] →
      Host.Core.run core 4 { s with sched := [.byteIn b, .evt, .evt, .evt] ++ rest } = .next t) ∧
    (s.evt ≠ .waiting ∨ s.rx ≠ [] → step { s with sched := .byteIn b :: rest } = .next t)) ∧
  (∀ (s t : State) (rest : List Turn), s.Inv → exec .parseAndForward { s with sched := rest } = .next t →
    ∃ k, Host.Core.run core k { s with sched := List.replicate k .par ++ rest } = .next t) ∧
  (∀ (s t : State) (rest : List Turn), s.Inv → exec .controlIter { s with sched := rest } = .next t →
    ∃ k, k ≤ 3 ∧ Host.Core.run core k { s with sched := List.replicate k .ctl ++ rest } = .next t)

/-! ## Channels and flags -/

/-- 40_channel_ops.md R101, R103: BC_ENQ. Nothing but the named fields changes, in storage nothing
but slot `tail mod N`. -/
def Obligations.ByteEnqueueResult : Prop :=
  ∀ (b : Byte) (s : State),
    (ptrSub s.nBc s.bc.tail s.bc.headSync = s.nBc →
      exec (.bcEnq b) s = .next { s with trace := s.trace ++ [.dropByte b], res := .rejectedByte b }) ∧
    (ptrSub s.nBc s.bc.tail s.bc.headSync ≠ s.nBc →
      exec (.bcEnq b) s = .next { s with bc := s.bcWith b, res := .accepted }) ∧
    (∀ i, (s.bcWith b).mem.get i = if i = s.bc.tail % s.nBc then some b else s.bc.mem.get i)

/-- 40_channel_ops.md R101, R105: CC_ENQ. Nothing but the named fields changes, in storage nothing
but slot `tail mod N`. -/
def Obligations.CommandEnqueueResult : Prop :=
  ∀ (w : CmdWord) (s : State),
    (ptrSub s.nCc s.cc.tail s.cc.headSync = s.nCc →
      exec (.ccEnq w) s = .next { s with trace := s.trace ++ [.dropCommand w], res := .rejectedCommand w }) ∧
    (ptrSub s.nCc s.cc.tail s.cc.headSync ≠ s.nCc →
      exec (.ccEnq w) s = .next { s with cc := s.ccWith w, res := .accepted }) ∧
    (∀ i, (s.ccWith w).mem.get i = if i = s.cc.tail % s.nCc then some w else s.cc.mem.get i)

/-- 40_channel_ops.md R102, R104: BC_DEQ takes the oldest byte the parser sees, or answers `None` and changes nothing;
storage is not written. -/
def Obligations.ByteDequeueTakesOldest : Prop :=
  ∀ s : State, s.Inv →
    (s.bc.tailSync = s.bc.head → exec .bcDeq s = .next { s with res := .byte none }) ∧
    (s.bc.tailSync ≠ s.bc.head → ∃ b, (s.bc.contents s.nBc).head? = some b ∧ s.visibleBytes.head? = some b ∧
      exec .bcDeq s = .next { s with bc := s.bcAfter 1, res := .byte (some b) } ∧
      (s.bcAfter 1).contents s.nBc = (s.bc.contents s.nBc).tail)

/-- 40_channel_ops.md R102, R106: CC_DEQ takes the oldest Command word the control loop sees. -/
def Obligations.CommandDequeueTakesOldest : Prop :=
  ∀ s : State, s.Inv →
    (s.cc.tailSync = s.cc.head → exec .ccDeq s = .next { s with res := .command none }) ∧
    (s.cc.tailSync ≠ s.cc.head → ∃ w, (s.cc.contents s.nCc).head? = some w ∧
      exec .ccDeq s = .next { s with cc := s.ccAfter 1, res := .command (some w) } ∧
      (s.ccAfter 1).contents s.nCc = (s.cc.contents s.nCc).tail)

/-- 40_channel_ops.md R106 (X17): a Command routed through the empty CommandChannel and dequeued is the original. -/
def Obligations.CommandRoundTrip : Prop :=
  ∀ (c : Command) (s : State), s.Inv → s.cfg.syncMode = .exact → s.cc.contents s.nCc = [] →
    ∃ t u, exec (.ccEnq (wordOfCommand c)) s = .next t ∧ exec .ccDeq t = .next u ∧
      u.res = .command (some (wordOfCommand c)) ∧ commandOfWord (wordOfCommand c) = some c ∧
      u.cc.contents u.nCc = []

/-- 20_memory.md R51 (items 1 and 2): lag is safe for the data. -/
def Obligations.LagIsSafe : Prop :=
  ∀ (α : Type) (n : Nat) (r : Machine.Ring α), r.Inv n →
    (r.fullP n = false → r.len n < n) ∧
    (r.emptyC = false → 0 < r.len n ∧ ∃ v, r.read n (r.head % n) = some v ∧ (r.contents n).head? = some v)

/-- 20_memory.md R49, 10_state.md R20: in `exact` mode full and empty are the true occupancy. -/
def Obligations.ExactModeSeesTrueOccupancy : Prop :=
  ∀ s : State, s.Inv → s.cfg.syncMode = .exact →
    (s.bc.fullP s.nBc = true ↔ (s.bc.contents s.nBc).length = s.nBc) ∧
    (s.bc.emptyC = true ↔ s.bc.contents s.nBc = []) ∧
    (s.cc.fullP s.nCc = true ↔ (s.cc.contents s.nCc).length = s.nCc) ∧
    (s.cc.emptyC = true ↔ s.cc.contents s.nCc = [])

/-- 20_memory.md R55: where both succeed, an enqueue and a dequeue of a channel commute: same state, same results. Both
channels. -/
def Obligations.EnqueueAndDequeueCommute : Prop :=
  (∀ (b : Byte) (s : State), s.Inv → s.bc.fullP s.nBc = false → s.bc.emptyC = false →
    ∃ t₁ u₁ t₂ u₂, exec (.bcEnq b) s = .next t₁ ∧ exec .bcDeq t₁ = .next u₁ ∧
      exec .bcDeq s = .next t₂ ∧ exec (.bcEnq b) t₂ = .next u₂ ∧
      t₁.res = .accepted ∧ u₂.res = .accepted ∧ u₁.res = t₂.res ∧
      { u₁ with res := .unset } = { u₂ with res := .unset }) ∧
  (∀ (w : CmdWord) (s : State), s.Inv → s.cc.fullP s.nCc = false → s.cc.emptyC = false →
    ∃ t₁ u₁ t₂ u₂, exec (.ccEnq w) s = .next t₁ ∧ exec .ccDeq t₁ = .next u₁ ∧
      exec .ccDeq s = .next t₂ ∧ exec (.ccEnq w) t₂ = .next u₂ ∧
      t₁.res = .accepted ∧ u₂.res = .accepted ∧ u₁.res = t₂.res ∧
      { u₁ with res := .unset } = { u₂ with res := .unset })

/-- 40_channel_ops.md R109 (X14): from an empty ring of depth N, N enqueues are accepted, the next is rejected, and the
contents are the first N items in order; in either SYNC_MODE. -/
def Obligations.CapacityIsTheDepth : Prop :=
  ∀ (α : Type) (n : Nat) (exact : Bool) (xs : List α) (y : α), 0 < n → xs.length = n →
    ∃ r : Machine.Ring α, xs.foldlM (fun r x => r.enq n exact x) Machine.Ring.empty = some r ∧ r.enq n exact y = none ∧
      r.contents n = xs

/-- 20_memory.md R50: a synchroniser step writes one copy, to a value between it and the pointer, and nothing else; a
value outside (behind the copy or past the pointer, or no pointer value) is no choice, so that no copy moves backwards
or passes its pointer (that the draw is an operand, and the refusal, are the model's: log 15). -/
def Obligations.SynchroniserStepResult : Prop :=
  ∀ (s : State) (v : Nat),
    (v < 2 * s.nBc ∧ ptrSub s.nBc v s.bc.tailSync ≤ ptrSub s.nBc s.bc.tail s.bc.tailSync →
      exec (.syncTail .bc v) s = .next { s with bc := { s.bc with tailSync := v } }) ∧
    (v < 2 * s.nBc ∧ ptrSub s.nBc v s.bc.headSync ≤ ptrSub s.nBc s.bc.head s.bc.headSync →
      exec (.syncHead .bc v) s = .next { s with bc := { s.bc with headSync := v } }) ∧
    (v < 2 * s.nCc ∧ ptrSub s.nCc v s.cc.tailSync ≤ ptrSub s.nCc s.cc.tail s.cc.tailSync →
      exec (.syncTail .cc v) s = .next { s with cc := { s.cc with tailSync := v } }) ∧
    (v < 2 * s.nCc ∧ ptrSub s.nCc v s.cc.headSync ≤ ptrSub s.nCc s.cc.head s.cc.headSync →
      exec (.syncHead .cc v) s = .next { s with cc := { s.cc with headSync := v } }) ∧
    (2 * s.nBc ≤ v ∨ ptrSub s.nBc s.bc.tail s.bc.tailSync < ptrSub s.nBc v s.bc.tailSync →
      exec (.syncTail .bc v) s = .refused .syncChoiceOutOfRange) ∧
    (2 * s.nBc ≤ v ∨ ptrSub s.nBc s.bc.head s.bc.headSync < ptrSub s.nBc v s.bc.headSync →
      exec (.syncHead .bc v) s = .refused .syncChoiceOutOfRange) ∧
    (2 * s.nCc ≤ v ∨ ptrSub s.nCc s.cc.tail s.cc.tailSync < ptrSub s.nCc v s.cc.tailSync →
      exec (.syncTail .cc v) s = .refused .syncChoiceOutOfRange) ∧
    (2 * s.nCc ≤ v ∨ ptrSub s.nCc s.cc.head s.cc.headSync < ptrSub s.nCc v s.cc.headSync →
      exec (.syncHead .cc v) s = .refused .syncChoiceOutOfRange)

/-- 20_memory.md R52: the Gray forms of the full and empty tests are the binary tests of 10_state.md R20. -/
def Obligations.GrayTestsAgreeWithBinary : Prop :=
  ∀ (w a b : Nat), 1 ≤ w → a < 2 ^ w → b < 2 ^ w →
    (grayFull w a b = true ↔ ptrSub (2 ^ (w - 1)) a b = 2 ^ (w - 1)) ∧ (grayEmpty a b = true ↔ a = b)

/-- 20_memory.md R52: every increment of a `w`-bit counter, the wrap included, changes exactly one bit of its Gray code,
and `gray2bin` undoes `bin2gray`. -/
def Obligations.GrayIncrementChangesOneBit : Prop :=
  ∀ (w b : Nat), 1 ≤ w → b < 2 ^ w →
    (∃ k, k < w ∧ bin2gray b ^^^ bin2gray ((b + 1) % 2 ^ w) = 2 ^ k) ∧ gray2bin w (bin2gray b) = b

/-- 40_channel_ops.md R107, R108: the flag operations. Nothing but the flag and the result changes. -/
def Obligations.FlagOperationsResult : Prop :=
  ∀ s : State,
    exec (.flagSet .dataReady) s = .next { s with flg := { s.flg with dataReady := true } } ∧
    exec (.flagSet .tickReady) s = .next { s with flg := { s.flg with tickReady := true } } ∧
    exec (.flagTake .dataReady) s =
      .next { s with flg := { s.flg with dataReady := false }, res := .flag s.flg.dataReady } ∧
    exec (.flagTake .tickReady) s =
      .next { s with flg := { s.flg with tickReady := false }, res := .flag s.flg.tickReady }

/-- 20_memory.md R54 O5, under the fairness of R50 (which holds of every run in `exact` mode): in a run whose consumer
keeps dequeuing, everything a channel holds at any moment is returned, in order, within finitely many steps. Both
channels. (Fairness is a premise on infinite runs, and leaves `step` as it is: log 27.) -/
def Obligations.EventualDelivery : Prop :=
  ∀ (turns : Nat → Turn) (run : Nat → State), IsRun turns run → (run 0).Inv →
    ((run 0).cfg.syncMode = .exact → SyncFair run) ∧
    (SyncFair run → (∀ k, ∃ m, k ≤ m ∧ (run m).dequeuesByte (turns m)) →
      ∀ k, ∃ m, (run k).bc.contents (run 0).nBc <+: Machine.Ring.returned (run 0).nBc (fun j => (run j).bc) k m) ∧
    (SyncFair run → (∀ k, ∃ m, k ≤ m ∧ (run m).dequeuesCommand (turns m)) →
      ∀ k, ∃ m, (run k).cc.contents (run 0).nCc <+: Machine.Ring.returned (run 0).nCc (fun j => (run j).cc) k m)

/-! ## The parser -/

/-- 41_parser.md R123: the complete transition table. Under R133 `acc` is at most 99 where a digit follows one; for a
larger `acc`, which no run reaches, the rows of aD1, aD2, sD1 and sD2 say what the model chose: the register keeps the
low 10 bits (log 18). -/
def Obligations.TransitionTable : Prop :=
  ∀ (acc : BitVec 10) (b : Byte),
    (∀ st : PState, st ≠ .idle → ptrans st acc none = some ⟨.idle, acc, .done .err⟩) ∧
    (∀ r : Option Byte, ptrans .idle acc r = none) ∧
    ptrans .scan acc (some 0x41) = some ⟨.aD0, 0, .continue⟩ ∧
    ptrans .scan acc (some 0x53) = some ⟨.sD0, 0, .continue⟩ ∧
    ptrans .scan acc (some 0x44) = some ⟨.dArg, acc, .continue⟩ ∧
    (b ≠ 0x41 ∧ b ≠ 0x53 ∧ b ≠ 0x44 → ptrans .scan acc (some b) = some ⟨.scan, acc, .continue⟩) ∧
    (0x30 ≤ b.toNat ∧ b.toNat ≤ 0x39 →
      ptrans .aD0 acc (some b) = some ⟨.aD1, BitVec.ofNat 10 (b.toNat - 0x30), .continue⟩ ∧
      ptrans .aD1 acc (some b) = some ⟨.aD2, BitVec.ofNat 10 (acc.toNat * 10 + (b.toNat - 0x30)), .continue⟩ ∧
      ptrans .aD2 acc (some b) = some ⟨.idle, BitVec.ofNat 10 (acc.toNat * 10 + (b.toNat - 0x30)),
        .done (.ok (.setServoAngle (BitVec.ofNat 16 (acc.toNat * 10 + (b.toNat - 0x30)))))⟩ ∧
      ptrans .sD0 acc (some b) = some ⟨.sD1, BitVec.ofNat 10 (b.toNat - 0x30), .continue⟩ ∧
      ptrans .sD1 acc (some b) = some ⟨.sD2, BitVec.ofNat 10 (acc.toNat * 10 + (b.toNat - 0x30)), .continue⟩ ∧
      ptrans .sD2 acc (some b) = some ⟨.idle, BitVec.ofNat 10 (acc.toNat * 10 + (b.toNat - 0x30)),
        .done (.ok (.setSpeed (BitVec.ofNat 32 (acc.toNat * 10 + (b.toNat - 0x30)))))⟩) ∧
    (b.toNat < 0x30 ∨ 0x39 < b.toNat →
      ∀ st : PState, st = .aD0 ∨ st = .aD1 ∨ st = .aD2 ∨ st = .sD0 ∨ st = .sD1 ∨ st = .sD2 →
        ptrans st acc (some b) = some ⟨.scan, acc, .continue⟩) ∧
    ptrans .dArg acc (some 0x46) = some ⟨.idle, acc, .done (.ok (.setDirection .forward))⟩ ∧
    ptrans .dArg acc (some 0x42) = some ⟨.idle, acc, .done (.ok (.setDirection .backward))⟩ ∧
    ptrans .dArg acc (some 0x53) = some ⟨.idle, acc, .done (.ok (.setDirection .stop))⟩ ∧
    (b ≠ 0x46 ∧ b ≠ 0x42 ∧ b ≠ 0x53 → ptrans .dArg acc (some b) = some ⟨.scan, acc, .continue⟩)

/-- 41_parser.md R121: one dequeue and one transition; the byte is consumed whatever it is, and none where the channel is
seen empty. In IDLE no step is defined (refused, the model's choice: log 20). -/
def Obligations.ParseStepResult : Prop :=
  (∀ s : State, s.p.pstate = .idle → exec .parseStep s = .refused .parserIdle) ∧
  (∀ s : State, s.Inv → s.p.pstate ≠ .idle → s.visibleBytes = [] →
    exec .parseStep s = .next { s with p := ⟨.idle, s.p.acc⟩, par := some .err }) ∧
  (∀ (s : State) (b : Byte) (bs : List Byte), s.Inv → s.p.pstate ≠ .idle → s.visibleBytes = b :: bs →
    ∃ t : Transition, ptrans s.p.pstate s.p.acc (some b) = some t ∧
      exec .parseStep s = .next { s with
        bc := s.bcAfter 1
        p := ⟨t.pstate, t.acc⟩
        par := (match t.out with
          | .continue => none
          | .done r => some r) })

/-- 41_parser.md R137 (with R120, R134): PARSE on what the parser sees is `parse_list`: its result, and what it leaves
queued; the channel's storage and write side, and every register outside the parser's, are as before. R137's premise, that
no byte becomes visible during the call, holds because PARSE runs whole (log 5); where the result is kept is the model's
(log 6). -/
def Obligations.ParseComputesParseList : Prop :=
  ∀ s : State, s.Inv → s.p.pstate = .idle → ∃ t, exec .parse s = .next t ∧
    t.res = .parsed (parseList s.visibleBytes).1 ∧
    t.visibleBytes = (parseList s.visibleBytes).2 ∧ t.p.pstate = .idle ∧
    t.bc = s.bcAfter (s.visibleBytes.length - t.visibleBytes.length) ∧
    t = { s with bc := t.bc, p := t.p, res := t.res }

/-- 41_parser.md R137: the equations of `parse_list` and of `digits` (whose first argument is here the number of digits
still to take, `3 - k`). -/
def Obligations.ParseListEquations : Prop :=
  parseList [] = (.err, []) ∧
  (∀ r, parseList (0x41 :: r) = match digitsList 3 0 r with
    | .done v rest => (.ok (.setServoAngle (BitVec.ofNat 16 v)), rest)
    | .bad rest => parseList rest
    | .short => (.err, [])) ∧
  (∀ r, parseList (0x53 :: r) = match digitsList 3 0 r with
    | .done v rest => (.ok (.setSpeed (BitVec.ofNat 32 v)), rest)
    | .bad rest => parseList rest
    | .short => (.err, [])) ∧
  parseList [0x44] = (.err, []) ∧
  (∀ b r, parseList (0x44 :: b :: r) =
    if b = 0x46 then (.ok (.setDirection .forward), r)
    else if b = 0x42 then (.ok (.setDirection .backward), r)
    else if b = 0x53 then (.ok (.setDirection .stop), r)
    else parseList r) ∧
  (∀ b r, b ≠ 0x41 → b ≠ 0x53 → b ≠ 0x44 → parseList (b :: r) = parseList r) ∧
  (∀ acc r, digitsList 0 acc r = .done acc r) ∧
  (∀ left acc, digitsList (left + 1) acc [] = .short) ∧
  (∀ left acc b r, digitsList (left + 1) acc (b :: r) =
    if 0x30 ≤ b.toNat ∧ b.toNat ≤ 0x39 then digitsList left (acc * 10 + (b.toNat - 0x30)) r else .bad r)

/-- 41_parser.md R126: `A d0 d1 d2` at a scan position, its four bytes seen. -/
def Obligations.AngleCommandResult : Prop :=
  ∀ (d0 d1 d2 : BitVec 4) (s : State) (rest : List Byte), s.Inv → s.p.pstate = .scan →
    d0.toNat ≤ 9 → d1.toNat ≤ 9 → d2.toNat ≤ 9 →
    s.visibleBytes = [0x41, 0x3#4 ++ d0, 0x3#4 ++ d1, 0x3#4 ++ d2] ++ rest →
    exec (.a d0 d1 d2) s = .next { s with
      bc := s.bcAfter 4
      p := ⟨.idle, BitVec.ofNat 10 (digitsValue d0 d1 d2)⟩
      par := some (.ok (.setServoAngle (BitVec.ofNat 16 (digitsValue d0 d1 d2)))) }

/-- 41_parser.md R127: `S d0 d1 d2`. -/
def Obligations.SpeedCommandResult : Prop :=
  ∀ (d0 d1 d2 : BitVec 4) (s : State) (rest : List Byte), s.Inv → s.p.pstate = .scan →
    d0.toNat ≤ 9 → d1.toNat ≤ 9 → d2.toNat ≤ 9 →
    s.visibleBytes = [0x53, 0x3#4 ++ d0, 0x3#4 ++ d1, 0x3#4 ++ d2] ++ rest →
    exec (.s d0 d1 d2) s = .next { s with
      bc := s.bcAfter 4
      p := ⟨.idle, BitVec.ofNat 10 (digitsValue d0 d1 d2)⟩
      par := some (.ok (.setSpeed (BitVec.ofNat 32 (digitsValue d0 d1 d2)))) }

/-- 41_parser.md R128, R129, R130: `DF`, `DB`, `DS`. -/
def Obligations.DirectionCommandsResult : Prop :=
  ∀ (s : State) (rest : List Byte), s.Inv → s.p.pstate = .scan →
    (s.visibleBytes = [0x44, 0x46] ++ rest → exec .df s = .next { s with
      bc := s.bcAfter 2, p := ⟨.idle, s.p.acc⟩, par := some (.ok (.setDirection .forward)) }) ∧
    (s.visibleBytes = [0x44, 0x42] ++ rest → exec .db s = .next { s with
      bc := s.bcAfter 2, p := ⟨.idle, s.p.acc⟩, par := some (.ok (.setDirection .backward)) }) ∧
    (s.visibleBytes = [0x44, 0x53] ++ rest → exec .ds s = .next { s with
      bc := s.bcAfter 2, p := ⟨.idle, s.p.acc⟩, par := some (.ok (.setDirection .stop)) })

/-- 41_parser.md R125: a byte that is no prefix, at a scan position, is consumed and nothing else happens. -/
def Obligations.SkippedByteResult : Prop :=
  ∀ (b : Byte) (s : State) (rest : List Byte), s.Inv → s.p.pstate = .scan → b ≠ 0x41 → b ≠ 0x44 → b ≠ 0x53 →
    s.visibleBytes = b :: rest → exec (.skip b) s = .next { s with bc := s.bcAfter 1 }

/-- 41_parser.md R131: a malformed payload consumes prefix, good digits and the offending byte, produces nothing, and the
same call scans on. -/
def Obligations.MalformedPayloadResult : Prop :=
  (∀ (p : Lead) (taken : List (BitVec 4)) (bad : Byte) (s : State) (rest : List Byte), s.Inv → s.p.pstate = .scan →
    p = .angle ∨ p = .speed → taken.length ≤ 2 → (∀ d ∈ taken, d.toNat ≤ 9) →
    bad.toNat < 0x30 ∨ 0x39 < bad.toNat →
    s.visibleBytes = leadByte p :: taken.map digitByte ++ [bad] ++ rest →
    ∃ t, exec (.malformed p taken bad) s = .next t ∧
      t = { s with bc := s.bcAfter (taken.length + 2), p := ⟨.scan, t.p.acc⟩ }) ∧
  (∀ (bad : Byte) (s : State) (rest : List Byte), s.Inv → s.p.pstate = .scan →
    bad ≠ 0x46 → bad ≠ 0x42 → bad ≠ 0x53 → s.visibleBytes = 0x44 :: bad :: rest →
    exec (.malformed .direction [] bad) s = .next { s with bc := s.bcAfter 2 })

/-- 41_parser.md R132: an incomplete payload loses its bytes and ends the call with the error. -/
def Obligations.IncompletePayloadResult : Prop :=
  ∀ (p : Lead) (taken : List (BitVec 4)) (s : State), s.Inv → s.p.pstate = .scan →
    (p = .direction → taken = []) → taken.length ≤ 2 → (∀ d ∈ taken, d.toNat ≤ 9) →
    s.visibleBytes = leadByte p :: taken.map digitByte →
    ∃ t, exec (.incomplete p taken) s = .next t ∧
      t = { s with bc := s.bcAfter (taken.length + 1), p := ⟨.idle, t.p.acc⟩, par := some .err }

/-- 41_parser.md R140, R141: PARSE, then one enqueue of the Command (its result ignored) or one error text. -/
def Obligations.ParseAndForwardResult : Prop :=
  ∀ s : State, s.Inv → s.p.pstate = .idle → s.par = none →
    ∃ t u, exec .parse s = .next t ∧ exec .parseAndForward s = .next u ∧
      (∀ c, (parseList s.visibleBytes).1 = .ok c →
        exec (.ccEnq (wordOfCommand c)) { t with par := none, res := s.res } = .next u) ∧
      ((parseList s.visibleBytes).1 = .err →
        u = { t with par := none, res := s.res, trace := s.trace ++ [.serialWrite s.cfg.parseErrText] })

/-! ## The step-pulse generator -/

/-- 42_step_pulse.md R150, R151: pure state assignments; no pin, no phase, no counter, no event. -/
def Obligations.SettersResult : Prop :=
  ∀ (d : Direction) (v : U32) (s : State),
    exec (.setDir d) s = .next { s with stp := { s.stp with direction := d } } ∧
    exec (.setSpeed v) s = .next { s with stp := { s.stp with speed := v } }

/-- 42_step_pulse.md R155, R156, R157, R158, R168: ADVANCE_TICK. -/
def Obligations.AdvanceTickResult : Prop :=
  ∀ s : State,
    (s.stp.direction = .stop →
      exec .advanceTick s =
        .next { s with pin := { s.pin with step := some .low }, trace := s.trace ++ [.pinWrite .step .low] }) ∧
    (∀ l : Level, (s.stp.direction = .forward ∧ l = .high) ∨ (s.stp.direction = .backward ∧ l = .low) →
      (s.stp.speed = 0 →
        exec .advanceTick s =
          .next { s with pin := { s.pin with dir := some l }, trace := s.trace ++ [.pinWrite .dir l] }) ∧
      (s.stp.speed ≠ 0 →
        (s.cfg.tickFrequency.toNat / s.stp.speed.toNat ≤ s.stp.elapsedTicks.toNat →
          exec .advanceTick s = .next { s with
            stp := { s.stp with elapsedTicks := 0, clockLevel := !s.stp.clockLevel }
            pin := { dir := some l, step := some (if s.stp.clockLevel then .low else .high) }
            trace := s.trace ++ [.pinWrite .dir l] ++
              [.pinWrite .step (if s.stp.clockLevel then .low else .high)] }) ∧
        (s.stp.elapsedTicks.toNat < s.cfg.tickFrequency.toNat / s.stp.speed.toNat →
          exec .advanceTick s = .next { s with
            stp := { s.stp with elapsedTicks := s.stp.elapsedTicks + 1 }
            pin := { dir := some l, step := some (if s.stp.clockLevel then .high else .low) }
            trace := s.trace ++ [.pinWrite .dir l] ++
              [.pinWrite .step (if s.stp.clockLevel then .high else .low)] })))

/-- 42_step_pulse.md R162: ADVANCE_BLOCKING. -/
def Obligations.AdvanceBlockingResult : Prop :=
  ∀ s : State,
    (s.stp.direction = .stop → exec .advanceBlocking s = .next s) ∧
    (∀ l : Level, (s.stp.direction = .forward ∧ l = .high) ∨ (s.stp.direction = .backward ∧ l = .low) →
      (s.stp.speed = 0 →
        exec .advanceBlocking s =
          .next { s with pin := { s.pin with dir := some l }, trace := s.trace ++ [.pinWrite .dir l] }) ∧
      (s.stp.speed ≠ 0 → ∃ half : U32, half.toNat = s.cfg.basePeriod.toNat / s.stp.speed.toNat ∧
        exec .advanceBlocking s = .next { s with
          pin := { dir := some l, step := some .low }
          trace := s.trace ++
            [.pinWrite .dir l, .pinWrite .step .high, .wait half, .pinWrite .step .low, .wait half] }))

/-- 42_step_pulse.md R159 (a), (b), (d); 90_conflicts.md C1: with a constant speed and threshold T, from a zero count,
the next T calls only count, and call T + 1 flips the level: the half-period is T + 1 calls. -/
def Obligations.HalfPeriodIsThresholdPlusOne : Prop :=
  ∀ s : State, s.stp.direction ≠ .stop → s.stp.speed ≠ 0 → s.stp.elapsedTicks = 0 →
    (∀ k, k ≤ s.cfg.tickFrequency.toNat / s.stp.speed.toNat →
      ∃ t, advanceTimes k s = .next t ∧ t.stp = { s.stp with elapsedTicks := BitVec.ofNat 32 k } ∧
        (0 < k → t.pin.step = some (phaseLevel s.stp.clockLevel))) ∧
    (∃ t, advanceTimes (s.cfg.tickFrequency.toNat / s.stp.speed.toNat + 1) s = .next t ∧
      t.stp = { s.stp with clockLevel := !s.stp.clockLevel } ∧
      t.pin.step = some (phaseLevel (!s.stp.clockLevel)))

/-- 42_step_pulse.md R164: at speed 0 no advance of either variant changes the phase or the counter; with a direction
other than Stop none writes the step pin (the only event is the direction pin's, R168); with Stop the only write is the
tick variant's low. -/
def Obligations.SpeedZeroNeverToggles : Prop :=
  ∀ s : State, s.stp.speed = 0 →
    ∃ t u, exec .advanceTick s = .next t ∧ exec .advanceBlocking s = .next u ∧
      t.stp = s.stp ∧ u.stp = s.stp ∧ u.pin.step = s.pin.step ∧
      (s.stp.direction ≠ .stop → t.pin.step = s.pin.step) ∧
      (s.stp.direction = .stop → t.pin.step = some .low ∧ t.trace = s.trace ++ [.pinWrite .step .low] ∧
        u.trace = s.trace) ∧
      (∀ l : Level, (s.stp.direction = .forward ∧ l = .high) ∨ (s.stp.direction = .backward ∧ l = .low) →
        t.trace = s.trace ++ [.pinWrite .dir l] ∧ u.trace = s.trace ++ [.pinWrite .dir l])

/-- 42_step_pulse.md R160: the counter stays at or below TICK_FREQUENCY and its increment never wraps. -/
def Obligations.TickCounterNeverWraps : Prop :=
  ∀ s t : State, s.stp.elapsedTicks ≤ s.cfg.tickFrequency → exec .advanceTick s = .next t →
    t.stp.elapsedTicks ≤ s.cfg.tickFrequency ∧
      (t.stp.elapsedTicks = 0 ∨ t.stp.elapsedTicks = s.stp.elapsedTicks ∨
        t.stp.elapsedTicks.toNat = s.stp.elapsedTicks.toNat + 1)

/-- 42_step_pulse.md R166, 60_exceptions.md R204: the stubs fault, always. -/
def Obligations.StubsFault : Prop :=
  ∀ (v : U32) (s : State),
    exec .hold s = .fault (.notImplemented .hold) ∧
    exec (.setAccel v) s = .fault (.notImplemented .setAccel) ∧
    exec .estop s = .fault (.notImplemented .estop)

/-! ## The servo -/

/-- 43_servo.md R182: the clamp, the exact sum (which fits 16 bits under the invariant, R181), the register and the
event. Above the maximum every angle has the maximum's effect (X16), in every state. -/
def Obligations.SetAngleResult : Prop :=
  (∀ (a : U16) (s : State), s.Inv → ∃ duty : U16,
    duty.toNat = s.srv.dutyPerDegree.toNat * min a.toNat s.srv.maxAngle.toNat + s.srv.dutyAtZero.toNat ∧
      exec (.setAngle a) s = .next { s with pwm := some duty, trace := s.trace ++ [.pwmWrite duty] }) ∧
  (∀ (a : U16) (s : State), s.srv.maxAngle ≤ a → exec (.setAngle a) s = exec (.setAngle s.srv.maxAngle) s)

/-- 43_servo.md R183: CENTER emits `duty_at_90`; under the invariant that is three times the duty at zero, and above the
duty of 90 degrees by `(2 * duty_at_zero) mod 90` (90_conflicts.md C8). -/
def Obligations.CenterResult : Prop :=
  (∀ s : State,
    exec .center s =
      .next { s with pwm := some s.srv.dutyAt90, trace := s.trace ++ [.pwmWrite s.srv.dutyAt90] }) ∧
  (∀ s : State, s.Inv → s.srv.dutyAt90.toNat = 3 * s.srv.dutyAtZero.toNat ∧
    (90 ≤ s.srv.maxAngle.toNat →
      s.srv.dutyAt90.toNat = (s.srv.duty 90).toNat + (2 * s.srv.dutyAtZero.toNat) % 90))

/-- 43_servo.md R180, R181: SERVO_NEW, with DUTY_AT_ZERO and MAX_ANGLE, writes the four constants and emits nothing; the
registers are immutable after it (10_state.md R18), so other operands are refused, and by their own name those that break
the inequalities (log 17). -/
def Obligations.ServoNewResult : Prop :=
  ∀ (dz ma : U16) (s : State),
    (dz = s.cfg.dutyAtZero ∧ ma = s.cfg.maxAngle →
      ∃ x : Servo, exec (.servoNew dz ma) s = .next { s with srv := x } ∧ x.dutyAtZero = dz ∧ x.maxAngle = ma ∧
        x.dutyAt90.toNat = 3 * dz.toNat ∧ x.dutyPerDegree.toNat = 2 * dz.toNat / 90) ∧
    (3 * dz.toNat ≤ 65535 ∧ 2 * dz.toNat / 90 * ma.toNat + dz.toNat ≤ 65535 ∧
      (dz ≠ s.cfg.dutyAtZero ∨ ma ≠ s.cfg.maxAngle) → exec (.servoNew dz ma) s = .refused .servoImmutable) ∧
    (65535 < 3 * dz.toNat ∨ 65535 < 2 * dz.toNat / 90 * ma.toNat + dz.toNat →
      exec (.servoNew dz ma) s = .refused .servoConfigInvalid)

/-! ## Dispatch, control loop, events, reset -/

/-- 44_control_loop.md R190: DISPATCH, and the three Command words, have the effect of their setter. -/
def Obligations.DispatchResult : Prop :=
  ∀ (v : U32) (d : Direction) (a : U16) (s : State),
    exec (.dispatch (wordOfCommand (.setSpeed v))) s = .next { s with stp := { s.stp with speed := v } } ∧
    exec (.cmdSetSpeed v) s = .next { s with stp := { s.stp with speed := v } } ∧
    exec (.dispatch (wordOfCommand (.setDirection d))) s = .next { s with stp := { s.stp with direction := d } } ∧
    exec (.cmdSetDirection d) s = .next { s with stp := { s.stp with direction := d } } ∧
    exec (.dispatch (wordOfCommand (.setServoAngle a))) s =
      .next { s with pwm := some (s.srv.duty a), trace := s.trace ++ [.pwmWrite (s.srv.duty a)] } ∧
    exec (.cmdSetServoAngle a) s =
      .next { s with pwm := some (s.srv.duty a), trace := s.trace ++ [.pwmWrite (s.srv.duty a)] }

/-- 44_control_loop.md R192: PULSE, by configuration; it always completes. -/
def Obligations.PulseResult : Prop :=
  ∀ s : State,
    (s.cfg.pulseVariant = .blocking → exec .pulse s = exec .advanceBlocking s) ∧
    (s.cfg.pulseVariant = .tick → s.cfg.tickDelivery = .direct → exec .pulse s = .next s) ∧
    (s.cfg.pulseVariant = .tick → s.cfg.tickDelivery = .flag → s.flg.tickReady = false →
      exec .pulse s = .next { s with res := .flag false }) ∧
    (s.cfg.pulseVariant = .tick → s.cfg.tickDelivery = .flag → s.flg.tickReady = true →
      exec .pulse s =
        exec .advanceTick { s with flg := { s.flg with tickReady := false }, res := .flag true }) ∧
    (∃ t, exec .pulse s = .next t)

/-- 44_control_loop.md R191: an iteration is the dequeue, the dispatch of what it took, and the pulse; at most one
Command is taken. -/
def Obligations.ControlIterResult : Prop :=
  ∀ s : State, s.Inv → s.ctl = .top → ∃ t u, exec .ccDeq s = .next t ∧ exec .controlIter s = .next u ∧
    (t.res = .command none → exec .pulse t = .next u) ∧
    (∀ w, t.res = .command (some w) → ∃ v, exec (.dispatch w) t = .next v ∧ exec .pulse v = .next u)

/-- 60_exceptions.md R212: RX_EVENT: echo if configured, enqueue with the result ignored, then the flag, whether or not
the byte was accepted. The environment may raise the event at any time (R210): while the event context is busy the byte
waits its turn (R208; log 21), and the event context takes the bytes in the order raised, line by line. -/
def Obligations.RxEventResult : Prop :=
  ∀ (b : Byte) (s : State),
    (s.evt = .waiting ∧ s.rx = [] →
      (ptrSub s.nBc s.bc.tail s.bc.headSync = s.nBc →
        exec (.rxEvent b) s = .next { s with
          trace := s.trace ++ (if s.cfg.echo then [.serialWrite [b]] else []) ++ [.dropByte b]
          res := .rejectedByte b
          flg := { s.flg with dataReady := true } }) ∧
      (ptrSub s.nBc s.bc.tail s.bc.headSync ≠ s.nBc →
        exec (.rxEvent b) s = .next { s with
          bc := s.bcWith b
          trace := s.trace ++ (if s.cfg.echo then [.serialWrite [b]] else [])
          res := .accepted
          flg := { s.flg with dataReady := true } })) ∧
    (s.evt ≠ .waiting ∨ s.rx ≠ [] → exec (.rxEvent b) s = .next { s with rx := s.rx ++ [b] }) ∧
    (∀ rest, s.sched = .byteIn b :: rest → step s = .next { s with sched := rest, rx := s.rx ++ [b] }) ∧
    (∀ bs, s.evt = .waiting → s.rx = b :: bs → evtTurn s = .next { s with
      rx := bs
      evt := .enqueue b
      trace := s.trace ++ (if s.cfg.echo then [.serialWrite [b]] else []) }) ∧
    (s.evt = .enqueue b → evtTurn s = exec (.bcEnq b) { s with evt := .setFlag }) ∧
    (s.evt = .setFlag → evtTurn s = .next { s with evt := .waiting, flg := { s.flg with dataReady := true } }) ∧
    (s.evt = .waiting ∧ s.rx = [] → evtTurn s = .next s)

/-- 60_exceptions.md R213: TICK_EVENT, in the tick variant; in the blocking variant the event never occurs (refused:
log 22). -/
def Obligations.TickEventResult : Prop :=
  ∀ s : State,
    (s.cfg.pulseVariant = .tick → s.cfg.tickDelivery = .flag →
      exec .tickEvent s = .next { s with flg := { s.flg with tickReady := true } }) ∧
    (s.cfg.pulseVariant = .tick → s.cfg.tickDelivery = .direct →
      exec .tickEvent s = exec .advanceTick s ∧ ∃ t, exec .tickEvent s = .next t) ∧
    (s.cfg.pulseVariant = .blocking → exec .tickEvent s = .refused .noTickSource)

/-- 10_state.md R31, 70_reset_and_hazards.md R240, R243: RESET puts every register at the table's value, every agent at
the top of its loop; the configuration stays. (That the schedule stays is the model's: log 29.) -/
def Obligations.ResetResult : Prop :=
  ∀ s : State, ∃ t, exec .reset s = .next t ∧ t.cfg = s.cfg ∧ t.sched = s.sched ∧
    t.bc.tail = 0 ∧ t.bc.head = 0 ∧ t.bc.headSync = 0 ∧ t.bc.tailSync = 0 ∧
    t.cc.tail = 0 ∧ t.cc.head = 0 ∧ t.cc.headSync = 0 ∧ t.cc.tailSync = 0 ∧
    (∀ i, t.bc.mem.get i = none) ∧ (∀ i, t.cc.mem.get i = none) ∧
    t.p = ⟨.idle, 0⟩ ∧ t.stp = ⟨s.cfg.initDirection, s.cfg.initSpeed, false, 0⟩ ∧ t.pin = ⟨none, none⟩ ∧
    exec (.servoNew s.cfg.dutyAtZero s.cfg.maxAngle) s = .next { s with srv := t.srv } ∧
    t.pwm = none ∧ t.flg = ⟨false, false⟩ ∧ t.trace = [] ∧
    t.evt = .waiting ∧ t.rx = [] ∧ t.par = none ∧ t.ctl = .top
end

