-- ==== Sys2Proof/Laws/CommandWord.lean ====
section
/-! SUPPORT. Command words (30_encoding.md R80 to R82): the two fields of a word, and the round trip. -/

namespace Sys2Proof

@[simp] theorem wordTag_mkWord (g : BitVec 2) (x : U32) : wordTag (mkWord g x) = g := by
  unfold wordTag mkWord
  ext i hi
  rw [BitVec.getElem_extractLsb', BitVec.getLsbD_append, if_neg (by omega), Nat.add_sub_cancel_left,
    BitVec.getLsbD_eq_getElem]

@[simp] theorem wordPayload_mkWord (g : BitVec 2) (x : U32) : wordPayload (mkWord g x) = x := by
  unfold wordPayload mkWord
  ext i hi
  rw [BitVec.getElem_extractLsb', BitVec.getLsbD_append, if_pos (by omega), Nat.zero_add,
    BitVec.getLsbD_eq_getElem]

theorem setWidth_16_32 (a : U16) : (BitVec.setWidth 32 a).toNat = a.toNat := by
  have : a.toNat < 65536 := a.isLt
  rw [BitVec.toNat_setWidth]
  exact Nat.mod_eq_of_lt (by omega)

/-- A Command's word decodes to it. -/
theorem commandOfWord_wordOfCommand (c : Command) : commandOfWord (wordOfCommand c) = some c := by
  cases c with
  | setSpeed v => simp [commandOfWord, wordOfCommand]
  | setDirection d => cases d <;> simp [commandOfWord, wordOfCommand] <;> decide
  | setServoAngle a =>
    have ha : a.toNat < 65536 := a.isLt
    unfold commandOfWord wordOfCommand
    rw [wordTag_mkWord, wordPayload_mkWord, if_neg (by decide), if_neg (by decide), if_pos rfl, setWidth_16_32,
      if_pos ha]
    congr 2
    exact BitVec.eq_of_toNat_eq (by rw [BitVec.toNat_setWidth, setWidth_16_32]; exact Nat.mod_eq_of_lt ha)

/-- A Command's word is well-formed: the parser produces no other (30_encoding.md R82). -/
theorem wordOk_wordOfCommand (c : Command) : wordOk (wordOfCommand c) = true := by
  unfold wordOk
  rw [commandOfWord_wordOfCommand]
  rfl

theorem mkWord_fields (w : CmdWord) : mkWord (wordTag w) (wordPayload w) = w := by
  refine BitVec.eq_of_getLsbD_eq fun i hi => ?_
  unfold mkWord wordTag wordPayload
  rw [BitVec.getLsbD_append]
  simp only [BitVec.getLsbD_extractLsb']
  split
  · simp_all
  · rename_i h
    have e : 32 + (i - 32) = i := by omega
    have : decide (i - 32 < 2) = true := by simp; omega
    rw [e, this, Bool.true_and]

theorem setWidth_32_16 (x : U32) (h : x.toNat < 65536) : BitVec.setWidth 32 (BitVec.setWidth 16 x) = x := by
  apply BitVec.eq_of_toNat_eq
  simp only [BitVec.toNat_setWidth]
  omega

theorem setWidth_32_2 (x : U32) (h : x.toNat < 4) : BitVec.setWidth 32 (BitVec.setWidth 2 x) = x := by
  apply BitVec.eq_of_toNat_eq
  simp only [BitVec.toNat_setWidth]
  omega

theorem directionCode_of {c : BitVec 2} {d : Direction} (h : directionOfCode c = some d) : directionCode d = c := by
  unfold directionOfCode at h
  split_ifs at h <;> cases h <;> simp_all [directionCode]

/-- A well-formed word is the word of the Command it decodes to. -/
theorem wordOfCommand_of {w : CmdWord} {c : Command} (h : commandOfWord w = some c) : wordOfCommand c = w := by
  conv_rhs => rw [← mkWord_fields w]
  unfold commandOfWord at h
  split_ifs at h with h0 h1 h4 h2 h6
  · cases h
    rw [h0]
    rfl
  · obtain ⟨d, hd, rfl⟩ := Option.map_eq_some_iff.mp h
    rw [h1, wordOfCommand, directionCode_of hd, setWidth_32_2 _ h4]
  · cases h
    rw [h2, wordOfCommand, setWidth_32_16 _ h6]
end Sys2Proof
end

