-- ==== Sys2Proof/Laws/Decode.lean ====
section
/-! SUPPORT. The decoder and the encoder on bytes of the wire: the byte tables undo each other, and everything the
payload decoder can answer. -/

namespace Sys2Proof

theorem leadOf_leadByte (p : Lead) : leadOf (leadByte p) = some p := by
  cases p <;> rfl

theorem eq_leadByte {b : Byte} {p : Lead} (h : leadOf b = some p) : b = leadByte p := by
  unfold leadOf at h
  split_ifs at h <;> cases h <;> assumption

theorem directionOf_directionByte (d : Direction) : directionOf (directionByte d) = some d := by
  cases d <;> rfl

theorem eq_directionByte {b : Byte} {d : Direction} (h : directionOf b = some d) : b = directionByte d := by
  unfold directionOf at h
  split_ifs at h <;> cases h <;> assumption

theorem directionOfCode_directionCode (d : Direction) : directionOfCode (directionCode d) = some d := by
  cases d <;> rfl

theorem isDigit_digitByte : ∀ d : BitVec 4, digitOk d = true → isDigit (digitByte d) = true := by
  decide

theorem digitNibble_digitByte : ∀ d : BitVec 4, digitNibble (digitByte d) = d := by
  decide

theorem digitVal_digitByte : ∀ d : BitVec 4, digitVal (digitByte d) = d.toNat := by
  decide

theorem digitOk_digitNibble : ∀ b : Byte, isDigit b = true → digitOk (digitNibble b) = true := by
  decide

theorem digitByte_digitNibble : ∀ b : Byte, isDigit b = true → digitByte (digitNibble b) = b := by
  decide

theorem digitOk_iff (d : BitVec 4) : digitOk d = true ↔ d.toNat ≤ 9 := by
  simp [digitOk, BitVec.le_def]

theorem isDigit_iff (b : Byte) : isDigit b = true ↔ 0x30 ≤ b.toNat ∧ b.toNat ≤ 0x39 := by
  simp [isDigit, BitVec.le_def]

/-- What the payload decoder answers on the bytes after the digits already taken: the attempt is incomplete, malformed
or whole, and what it consumed is the digits, and the byte that is none. -/
inductive DigitsAnswer (p : Lead) (whole : BitVec 4 → BitVec 4 → BitVec 4 → Instr) (taken : List (BitVec 4))
    (bs : List Byte) : Instr × List Byte → Prop where
  | incomplete (more : List (BitVec 4)) (hl : taken.length + more.length ≤ 2) (hd : more.all digitOk = true)
      (hb : bs = more.map digitByte) : DigitsAnswer p whole taken bs (.incomplete p (taken ++ more), [])
  | malformed (more : List (BitVec 4)) (b : Byte) (rest : List Byte) (hl : taken.length + more.length ≤ 2)
      (hd : more.all digitOk = true) (hn : isDigit b = false) (hb : bs = more.map digitByte ++ b :: rest) :
      DigitsAnswer p whole taken bs (.malformed p (taken ++ more) b, rest)
  | whole (d0 d1 d2 : BitVec 4) (more : List (BitVec 4)) (rest : List Byte) (ht : taken ++ more = [d0, d1, d2])
      (hd : more.all digitOk = true) (hb : bs = more.map digitByte ++ rest) :
      DigitsAnswer p whole taken bs (whole d0 d1 d2, rest)

/-- One more digit taken. -/
theorem DigitsAnswer.cons {p : Lead} {whole : BitVec 4 → BitVec 4 → BitVec 4 → Instr} {taken : List (BitVec 4)}
    {b : Byte} {bs : List Byte} {o : Instr × List Byte} (hb : isDigit b = true)
    (h : DigitsAnswer p whole (taken ++ [digitNibble b]) bs o) : DigitsAnswer p whole taken (b :: bs) o := by
  have hok := digitOk_digitNibble b hb
  have hbn := digitByte_digitNibble b hb
  cases h with
  | incomplete more hl hd he =>
    rw [List.append_assoc, List.singleton_append]
    refine .incomplete _ ?_ (by rw [List.all_cons, hok, hd]; rfl) (by rw [List.map_cons, hbn, he])
    simp only [List.length_append, List.length_cons, List.length_nil] at *
    omega
  | malformed more c rest hl hd hn he =>
    rw [List.append_assoc, List.singleton_append]
    refine .malformed _ _ _ ?_ (by rw [List.all_cons, hok, hd]; rfl) hn (by rw [List.map_cons, hbn, he]; rfl)
    simp only [List.length_append, List.length_cons, List.length_nil] at *
    omega
  | whole d0 d1 d2 more rest ht hd he =>
    rw [List.append_assoc, List.singleton_append] at ht
    exact .whole _ _ _ _ _ ht (by rw [List.all_cons, hok, hd]; rfl) (by rw [List.map_cons, hbn, he]; rfl)

theorem decodeDigits_answer (p : Lead) (whole : BitVec 4 → BitVec 4 → BitVec 4 → Instr) (bs : List Byte) :
    ∀ taken : List (BitVec 4), taken.length ≤ 2 → DigitsAnswer p whole taken bs (decodeDigits p whole taken bs) := by
  induction bs with
  | nil =>
    intro taken h
    simpa [decodeDigits] using DigitsAnswer.incomplete (p := p) (whole := whole) (taken := taken) [] (by simpa) rfl rfl
  | cons b bs ih =>
    intro taken h
    unfold decodeDigits
    by_cases hb : isDigit b = true
    · rw [if_pos hb]
      split
      · exact .whole _ _ _ [digitNibble b] bs rfl (by simp [digitOk_digitNibble b hb])
          (by simp [digitByte_digitNibble b hb])
      · rename_i hne
        refine DigitsAnswer.cons hb (ih _ ?_)
        match taken, h, hne with
        | [], _, _ => simp
        | [_], _, _ => simp
        | [d0, d1], _, hne => exact absurd rfl (hne d0 d1)
    · rw [if_neg hb]
      simpa using DigitsAnswer.malformed (p := p) (whole := whole) (taken := taken) [] b bs (by simpa) rfl
        (by simpa using hb) rfl

/-- The digits of an instruction that is whole are decoded back, whatever follows. -/
theorem decodeDigits_whole (p : Lead) (whole : BitVec 4 → BitVec 4 → BitVec 4 → Instr) (d0 d1 d2 : BitVec 4)
    (rest : List Byte) (h0 : digitOk d0 = true) (h1 : digitOk d1 = true) (h2 : digitOk d2 = true) :
    decodeDigits p whole [] (digitByte d0 :: digitByte d1 :: digitByte d2 :: rest) = (whole d0 d1 d2, rest) := by
  simp [decodeDigits, isDigit_digitByte, digitNibble_digitByte, h0, h1, h2]

@[simp] theorem opCode_opWord (c : BitVec 4) (v : Nat) : opCode (opWord c v) = c := by
  unfold opCode opWord
  ext i hi
  rw [BitVec.getElem_extractLsb', BitVec.getLsbD_append, if_pos (by omega), Nat.zero_add, BitVec.getLsbD_eq_getElem]

@[simp] theorem opOperand_opWord (c : BitVec 4) (v : Nat) : opOperand (opWord c v) = BitVec.ofNat 34 v := by
  unfold opOperand opWord
  ext i hi
  rw [BitVec.getElem_extractLsb', BitVec.getLsbD_append, if_neg (by omega), Nat.add_sub_cancel_left,
    BitVec.getLsbD_eq_getElem]

/-- A port operation's word is its operand above its code. -/
theorem opWord_fields (w : BitVec 38) : opWord (opCode w) (opOperand w).toNat = w := by
  unfold opWord
  rw [BitVec.ofNat_toNat, BitVec.setWidth_eq]
  refine BitVec.eq_of_getLsbD_eq fun i hi => ?_
  unfold opCode opOperand
  rw [BitVec.getLsbD_append]
  simp only [BitVec.getLsbD_extractLsb']
  split
  · simp_all
  · have e : 4 + (i - 4) = i := by omega
    have : decide (i - 4 < 34) = true := by
      rw [decide_eq_true_iff]
      omega
    rw [e, this, Bool.true_and]

end Sys2Proof
end

