-- ==== Sys2Proof/Laws/Memory.lean ====
section
/-! SUPPORT. Slot storage: read after write, and the canonical form, which every write keeps. -/

namespace Sys2Proof.Machine

namespace Memory

variable {α : Type}

@[simp] theorem get_nil (i : Nat) : Memory.get ([] : Memory α) i = none := rfl

theorem get_set_same (m : Memory α) (i : Nat) (v : α) : Memory.get (Memory.set m i v) i = some v := by
  induction m with
  | nil => simp [Memory.set, Memory.get]
  | cons c m ih =>
    obtain ⟨j, w⟩ := c
    simp only [Memory.set]
    split
    · simp [Memory.get]
    · split
      · simp [Memory.get]
      · rename_i h
        simp [Memory.get, h, ih]

theorem get_set_ne (m : Memory α) (i k : Nat) (v : α) (h : k ≠ i) :
    Memory.get (Memory.set m i v) k = Memory.get m k := by
  induction m with
  | nil => simp [Memory.set, Memory.get, h]
  | cons c m ih =>
    obtain ⟨j, w⟩ := c
    simp only [Memory.set]
    split
    · simp [Memory.get, h]
    · split
      · rename_i hij
        simp [Memory.get, h, ← hij]
      · simp [Memory.get, ih]

theorem get_set (m : Memory α) (i k : Nat) (v : α) :
    Memory.get (Memory.set m i v) k = if k = i then some v else Memory.get m k := by
  split
  · rename_i h
    rw [h, get_set_same]
  · exact get_set_ne m i k v ‹_›

/-- A cell of the storage after a write is the written one or one of before. -/
theorem mem_set (m : Memory α) (i : Nat) (v : α) (c : Nat × α) (h : c ∈ Memory.set m i v) :
    c = (i, v) ∨ c ∈ m := by
  induction m with
  | nil => simpa [Memory.set] using h
  | cons d m ih =>
    obtain ⟨j, w⟩ := d
    simp only [Memory.set] at h
    split at h
    · simpa using h
    · split at h
      · simp only [List.mem_cons] at h ⊢
        tauto
      · simp only [List.mem_cons] at h ⊢
        rcases h with h | h
        · exact .inr (.inl h)
        · rcases ih h with h | h
          · exact .inl h
          · exact .inr (.inr h)

theorem mem_of_get (m : Memory α) (i : Nat) (v : α) (h : Memory.get m i = some v) : (i, v) ∈ m := by
  induction m with
  | nil => simp at h
  | cons c m ih =>
    obtain ⟨j, w⟩ := c
    simp only [Memory.get] at h
    split at h
    · rename_i hij
      cases h
      simp [hij]
    · exact List.mem_cons_of_mem _ (ih h)

theorem wf_tail (c : Nat × α) (m : Memory α) (h : Memory.wf (c :: m) = true) : Memory.wf m = true := by
  cases m with
  | nil => rfl
  | cons d m =>
    obtain ⟨i, v⟩ := c
    obtain ⟨j, w⟩ := d
    simp only [Memory.wf, Bool.and_eq_true] at h
    exact h.2

theorem wf_cons (i : Nat) (v : α) (m : Memory α) (hm : Memory.wf m = true) (h : ∀ c ∈ m, i < c.1) :
    Memory.wf ((i, v) :: m) = true := by
  cases m with
  | nil => rfl
  | cons d m =>
    obtain ⟨j, w⟩ := d
    simp only [Memory.wf, Bool.and_eq_true, decide_eq_true_eq]
    exact ⟨h _ (List.mem_cons_self ..), hm⟩

theorem wf_head_lt (i : Nat) (v : α) (m : Memory α) (h : Memory.wf ((i, v) :: m) = true) : ∀ c ∈ m, i < c.1 := by
  induction m generalizing i v with
  | nil => simp
  | cons d m ih =>
    obtain ⟨j, w⟩ := d
    simp only [Memory.wf, Bool.and_eq_true, decide_eq_true_eq] at h
    intro c hc
    rcases List.mem_cons.mp hc with rfl | hc
    · exact h.1
    · exact lt_trans h.1 (ih j w h.2 c hc)

/-- A write keeps the canonical form. -/
theorem wf_set (m : Memory α) (i : Nat) (v : α) (h : Memory.wf m = true) : Memory.wf (Memory.set m i v) = true := by
  induction m with
  | nil => rfl
  | cons c m ih =>
    obtain ⟨j, w⟩ := c
    have ht := wf_tail _ _ h
    have hlt := wf_head_lt _ _ _ h
    simp only [Memory.set]
    split
    · rename_i hij
      refine wf_cons _ _ _ h ?_
      intro c hc
      rcases List.mem_cons.mp hc with rfl | hc
      · exact hij
      · exact lt_trans hij (hlt c hc)
    · split
      · rename_i hij
        subst hij
        exact wf_cons _ _ _ ht hlt
      · rename_i h1 h2
        refine wf_cons _ _ _ (ih ht) ?_
        intro c hc
        rcases mem_set _ _ _ _ hc with rfl | hc
        · show j < i
          omega
        · exact hlt c hc

end Memory

end Sys2Proof.Machine
end

