-- ==== Sys2Proof/Laws/Pointer.lean ====
section
/-! SUPPORT. Pointer arithmetic modulo `2N`, pushed down to comparisons that omega decides. -/

namespace Sys2Proof

theorem ptrSub_eq (n a b : Nat) (ha : a < 2 * n) (hb : b < 2 * n) :
    ptrSub n a b = if b ≤ a then a - b else a + 2 * n - b := by
  unfold ptrSub
  rw [Nat.mod_eq_of_lt hb]
  split
  · rw [show a + (2 * n - b) = (a - b) + 2 * n by omega, Nat.add_mod_right, Nat.mod_eq_of_lt (by omega)]
  · rw [Nat.mod_eq_of_lt (by omega)]
    omega

theorem ptrSub_lt (n a b : Nat) (hn : 0 < n) : ptrSub n a b < 2 * n := Nat.mod_lt _ (by omega)

theorem ptrNext_eq (n a : Nat) (ha : a < 2 * n) : ptrNext n a = if a + 1 = 2 * n then 0 else a + 1 := by
  unfold ptrNext
  split
  · rename_i h
    rw [h, Nat.mod_self]
  · exact Nat.mod_eq_of_lt (by omega)

theorem ptrNext_lt (n a : Nat) (hn : 0 < n) : ptrNext n a < 2 * n := Nat.mod_lt _ (by omega)

@[simp] theorem ptrSub_self (n a : Nat) (ha : a < 2 * n) : ptrSub n a a = 0 := by
  rw [ptrSub_eq n a a ha ha]
  simp

/-- The slot of the next pointer. -/
theorem ptrNext_mod (n a : Nat) : ptrNext n a % n = (a + 1) % n :=
  Nat.mod_mod_of_dvd _ (Dvd.intro_left 2 rfl)

theorem ptrNext_add_mod (n a k : Nat) : (ptrNext n a + k) % n = (a + (k + 1)) % n := by
  rw [Nat.add_mod, ptrNext_mod, ← Nat.add_mod]
  congr 1
  omega

/-- The slot of a pointer `a` is `ptrSub n a b` slots after that of `b`. -/
theorem ptr_mod_of_sub (n a b : Nat) (ha : a < 2 * n) (hb : b < 2 * n) : a % n = (b + ptrSub n a b) % n := by
  rw [ptrSub_eq n a b ha hb]
  split
  · congr 1
    omega
  · rw [show b + (a + 2 * n - b) = a + n + n by omega, Nat.add_mod_right, Nat.add_mod_right]

/-- Two slots less than `n` apart are different. -/
theorem slot_ne (n h j k : Nat) (hjk : j < k) (hk : k < j + n) : (h + j) % n ≠ (h + k) % n := by
  intro e
  have h1 : (h + j) ≡ (h + k) [MOD n] := e
  have h2 : j ≡ k [MOD n] := Nat.ModEq.add_left_cancel' h h1
  have h3 : n ∣ k - j := (Nat.modEq_iff_dvd' (le_of_lt hjk)).mp h2
  have := Nat.le_of_dvd (by omega) h3
  omega

end Sys2Proof
end

