-- ==== Sys2Proof/Laws/Ring.lean ====
section
/-! SUPPORT. What enqueue, dequeue and the synchroniser do to a ring that meets its invariant: the invariant is kept,
and the contents (10_state.md R13) move as a queue. -/

namespace Sys2Proof.Machine

namespace Ring

variable {α : Type} {n : Nat} {r r' : Ring α}

theorem Inv.pos (h : r.Inv n) : 0 < n := by
  have := h.tail_lt
  omega

/-- `len` is the consumer's count plus what it does not see yet. -/
theorem Inv.len_eq (h : r.Inv n) : r.len n = r.seen n + ptrSub n r.tail r.tailSync := by
  have h1 := h.tail_lt
  have h2 := h.head_lt
  have h3 := h.tailSync_lt
  have ho := h.order
  have h4 := h.headSync_lt
  unfold Ring.len Ring.seen at *
  simp only [ptrSub_eq n _ _ h1 h2, ptrSub_eq n _ _ h3 h2, ptrSub_eq n _ _ h1 h3, ptrSub_eq n _ _ h2 h4] at *
  split_ifs at * <;> omega

/-- What the producer believes is occupied. -/
theorem Inv.believed_eq (h : r.Inv n) :
    ptrSub n r.tail r.headSync = ptrSub n r.head r.headSync + r.len n := by
  have h1 := h.tail_lt
  have h2 := h.head_lt
  have h3 := h.tailSync_lt
  have ho := h.order
  have h4 := h.headSync_lt
  unfold Ring.len Ring.seen at *
  simp only [ptrSub_eq n _ _ h1 h2, ptrSub_eq n _ _ h3 h2, ptrSub_eq n _ _ h1 h3, ptrSub_eq n _ _ h2 h4,
    ptrSub_eq n _ _ h1 h4] at *
  split_ifs at * <;> omega

theorem Inv.len_le (h : r.Inv n) : r.len n ≤ n := by
  have := h.order
  have := h.len_eq
  omega

theorem Inv.seen_le (h : r.Inv n) : r.seen n ≤ r.len n := by
  have := h.len_eq
  omega

/-- Inside the contents a slot is live. -/
theorem live_item (hn : 0 < n) (hl : r.len n ≤ n) (k : Nat) (hk : k < r.len n) :
    r.live n ((r.head + k) % n) = true := by
  unfold Ring.live
  have e : ((r.head + k) % n + (n - r.head % n)) % n = k := by
    have hlt := Nat.mod_lt r.head hn
    have hd := Nat.mod_add_div r.head n
    rw [Nat.mod_add_mod, show r.head + k + (n - r.head % n) = k + n + n * (r.head / n) by omega,
      Nat.add_mul_mod_self_left, Nat.add_mod_right, Nat.mod_eq_of_lt (by omega)]
  rw [e]
  exact decide_eq_true hk

/-- A read inside the contents is a read of the storage. -/
theorem Inv.read_item (h : r.Inv n) (k : Nat) (hk : k < r.len n) :
    r.read n ((r.head + k) % n) = r.mem.get ((r.head + k) % n) := by
  unfold Ring.read
  rw [live_item h.pos h.len_le k hk, if_pos rfl]

/-- Inside the contents every read answers an item. -/
theorem Inv.read_some (h : r.Inv n) (k : Nat) (hk : k < r.len n) :
    ∃ v, r.read n ((r.head + k) % n) = some v := by
  rw [h.read_item k hk]
  exact Option.isSome_iff_exists.mp (h.filled k hk)

theorem filterMap_range_succ (f : Nat → Option α) (k : Nat) :
    (List.range (k + 1)).filterMap f = (List.range k).filterMap f ++ (f k).toList := by
  rw [List.range_succ, List.filterMap_append]
  cases hf : f k <;> simp [hf]

theorem filterMap_range_cons (f : Nat → Option α) (k : Nat) :
    (List.range (k + 1)).filterMap f = (f 0).toList ++ (List.range k).filterMap (fun j => f (j + 1)) := by
  rw [List.range_succ_eq_map, List.filterMap_cons, List.filterMap_map]
  cases hf : f 0 <;> simp

/-- The first items of the contents, read from the storage. -/
theorem Inv.items_eq (h : r.Inv n) (k : Nat) (hk : k ≤ r.len n) :
    r.items n k = (List.range k).filterMap (fun j => r.mem.get ((r.head + j) % n)) := by
  unfold Ring.items
  refine List.filterMap_congr ?_
  intro j hj
  exact h.read_item j (lt_of_lt_of_le (List.mem_range.mp hj) hk)

theorem Inv.items_length (h : r.Inv n) (k : Nat) (hk : k ≤ r.len n) : (r.items n k).length = k := by
  induction k with
  | zero => rfl
  | succ k ih =>
    obtain ⟨v, hv⟩ := h.read_some k (by omega)
    unfold Ring.items at ih ⊢
    rw [filterMap_range_succ, List.length_append, ih (by omega), hv]
    rfl

theorem Inv.contents_length (h : r.Inv n) : (r.contents n).length = r.len n := h.items_length _ le_rfl

theorem Inv.visible_length (h : r.Inv n) : (r.visible n).length = r.seen n := h.items_length _ h.seen_le

theorem Inv.items_take (h : r.Inv n) (j k : Nat) (hjk : j ≤ k) (hk : k ≤ r.len n) :
    r.items n j = (r.items n k).take j := by
  induction k with
  | zero =>
    obtain rfl : j = 0 := by omega
    rfl
  | succ k ih =>
    obtain ⟨v, hv⟩ := h.read_some k (by omega)
    have e : r.items n (k + 1) = r.items n k ++ [v] := by
      unfold Ring.items
      rw [filterMap_range_succ, hv]
      rfl
    have hl := h.items_length k (by omega)
    rcases Nat.lt_or_ge k j with hj | hj
    · obtain rfl : j = k + 1 := by omega
      rw [List.take_of_length_le (by rw [h.items_length _ hk])]
    · rw [ih hj (by omega), e, List.take_append_of_le_length (by omega)]

/-- The consumer sees a front part of the contents. -/
theorem Inv.visible_eq_take (h : r.Inv n) : r.visible n = (r.contents n).take (r.seen n) :=
  h.items_take _ _ h.seen_le le_rfl

/-! ## Enqueue -/

theorem enq_some (exact : Bool) (x : α) (h : r.enq n exact x = some r') :
    r.fullP n = false ∧ r' =
      { r with
        mem := r.mem.set (r.tail % n) x
        tail := ptrNext n r.tail
        tailSync := if exact then ptrNext n r.tail else r.tailSync } := by
  unfold Ring.enq at h
  split at h
  · cases h
  · rename_i hf
    cases h
    exact ⟨by simpa using hf, rfl⟩

theorem enq_none (exact : Bool) (x : α) : r.enq n exact x = none ↔ r.fullP n = true := by
  unfold Ring.enq
  split <;> simp_all

theorem Inv.not_full (h : r.Inv n) (hf : r.fullP n = false) :
    ptrSub n r.head r.headSync + r.len n < n := by
  have hb := h.believed_eq
  have ho := h.order
  have hl := h.len_eq
  have : ptrSub n r.tail r.headSync ≠ n := by simpa [Ring.fullP] using hf
  omega

/-- An accepted enqueue makes the contents one longer. -/
theorem Inv.enq_len (h : r.Inv n) (exact : Bool) (x : α) (he : r.enq n exact x = some r') :
    r'.len n = r.len n + 1 := by
  obtain ⟨hf, rfl⟩ := enq_some exact x he
  have hnf := h.not_full hf
  have h1 := h.tail_lt
  have h2 := h.head_lt
  have hn := h.pos
  show ptrSub n (ptrNext n r.tail) r.head = ptrSub n r.tail r.head + 1
  unfold Ring.len at hnf
  rw [ptrSub_eq n _ _ (ptrNext_lt n _ hn) h2, ptrNext_eq n _ h1]
  rw [ptrSub_eq n _ _ h1 h2] at *
  split_ifs at * <;> omega

theorem Inv.enq (h : r.Inv n) (exact : Bool) (x : α)
    (he : r.enq n exact x = some r') : r'.Inv n := by
  have hlen := h.enq_len exact x he
  obtain ⟨hf, rfl⟩ := enq_some exact x he
  have hnf := h.not_full hf
  have hn := h.pos
  have h1 := h.tail_lt
  have h2 := h.head_lt
  have h3 := h.tailSync_lt
  have h4 := h.headSync_lt
  have hne := ptrNext_lt n r.tail hn
  refine
    { mem_wf := Memory.wf_set _ _ _ h.mem_wf
      slots_lt := ?_
      tail_lt := hne
      head_lt := h2
      headSync_lt := h4
      tailSync_lt := ?_
      order := ?_
      filled := ?_ }
  · intro c hc
    rcases Memory.mem_set _ _ _ _ hc with rfl | hc
    · exact Nat.mod_lt _ hn
    · exact h.slots_lt c hc
  · show (if exact = true then _ else _) < _
    split <;> assumption
  · show ptrSub n r.head r.headSync + ptrSub n (if exact = true then ptrNext n r.tail else r.tailSync) r.head +
      ptrSub n (ptrNext n r.tail) (if exact = true then ptrNext n r.tail else r.tailSync) ≤ n
    have hlen' : ptrSub n (ptrNext n r.tail) r.head = ptrSub n r.tail r.head + 1 := hlen
    unfold Ring.len at hnf
    have ho := h.order
    have hle := h.len_eq
    unfold Ring.len Ring.seen at *
    split
    · rw [ptrSub_self n _ hne, hlen']
      omega
    · have : ptrSub n (ptrNext n r.tail) r.tailSync = ptrSub n r.tail r.tailSync + 1 := by
        rw [ptrSub_eq n _ _ hne h3, ptrNext_eq n _ h1]
        rw [ptrSub_eq n _ _ h1 h3] at *
        split_ifs at * <;> omega
      rw [this]
      omega
  · intro k hk
    rw [hlen] at hk
    show (Memory.get (r.mem.set (r.tail % n) x) ((r.head + k) % n)).isSome = true
    rw [Memory.get_set]
    split
    · rfl
    · rename_i hne'
      refine h.filled k ?_
      by_contra hc
      obtain rfl : k = r.len n := by omega
      exact hne' (ptr_mod_of_sub n _ _ h1 h2).symm

/-- An accepted enqueue appends its item to the contents (40_channel_ops.md R101; 20_memory.md R54 O1). -/
theorem Inv.enq_contents (h : r.Inv n) (exact : Bool) (x : α)
    (he : r.enq n exact x = some r') : r'.contents n = r.contents n ++ [x] := by
  have hlen := h.enq_len exact x he
  have h' := h.enq exact x he
  obtain ⟨hf, rfl⟩ := enq_some exact x he
  have hnf := h.not_full hf
  have hslot : (r.head + r.len n) % n = r.tail % n := (ptr_mod_of_sub n _ _ h.tail_lt h.head_lt).symm
  unfold Ring.contents
  rw [h'.items_eq _ le_rfl, h.items_eq _ le_rfl, hlen, filterMap_range_succ]
  congr 1
  · refine List.filterMap_congr ?_
    intro j hj
    have hj := List.mem_range.mp hj
    refine Memory.get_set_ne _ _ _ _ ?_
    rw [← hslot]
    exact slot_ne n _ _ _ hj (by omega)
  · show (Memory.get (r.mem.set (r.tail % n) x) ((r.head + r.len n) % n)).toList = [x]
    rw [hslot, Memory.get_set_same]
    rfl

/-! ## Dequeue -/

theorem Inv.emptyC_iff (h : r.Inv n) : r.emptyC = true ↔ r.seen n = 0 := by
  have h2 := h.head_lt
  have h3 := h.tailSync_lt
  unfold Ring.emptyC Ring.seen
  rw [ptrSub_eq n _ _ h3 h2, decide_eq_true_iff]
  split_ifs <;> omega

/-- A dequeue under the invariant: `None` where nothing is seen, else the oldest item, and never a slot without a value
(20_memory.md R43). -/
theorem Inv.deq_cases (h : r.Inv n) (exact : Bool) :
    (r.seen n = 0 ∧ r.deq n exact = .nothing) ∨
      ∃ v, 0 < r.seen n ∧ r.read n (r.head % n) = some v ∧
        r.deq n exact = .item v
          { r with head := ptrNext n r.head, headSync := if exact then ptrNext n r.head else r.headSync } := by
  unfold Ring.deq
  rcases Nat.eq_zero_or_pos (r.seen n) with h0 | h0
  · exact .inl ⟨h0, by rw [if_pos (h.emptyC_iff.mpr h0)]⟩
  · right
    have hl := h.seen_le
    obtain ⟨v, hv⟩ := h.read_some 0 (by omega)
    rw [Nat.add_zero] at hv
    refine ⟨v, h0, hv, ?_⟩
    rw [if_neg (fun hc => by have := h.emptyC_iff.mp hc; omega), hv]

theorem deq_item (exact : Bool) (v : α) (h : r.deq n exact = .item v r') :
    r.emptyC = false ∧ r.read n (r.head % n) = some v ∧
      r' = { r with head := ptrNext n r.head, headSync := if exact then ptrNext n r.head else r.headSync } := by
  unfold Ring.deq at h
  split at h
  · cases h
  · split at h
    · cases h
    · cases h
      exact ⟨Bool.eq_false_iff.mpr ‹_›, ‹_›, rfl⟩

/-- A dequeued item: one less in the contents and in what is seen. -/
theorem Inv.deq_counts (h : r.Inv n) (exact : Bool) (v : α) (he : r.deq n exact = .item v r') :
    r.len n = r'.len n + 1 ∧ r.seen n = r'.seen n + 1 := by
  obtain ⟨hem, -, rfl⟩ := deq_item exact v he
  have hseen : 0 < r.seen n := by
    rcases Nat.eq_zero_or_pos (r.seen n) with h0 | h0
    · rw [h.emptyC_iff.mpr h0] at hem
      cases hem
    · exact h0
  have hl := h.len_eq
  have hlen := h.len_le
  have h1 := h.tail_lt
  have h2 := h.head_lt
  have h3 := h.tailSync_lt
  have hn := h.pos
  have hne := ptrNext_lt n r.head hn
  unfold Ring.len Ring.seen at *
  show ptrSub n r.tail r.head = ptrSub n r.tail (ptrNext n r.head) + 1 ∧
    ptrSub n r.tailSync r.head = ptrSub n r.tailSync (ptrNext n r.head) + 1
  rw [ptrSub_eq n _ _ h1 hne, ptrSub_eq n _ _ h3 hne, ptrNext_eq n _ h2]
  rw [ptrSub_eq n _ _ h1 h2, ptrSub_eq n _ _ h3 h2] at *
  split_ifs at * <;> omega

theorem Inv.deq (h : r.Inv n) (exact : Bool) (v : α)
    (he : r.deq n exact = .item v r') : r'.Inv n := by
  obtain ⟨hlen, hseen⟩ := h.deq_counts exact v he
  obtain ⟨hem, -, rfl⟩ := deq_item exact v he
  have hn := h.pos
  have h2 := h.head_lt
  have h4 := h.headSync_lt
  have hne := ptrNext_lt n r.head hn
  have ho := h.order
  refine
    { mem_wf := h.mem_wf
      slots_lt := h.slots_lt
      tail_lt := h.tail_lt
      head_lt := hne
      headSync_lt := ?_
      tailSync_lt := h.tailSync_lt
      order := ?_
      filled := ?_ }
  · show (if exact = true then _ else _) < _
    split <;> assumption
  · have hseen' : r.seen n = ptrSub n r.tailSync (ptrNext n r.head) + 1 := hseen
    show ptrSub n (ptrNext n r.head) (if exact = true then ptrNext n r.head else r.headSync) +
      ptrSub n r.tailSync (ptrNext n r.head) + ptrSub n r.tail r.tailSync ≤ n
    split
    · rw [ptrSub_self n _ hne]
      omega
    · have : ptrSub n (ptrNext n r.head) r.headSync = ptrSub n r.head r.headSync + 1 := by
        rw [ptrSub_eq n _ _ hne h4, ptrNext_eq n _ h2]
        rw [ptrSub_eq n _ _ h2 h4] at *
        split_ifs at * <;> omega
      omega
  · intro k hk
    show (Memory.get r.mem ((ptrNext n r.head + k) % n)).isSome = true
    rw [ptrNext_add_mod]
    exact h.filled (k + 1) (by omega)

/-- A dequeue takes the oldest item off the first items. -/
theorem Inv.deq_items (h : r.Inv n) (exact : Bool) (v : α)
    (he : r.deq n exact = .item v r') (k : Nat) (hk : k + 1 ≤ r.len n) : r.items n (k + 1) = v :: r'.items n k := by
  have h' := h.deq exact v he
  obtain ⟨hlen, hseen⟩ := h.deq_counts exact v he
  rw [h.items_eq _ hk, h'.items_eq _ (by omega), filterMap_range_cons]
  obtain ⟨hem, hread, rfl⟩ := deq_item exact v he
  have h0 := h.read_item 0 (by omega)
  rw [Nat.add_zero, hread] at h0
  simp only [Nat.add_zero, ← h0, Option.toList_some, List.singleton_append, List.cons.injEq, true_and]
  refine List.filterMap_congr ?_
  intro j _
  rw [ptrNext_add_mod]

theorem Inv.deq_contents (h : r.Inv n) (exact : Bool) (v : α)
    (he : r.deq n exact = .item v r') : r.contents n = v :: r'.contents n := by
  obtain ⟨hlen, -⟩ := h.deq_counts exact v he
  unfold Ring.contents
  rw [hlen]
  exact h.deq_items exact v he _ (by omega)

theorem Inv.deq_visible (h : r.Inv n) (exact : Bool) (v : α)
    (he : r.deq n exact = .item v r') : r.visible n = v :: r'.visible n := by
  obtain ⟨hlen, hseen⟩ := h.deq_counts exact v he
  have := h.seen_le
  unfold Ring.visible
  rw [hseen]
  exact h.deq_items exact v he _ (by omega)

/-- In `exact` mode the copies follow the pointers. -/
theorem enq_synced (x : α) (hs : r.Synced) (he : r.enq n true x = some r') : r'.Synced := by
  obtain ⟨-, rfl⟩ := enq_some true x he
  exact ⟨hs.1, rfl⟩

theorem deq_synced (v : α) (hs : r.Synced) (he : r.deq n true = .item v r') : r'.Synced := by
  obtain ⟨-, -, rfl⟩ := deq_item true v he
  exact ⟨rfl, hs.2⟩

/-! ## The synchroniser -/

theorem syncTail_some (v : Nat) (h : r.syncTail n v = some r') :
    v < 2 * n ∧ ptrSub n v r.tailSync ≤ ptrSub n r.tail r.tailSync ∧ r' = { r with tailSync := v } := by
  unfold Ring.syncTail at h
  split at h
  · rename_i hc
    cases h
    exact ⟨hc.1, hc.2, rfl⟩
  · cases h

theorem syncHead_some (v : Nat) (h : r.syncHead n v = some r') :
    v < 2 * n ∧ ptrSub n v r.headSync ≤ ptrSub n r.head r.headSync ∧ r' = { r with headSync := v } := by
  unfold Ring.syncHead at h
  split at h
  · rename_i hc
    cases h
    exact ⟨hc.1, hc.2, rfl⟩
  · cases h

theorem Inv.syncTail (h : r.Inv n) (v : Nat) (he : r.syncTail n v = some r') : r'.Inv n := by
  obtain ⟨hv, hle, rfl⟩ := syncTail_some v he
  refine
    { mem_wf := h.mem_wf, slots_lt := h.slots_lt, tail_lt := h.tail_lt, head_lt := h.head_lt
      headSync_lt := h.headSync_lt, tailSync_lt := hv, order := ?_, filled := h.filled }
  have h1 := h.tail_lt
  have h2 := h.head_lt
  have h3 := h.tailSync_lt
  have ho := h.order
  show ptrSub n r.head r.headSync + ptrSub n v r.head + ptrSub n r.tail v ≤ n
  unfold Ring.seen at ho
  generalize ptrSub n r.head r.headSync = g at *
  rw [ptrSub_eq n _ _ hv h3, ptrSub_eq n _ _ h1 h3] at hle
  rw [ptrSub_eq n _ _ h3 h2, ptrSub_eq n _ _ h1 h3] at ho
  rw [ptrSub_eq n _ _ hv h2, ptrSub_eq n _ _ h1 hv]
  split_ifs at * <;> omega

theorem Inv.syncHead (h : r.Inv n) (v : Nat) (he : r.syncHead n v = some r') : r'.Inv n := by
  obtain ⟨hv, hle, rfl⟩ := syncHead_some v he
  refine
    { mem_wf := h.mem_wf, slots_lt := h.slots_lt, tail_lt := h.tail_lt, head_lt := h.head_lt
      headSync_lt := hv, tailSync_lt := h.tailSync_lt, order := ?_, filled := h.filled }
  have h2 := h.head_lt
  have h4 := h.headSync_lt
  have ho := h.order
  show ptrSub n r.head v + r.seen n + ptrSub n r.tail r.tailSync ≤ n
  generalize r.seen n = g at *
  generalize ptrSub n r.tail r.tailSync = g' at *
  rw [ptrSub_eq n _ _ hv h4, ptrSub_eq n _ _ h2 h4] at hle
  rw [ptrSub_eq n _ _ h2 h4] at ho
  rw [ptrSub_eq n _ _ h2 hv]
  split_ifs at * <;> omega

/-- The empty ring of reset. -/
theorem empty_inv (hn : 0 < n) : (Ring.empty : Ring α).Inv n := by
  have z : ptrSub n 0 0 = 0 := ptrSub_self n 0 (by omega)
  refine
    { mem_wf := rfl, slots_lt := by simp [Ring.empty], tail_lt := ?_, head_lt := ?_, headSync_lt := ?_
      tailSync_lt := ?_, order := ?_, filled := ?_ }
  all_goals first
    | (show 0 < 2 * n; omega)
    | (show ptrSub n 0 0 + ptrSub n 0 0 + ptrSub n 0 0 ≤ n; omega)
    | (intro k hk; have hk : k < ptrSub n 0 0 := hk; omega)

end Ring

end Sys2Proof.Machine
end

