-- ==== Sys2Proof/Laws/Delivery.lean ====
section
/-! SUPPORT. Eventual delivery of one channel (20_memory.md R54 O5), from what each step does to it. -/

namespace Sys2Proof.Machine

variable {α : Type} {n : Nat}

/-- What one step of a run does to a channel: items leave at the front, as many as the read pointer advances; others may
be added at the end; and what the consumer saw it still sees, but for what left. -/
structure Ring.QueueStep (n : Nat) (r r' : Ring α) : Prop where
  inv : r'.Inv n
  moved : ∃ xs, r'.contents n = (r.contents n).drop (ptrSub n r'.head r.head) ++ xs
  le : ptrSub n r'.head r.head ≤ r.len n
  seen : r.seen n ≤ r'.seen n + ptrSub n r'.head r.head

section

variable {rings : Nat → Ring α}

theorem Ring.queueSteps_inv (h : (rings 0).Inv n) (hs : ∀ k, Ring.QueueStep n (rings k) (rings (k + 1))) :
    ∀ k, (rings k).Inv n
  | 0 => h
  | k + 1 => (hs k).inv

/-- What a channel held, and what was added since, is what was returned, and what it still holds. -/
theorem Ring.returned_append_contents (hs : ∀ k, Ring.QueueStep n (rings k) (rings (k + 1))) (k m : Nat) :
    ∃ added, Ring.returned n rings k m ++ (rings (k + m)).contents n = (rings k).contents n ++ added := by
  induction m with
  | zero => exact ⟨[], by rw [List.append_nil]; rfl⟩
  | succ m ih =>
    obtain ⟨added, hy⟩ := ih
    obtain ⟨xs, hx⟩ := (hs (k + m)).moved
    refine ⟨added ++ xs, ?_⟩
    rw [Ring.returned, ← Nat.add_assoc, hx, List.append_assoc, ← List.append_assoc (List.take _ _),
      List.take_append_drop, ← List.append_assoc, hy, List.append_assoc]

theorem Ring.returned_length_mono (k : Nat) {a b : Nat} (hab : a ≤ b) :
    (Ring.returned n rings k a).length ≤ (Ring.returned n rings k b).length := by
  induction hab with
  | refl => exact le_rfl
  | step _ ih =>
    rw [Ring.returned, List.length_append]
    omega

/-- Under fairness a consumer that keeps trying gets an item from a channel that holds one. -/
theorem Ring.eventually_returns_one (h : (rings 0).Inv n) (hs : ∀ k, Ring.QueueStep n (rings k) (rings (k + 1)))
    (hf : Ring.SyncFair rings) (tries : Nat → Prop) (hd : ∀ k, ∃ m, k ≤ m ∧ tries m)
    (ht : ∀ m, tries m → (rings m).seen n ≠ 0 → ptrSub n (rings (m + 1)).head (rings m).head ≠ 0) (j : Nat)
    (hj : 0 < (rings j).len n) : ∃ m, j ≤ m ∧ ptrSub n (rings (m + 1)).head (rings m).head ≠ 0 := by
  by_contra hc
  push Not at hc
  have inv := Ring.queueSteps_inv h hs
  have len : ∀ i, 0 < (rings (j + i)).len n := by
    intro i
    induction i with
    | zero => exact hj
    | succ i ih =>
      obtain ⟨xs, hx⟩ := (hs (j + i)).moved
      rw [hc (j + i) (by omega), List.drop_zero] at hx
      have hl := congrArg List.length hx
      rw [List.length_append, (inv _).contents_length, (inv _).contents_length] at hl
      rw [← Nat.add_assoc]
      omega
  obtain ⟨m, hm, he⟩ := (hf j).1
  have seen : ∀ i, 0 < (rings (m + i)).seen n := by
    intro i
    induction i with
    | zero =>
      have hl := len (m - j)
      rw [Nat.add_sub_cancel' hm] at hl
      show 0 < ptrSub n (rings m).tailSync (rings m).head
      rw [he]
      exact hl
    | succ i ih =>
      have hl := (hs (m + i)).seen
      rw [hc (m + i) (by omega)] at hl
      rw [← Nat.add_assoc]
      omega
  obtain ⟨l, hl, ha⟩ := hd m
  have hv := seen (l - m)
  rw [Nat.add_sub_cancel' hl] at hv
  exact ht l ha (by omega) (hc l (by omega))

/-- Under fairness a consumer that keeps trying gets all a channel holds, in order. -/
theorem Ring.eventually_returns (h : (rings 0).Inv n) (hs : ∀ k, Ring.QueueStep n (rings k) (rings (k + 1)))
    (hf : Ring.SyncFair rings) (tries : Nat → Prop) (hd : ∀ k, ∃ m, k ≤ m ∧ tries m)
    (ht : ∀ m, tries m → (rings m).seen n ≠ 0 → ptrSub n (rings (m + 1)).head (rings m).head ≠ 0) (k : Nat) :
    ∃ m, (rings k).contents n <+: Ring.returned n rings k m := by
  have inv := Ring.queueSteps_inv h hs
  have grow : ∀ j, ∃ m, min j ((rings k).contents n).length ≤ (Ring.returned n rings k m).length := by
    intro j
    induction j with
    | zero => exact ⟨0, by omega⟩
    | succ j ih =>
      obtain ⟨m, hm⟩ := ih
      by_cases hge : min (j + 1) ((rings k).contents n).length ≤ (Ring.returned n rings k m).length
      · exact ⟨m, hge⟩
      · obtain ⟨added, hy⟩ := Ring.returned_append_contents hs k m
        have hlen := congrArg List.length hy
        rw [List.length_append, List.length_append, (inv (k + m)).contents_length] at hlen
        obtain ⟨l, hl, hne⟩ := Ring.eventually_returns_one h hs hf tries hd ht (k + m) (by omega)
        have hmono := Ring.returned_length_mono (n := n) (rings := rings) k (show m ≤ l - k by omega)
        have hle := (hs l).le
        refine ⟨l - k + 1, ?_⟩
        rw [Ring.returned, List.length_append, List.length_take, show k + (l - k) = l by omega,
          (inv l).contents_length]
        omega
  obtain ⟨m, hm⟩ := grow ((rings k).contents n).length
  rw [min_self] at hm
  obtain ⟨added, hy⟩ := Ring.returned_append_contents hs k m
  exact ⟨m, List.prefix_of_prefix_length_le ⟨added, hy.symm⟩ (List.prefix_append _ _) hm⟩

end

end Sys2Proof.Machine
end

