-- ==== Sys2Proof/Laws/State.lean ====
section
/-! SUPPORT. One lemma per field per update of State, true by rfl. -/

namespace Sys2Proof.Machine

namespace State

variable (s : State)

@[simp] theorem withBc_cfg (x : Ring Byte) : (s.withBc x).cfg = s.cfg := rfl
@[simp] theorem withBc_bc (x : Ring Byte) : (s.withBc x).bc = x := rfl
@[simp] theorem withBc_cc (x : Ring Byte) : (s.withBc x).cc = s.cc := rfl
@[simp] theorem withBc_p (x : Ring Byte) : (s.withBc x).p = s.p := rfl
@[simp] theorem withBc_stp (x : Ring Byte) : (s.withBc x).stp = s.stp := rfl
@[simp] theorem withBc_pin (x : Ring Byte) : (s.withBc x).pin = s.pin := rfl
@[simp] theorem withBc_srv (x : Ring Byte) : (s.withBc x).srv = s.srv := rfl
@[simp] theorem withBc_pwm (x : Ring Byte) : (s.withBc x).pwm = s.pwm := rfl
@[simp] theorem withBc_flg (x : Ring Byte) : (s.withBc x).flg = s.flg := rfl
@[simp] theorem withBc_trace (x : Ring Byte) : (s.withBc x).trace = s.trace := rfl
@[simp] theorem withBc_evt (x : Ring Byte) : (s.withBc x).evt = s.evt := rfl
@[simp] theorem withBc_rx (x : Ring Byte) : (s.withBc x).rx = s.rx := rfl
@[simp] theorem withBc_par (x : Ring Byte) : (s.withBc x).par = s.par := rfl
@[simp] theorem withBc_ctl (x : Ring Byte) : (s.withBc x).ctl = s.ctl := rfl
@[simp] theorem withBc_res (x : Ring Byte) : (s.withBc x).res = s.res := rfl
@[simp] theorem withBc_sched (x : Ring Byte) : (s.withBc x).sched = s.sched := rfl
@[simp] theorem withBc_nBc (x : Ring Byte) : (s.withBc x).nBc = s.nBc := rfl
@[simp] theorem withBc_nCc (x : Ring Byte) : (s.withBc x).nCc = s.nCc := rfl

@[simp] theorem withCc_cfg (x : Ring CmdWord) : (s.withCc x).cfg = s.cfg := rfl
@[simp] theorem withCc_bc (x : Ring CmdWord) : (s.withCc x).bc = s.bc := rfl
@[simp] theorem withCc_cc (x : Ring CmdWord) : (s.withCc x).cc = x := rfl
@[simp] theorem withCc_p (x : Ring CmdWord) : (s.withCc x).p = s.p := rfl
@[simp] theorem withCc_stp (x : Ring CmdWord) : (s.withCc x).stp = s.stp := rfl
@[simp] theorem withCc_pin (x : Ring CmdWord) : (s.withCc x).pin = s.pin := rfl
@[simp] theorem withCc_srv (x : Ring CmdWord) : (s.withCc x).srv = s.srv := rfl
@[simp] theorem withCc_pwm (x : Ring CmdWord) : (s.withCc x).pwm = s.pwm := rfl
@[simp] theorem withCc_flg (x : Ring CmdWord) : (s.withCc x).flg = s.flg := rfl
@[simp] theorem withCc_trace (x : Ring CmdWord) : (s.withCc x).trace = s.trace := rfl
@[simp] theorem withCc_evt (x : Ring CmdWord) : (s.withCc x).evt = s.evt := rfl
@[simp] theorem withCc_rx (x : Ring CmdWord) : (s.withCc x).rx = s.rx := rfl
@[simp] theorem withCc_par (x : Ring CmdWord) : (s.withCc x).par = s.par := rfl
@[simp] theorem withCc_ctl (x : Ring CmdWord) : (s.withCc x).ctl = s.ctl := rfl
@[simp] theorem withCc_res (x : Ring CmdWord) : (s.withCc x).res = s.res := rfl
@[simp] theorem withCc_sched (x : Ring CmdWord) : (s.withCc x).sched = s.sched := rfl
@[simp] theorem withCc_nBc (x : Ring CmdWord) : (s.withCc x).nBc = s.nBc := rfl
@[simp] theorem withCc_nCc (x : Ring CmdWord) : (s.withCc x).nCc = s.nCc := rfl

@[simp] theorem withP_cfg (x : Parser) : (s.withP x).cfg = s.cfg := rfl
@[simp] theorem withP_bc (x : Parser) : (s.withP x).bc = s.bc := rfl
@[simp] theorem withP_cc (x : Parser) : (s.withP x).cc = s.cc := rfl
@[simp] theorem withP_p (x : Parser) : (s.withP x).p = x := rfl
@[simp] theorem withP_stp (x : Parser) : (s.withP x).stp = s.stp := rfl
@[simp] theorem withP_pin (x : Parser) : (s.withP x).pin = s.pin := rfl
@[simp] theorem withP_srv (x : Parser) : (s.withP x).srv = s.srv := rfl
@[simp] theorem withP_pwm (x : Parser) : (s.withP x).pwm = s.pwm := rfl
@[simp] theorem withP_flg (x : Parser) : (s.withP x).flg = s.flg := rfl
@[simp] theorem withP_trace (x : Parser) : (s.withP x).trace = s.trace := rfl
@[simp] theorem withP_evt (x : Parser) : (s.withP x).evt = s.evt := rfl
@[simp] theorem withP_rx (x : Parser) : (s.withP x).rx = s.rx := rfl
@[simp] theorem withP_par (x : Parser) : (s.withP x).par = s.par := rfl
@[simp] theorem withP_ctl (x : Parser) : (s.withP x).ctl = s.ctl := rfl
@[simp] theorem withP_res (x : Parser) : (s.withP x).res = s.res := rfl
@[simp] theorem withP_sched (x : Parser) : (s.withP x).sched = s.sched := rfl
@[simp] theorem withP_nBc (x : Parser) : (s.withP x).nBc = s.nBc := rfl
@[simp] theorem withP_nCc (x : Parser) : (s.withP x).nCc = s.nCc := rfl

@[simp] theorem withStp_cfg (x : Stepper) : (s.withStp x).cfg = s.cfg := rfl
@[simp] theorem withStp_bc (x : Stepper) : (s.withStp x).bc = s.bc := rfl
@[simp] theorem withStp_cc (x : Stepper) : (s.withStp x).cc = s.cc := rfl
@[simp] theorem withStp_p (x : Stepper) : (s.withStp x).p = s.p := rfl
@[simp] theorem withStp_stp (x : Stepper) : (s.withStp x).stp = x := rfl
@[simp] theorem withStp_pin (x : Stepper) : (s.withStp x).pin = s.pin := rfl
@[simp] theorem withStp_srv (x : Stepper) : (s.withStp x).srv = s.srv := rfl
@[simp] theorem withStp_pwm (x : Stepper) : (s.withStp x).pwm = s.pwm := rfl
@[simp] theorem withStp_flg (x : Stepper) : (s.withStp x).flg = s.flg := rfl
@[simp] theorem withStp_trace (x : Stepper) : (s.withStp x).trace = s.trace := rfl
@[simp] theorem withStp_evt (x : Stepper) : (s.withStp x).evt = s.evt := rfl
@[simp] theorem withStp_rx (x : Stepper) : (s.withStp x).rx = s.rx := rfl
@[simp] theorem withStp_par (x : Stepper) : (s.withStp x).par = s.par := rfl
@[simp] theorem withStp_ctl (x : Stepper) : (s.withStp x).ctl = s.ctl := rfl
@[simp] theorem withStp_res (x : Stepper) : (s.withStp x).res = s.res := rfl
@[simp] theorem withStp_sched (x : Stepper) : (s.withStp x).sched = s.sched := rfl
@[simp] theorem withStp_nBc (x : Stepper) : (s.withStp x).nBc = s.nBc := rfl
@[simp] theorem withStp_nCc (x : Stepper) : (s.withStp x).nCc = s.nCc := rfl

@[simp] theorem withPin_cfg (x : Pins) : (s.withPin x).cfg = s.cfg := rfl
@[simp] theorem withPin_bc (x : Pins) : (s.withPin x).bc = s.bc := rfl
@[simp] theorem withPin_cc (x : Pins) : (s.withPin x).cc = s.cc := rfl
@[simp] theorem withPin_p (x : Pins) : (s.withPin x).p = s.p := rfl
@[simp] theorem withPin_stp (x : Pins) : (s.withPin x).stp = s.stp := rfl
@[simp] theorem withPin_pin (x : Pins) : (s.withPin x).pin = x := rfl
@[simp] theorem withPin_srv (x : Pins) : (s.withPin x).srv = s.srv := rfl
@[simp] theorem withPin_pwm (x : Pins) : (s.withPin x).pwm = s.pwm := rfl
@[simp] theorem withPin_flg (x : Pins) : (s.withPin x).flg = s.flg := rfl
@[simp] theorem withPin_trace (x : Pins) : (s.withPin x).trace = s.trace := rfl
@[simp] theorem withPin_evt (x : Pins) : (s.withPin x).evt = s.evt := rfl
@[simp] theorem withPin_rx (x : Pins) : (s.withPin x).rx = s.rx := rfl
@[simp] theorem withPin_par (x : Pins) : (s.withPin x).par = s.par := rfl
@[simp] theorem withPin_ctl (x : Pins) : (s.withPin x).ctl = s.ctl := rfl
@[simp] theorem withPin_res (x : Pins) : (s.withPin x).res = s.res := rfl
@[simp] theorem withPin_sched (x : Pins) : (s.withPin x).sched = s.sched := rfl
@[simp] theorem withPin_nBc (x : Pins) : (s.withPin x).nBc = s.nBc := rfl
@[simp] theorem withPin_nCc (x : Pins) : (s.withPin x).nCc = s.nCc := rfl

@[simp] theorem withSrv_cfg (x : Servo) : (s.withSrv x).cfg = s.cfg := rfl
@[simp] theorem withSrv_bc (x : Servo) : (s.withSrv x).bc = s.bc := rfl
@[simp] theorem withSrv_cc (x : Servo) : (s.withSrv x).cc = s.cc := rfl
@[simp] theorem withSrv_p (x : Servo) : (s.withSrv x).p = s.p := rfl
@[simp] theorem withSrv_stp (x : Servo) : (s.withSrv x).stp = s.stp := rfl
@[simp] theorem withSrv_pin (x : Servo) : (s.withSrv x).pin = s.pin := rfl
@[simp] theorem withSrv_srv (x : Servo) : (s.withSrv x).srv = x := rfl
@[simp] theorem withSrv_pwm (x : Servo) : (s.withSrv x).pwm = s.pwm := rfl
@[simp] theorem withSrv_flg (x : Servo) : (s.withSrv x).flg = s.flg := rfl
@[simp] theorem withSrv_trace (x : Servo) : (s.withSrv x).trace = s.trace := rfl
@[simp] theorem withSrv_evt (x : Servo) : (s.withSrv x).evt = s.evt := rfl
@[simp] theorem withSrv_rx (x : Servo) : (s.withSrv x).rx = s.rx := rfl
@[simp] theorem withSrv_par (x : Servo) : (s.withSrv x).par = s.par := rfl
@[simp] theorem withSrv_ctl (x : Servo) : (s.withSrv x).ctl = s.ctl := rfl
@[simp] theorem withSrv_res (x : Servo) : (s.withSrv x).res = s.res := rfl
@[simp] theorem withSrv_sched (x : Servo) : (s.withSrv x).sched = s.sched := rfl
@[simp] theorem withSrv_nBc (x : Servo) : (s.withSrv x).nBc = s.nBc := rfl
@[simp] theorem withSrv_nCc (x : Servo) : (s.withSrv x).nCc = s.nCc := rfl

@[simp] theorem withPwm_cfg (x : Option U16) : (s.withPwm x).cfg = s.cfg := rfl
@[simp] theorem withPwm_bc (x : Option U16) : (s.withPwm x).bc = s.bc := rfl
@[simp] theorem withPwm_cc (x : Option U16) : (s.withPwm x).cc = s.cc := rfl
@[simp] theorem withPwm_p (x : Option U16) : (s.withPwm x).p = s.p := rfl
@[simp] theorem withPwm_stp (x : Option U16) : (s.withPwm x).stp = s.stp := rfl
@[simp] theorem withPwm_pin (x : Option U16) : (s.withPwm x).pin = s.pin := rfl
@[simp] theorem withPwm_srv (x : Option U16) : (s.withPwm x).srv = s.srv := rfl
@[simp] theorem withPwm_pwm (x : Option U16) : (s.withPwm x).pwm = x := rfl
@[simp] theorem withPwm_flg (x : Option U16) : (s.withPwm x).flg = s.flg := rfl
@[simp] theorem withPwm_trace (x : Option U16) : (s.withPwm x).trace = s.trace := rfl
@[simp] theorem withPwm_evt (x : Option U16) : (s.withPwm x).evt = s.evt := rfl
@[simp] theorem withPwm_rx (x : Option U16) : (s.withPwm x).rx = s.rx := rfl
@[simp] theorem withPwm_par (x : Option U16) : (s.withPwm x).par = s.par := rfl
@[simp] theorem withPwm_ctl (x : Option U16) : (s.withPwm x).ctl = s.ctl := rfl
@[simp] theorem withPwm_res (x : Option U16) : (s.withPwm x).res = s.res := rfl
@[simp] theorem withPwm_sched (x : Option U16) : (s.withPwm x).sched = s.sched := rfl
@[simp] theorem withPwm_nBc (x : Option U16) : (s.withPwm x).nBc = s.nBc := rfl
@[simp] theorem withPwm_nCc (x : Option U16) : (s.withPwm x).nCc = s.nCc := rfl

@[simp] theorem withFlg_cfg (x : Flags) : (s.withFlg x).cfg = s.cfg := rfl
@[simp] theorem withFlg_bc (x : Flags) : (s.withFlg x).bc = s.bc := rfl
@[simp] theorem withFlg_cc (x : Flags) : (s.withFlg x).cc = s.cc := rfl
@[simp] theorem withFlg_p (x : Flags) : (s.withFlg x).p = s.p := rfl
@[simp] theorem withFlg_stp (x : Flags) : (s.withFlg x).stp = s.stp := rfl
@[simp] theorem withFlg_pin (x : Flags) : (s.withFlg x).pin = s.pin := rfl
@[simp] theorem withFlg_srv (x : Flags) : (s.withFlg x).srv = s.srv := rfl
@[simp] theorem withFlg_pwm (x : Flags) : (s.withFlg x).pwm = s.pwm := rfl
@[simp] theorem withFlg_flg (x : Flags) : (s.withFlg x).flg = x := rfl
@[simp] theorem withFlg_trace (x : Flags) : (s.withFlg x).trace = s.trace := rfl
@[simp] theorem withFlg_evt (x : Flags) : (s.withFlg x).evt = s.evt := rfl
@[simp] theorem withFlg_rx (x : Flags) : (s.withFlg x).rx = s.rx := rfl
@[simp] theorem withFlg_par (x : Flags) : (s.withFlg x).par = s.par := rfl
@[simp] theorem withFlg_ctl (x : Flags) : (s.withFlg x).ctl = s.ctl := rfl
@[simp] theorem withFlg_res (x : Flags) : (s.withFlg x).res = s.res := rfl
@[simp] theorem withFlg_sched (x : Flags) : (s.withFlg x).sched = s.sched := rfl
@[simp] theorem withFlg_nBc (x : Flags) : (s.withFlg x).nBc = s.nBc := rfl
@[simp] theorem withFlg_nCc (x : Flags) : (s.withFlg x).nCc = s.nCc := rfl

@[simp] theorem withEvt_cfg (x : EvtPos) : (s.withEvt x).cfg = s.cfg := rfl
@[simp] theorem withEvt_bc (x : EvtPos) : (s.withEvt x).bc = s.bc := rfl
@[simp] theorem withEvt_cc (x : EvtPos) : (s.withEvt x).cc = s.cc := rfl
@[simp] theorem withEvt_p (x : EvtPos) : (s.withEvt x).p = s.p := rfl
@[simp] theorem withEvt_stp (x : EvtPos) : (s.withEvt x).stp = s.stp := rfl
@[simp] theorem withEvt_pin (x : EvtPos) : (s.withEvt x).pin = s.pin := rfl
@[simp] theorem withEvt_srv (x : EvtPos) : (s.withEvt x).srv = s.srv := rfl
@[simp] theorem withEvt_pwm (x : EvtPos) : (s.withEvt x).pwm = s.pwm := rfl
@[simp] theorem withEvt_flg (x : EvtPos) : (s.withEvt x).flg = s.flg := rfl
@[simp] theorem withEvt_trace (x : EvtPos) : (s.withEvt x).trace = s.trace := rfl
@[simp] theorem withEvt_evt (x : EvtPos) : (s.withEvt x).evt = x := rfl
@[simp] theorem withEvt_rx (x : EvtPos) : (s.withEvt x).rx = s.rx := rfl
@[simp] theorem withEvt_par (x : EvtPos) : (s.withEvt x).par = s.par := rfl
@[simp] theorem withEvt_ctl (x : EvtPos) : (s.withEvt x).ctl = s.ctl := rfl
@[simp] theorem withEvt_res (x : EvtPos) : (s.withEvt x).res = s.res := rfl
@[simp] theorem withEvt_sched (x : EvtPos) : (s.withEvt x).sched = s.sched := rfl
@[simp] theorem withEvt_nBc (x : EvtPos) : (s.withEvt x).nBc = s.nBc := rfl
@[simp] theorem withEvt_nCc (x : EvtPos) : (s.withEvt x).nCc = s.nCc := rfl

@[simp] theorem withRx_cfg (x : List Byte) : (s.withRx x).cfg = s.cfg := rfl
@[simp] theorem withRx_bc (x : List Byte) : (s.withRx x).bc = s.bc := rfl
@[simp] theorem withRx_cc (x : List Byte) : (s.withRx x).cc = s.cc := rfl
@[simp] theorem withRx_p (x : List Byte) : (s.withRx x).p = s.p := rfl
@[simp] theorem withRx_stp (x : List Byte) : (s.withRx x).stp = s.stp := rfl
@[simp] theorem withRx_pin (x : List Byte) : (s.withRx x).pin = s.pin := rfl
@[simp] theorem withRx_srv (x : List Byte) : (s.withRx x).srv = s.srv := rfl
@[simp] theorem withRx_pwm (x : List Byte) : (s.withRx x).pwm = s.pwm := rfl
@[simp] theorem withRx_flg (x : List Byte) : (s.withRx x).flg = s.flg := rfl
@[simp] theorem withRx_trace (x : List Byte) : (s.withRx x).trace = s.trace := rfl
@[simp] theorem withRx_evt (x : List Byte) : (s.withRx x).evt = s.evt := rfl
@[simp] theorem withRx_rx (x : List Byte) : (s.withRx x).rx = x := rfl
@[simp] theorem withRx_par (x : List Byte) : (s.withRx x).par = s.par := rfl
@[simp] theorem withRx_ctl (x : List Byte) : (s.withRx x).ctl = s.ctl := rfl
@[simp] theorem withRx_res (x : List Byte) : (s.withRx x).res = s.res := rfl
@[simp] theorem withRx_sched (x : List Byte) : (s.withRx x).sched = s.sched := rfl
@[simp] theorem withRx_nBc (x : List Byte) : (s.withRx x).nBc = s.nBc := rfl
@[simp] theorem withRx_nCc (x : List Byte) : (s.withRx x).nCc = s.nCc := rfl

@[simp] theorem withPar_cfg (x : Option ParseResult) : (s.withPar x).cfg = s.cfg := rfl
@[simp] theorem withPar_bc (x : Option ParseResult) : (s.withPar x).bc = s.bc := rfl
@[simp] theorem withPar_cc (x : Option ParseResult) : (s.withPar x).cc = s.cc := rfl
@[simp] theorem withPar_p (x : Option ParseResult) : (s.withPar x).p = s.p := rfl
@[simp] theorem withPar_stp (x : Option ParseResult) : (s.withPar x).stp = s.stp := rfl
@[simp] theorem withPar_pin (x : Option ParseResult) : (s.withPar x).pin = s.pin := rfl
@[simp] theorem withPar_srv (x : Option ParseResult) : (s.withPar x).srv = s.srv := rfl
@[simp] theorem withPar_pwm (x : Option ParseResult) : (s.withPar x).pwm = s.pwm := rfl
@[simp] theorem withPar_flg (x : Option ParseResult) : (s.withPar x).flg = s.flg := rfl
@[simp] theorem withPar_trace (x : Option ParseResult) : (s.withPar x).trace = s.trace := rfl
@[simp] theorem withPar_evt (x : Option ParseResult) : (s.withPar x).evt = s.evt := rfl
@[simp] theorem withPar_rx (x : Option ParseResult) : (s.withPar x).rx = s.rx := rfl
@[simp] theorem withPar_par (x : Option ParseResult) : (s.withPar x).par = x := rfl
@[simp] theorem withPar_ctl (x : Option ParseResult) : (s.withPar x).ctl = s.ctl := rfl
@[simp] theorem withPar_res (x : Option ParseResult) : (s.withPar x).res = s.res := rfl
@[simp] theorem withPar_sched (x : Option ParseResult) : (s.withPar x).sched = s.sched := rfl
@[simp] theorem withPar_nBc (x : Option ParseResult) : (s.withPar x).nBc = s.nBc := rfl
@[simp] theorem withPar_nCc (x : Option ParseResult) : (s.withPar x).nCc = s.nCc := rfl

@[simp] theorem withCtl_cfg (x : CtlPos) : (s.withCtl x).cfg = s.cfg := rfl
@[simp] theorem withCtl_bc (x : CtlPos) : (s.withCtl x).bc = s.bc := rfl
@[simp] theorem withCtl_cc (x : CtlPos) : (s.withCtl x).cc = s.cc := rfl
@[simp] theorem withCtl_p (x : CtlPos) : (s.withCtl x).p = s.p := rfl
@[simp] theorem withCtl_stp (x : CtlPos) : (s.withCtl x).stp = s.stp := rfl
@[simp] theorem withCtl_pin (x : CtlPos) : (s.withCtl x).pin = s.pin := rfl
@[simp] theorem withCtl_srv (x : CtlPos) : (s.withCtl x).srv = s.srv := rfl
@[simp] theorem withCtl_pwm (x : CtlPos) : (s.withCtl x).pwm = s.pwm := rfl
@[simp] theorem withCtl_flg (x : CtlPos) : (s.withCtl x).flg = s.flg := rfl
@[simp] theorem withCtl_trace (x : CtlPos) : (s.withCtl x).trace = s.trace := rfl
@[simp] theorem withCtl_evt (x : CtlPos) : (s.withCtl x).evt = s.evt := rfl
@[simp] theorem withCtl_rx (x : CtlPos) : (s.withCtl x).rx = s.rx := rfl
@[simp] theorem withCtl_par (x : CtlPos) : (s.withCtl x).par = s.par := rfl
@[simp] theorem withCtl_ctl (x : CtlPos) : (s.withCtl x).ctl = x := rfl
@[simp] theorem withCtl_res (x : CtlPos) : (s.withCtl x).res = s.res := rfl
@[simp] theorem withCtl_sched (x : CtlPos) : (s.withCtl x).sched = s.sched := rfl
@[simp] theorem withCtl_nBc (x : CtlPos) : (s.withCtl x).nBc = s.nBc := rfl
@[simp] theorem withCtl_nCc (x : CtlPos) : (s.withCtl x).nCc = s.nCc := rfl

@[simp] theorem withRes_cfg (x : OpResult) : (s.withRes x).cfg = s.cfg := rfl
@[simp] theorem withRes_bc (x : OpResult) : (s.withRes x).bc = s.bc := rfl
@[simp] theorem withRes_cc (x : OpResult) : (s.withRes x).cc = s.cc := rfl
@[simp] theorem withRes_p (x : OpResult) : (s.withRes x).p = s.p := rfl
@[simp] theorem withRes_stp (x : OpResult) : (s.withRes x).stp = s.stp := rfl
@[simp] theorem withRes_pin (x : OpResult) : (s.withRes x).pin = s.pin := rfl
@[simp] theorem withRes_srv (x : OpResult) : (s.withRes x).srv = s.srv := rfl
@[simp] theorem withRes_pwm (x : OpResult) : (s.withRes x).pwm = s.pwm := rfl
@[simp] theorem withRes_flg (x : OpResult) : (s.withRes x).flg = s.flg := rfl
@[simp] theorem withRes_trace (x : OpResult) : (s.withRes x).trace = s.trace := rfl
@[simp] theorem withRes_evt (x : OpResult) : (s.withRes x).evt = s.evt := rfl
@[simp] theorem withRes_rx (x : OpResult) : (s.withRes x).rx = s.rx := rfl
@[simp] theorem withRes_par (x : OpResult) : (s.withRes x).par = s.par := rfl
@[simp] theorem withRes_ctl (x : OpResult) : (s.withRes x).ctl = s.ctl := rfl
@[simp] theorem withRes_res (x : OpResult) : (s.withRes x).res = x := rfl
@[simp] theorem withRes_sched (x : OpResult) : (s.withRes x).sched = s.sched := rfl
@[simp] theorem withRes_nBc (x : OpResult) : (s.withRes x).nBc = s.nBc := rfl
@[simp] theorem withRes_nCc (x : OpResult) : (s.withRes x).nCc = s.nCc := rfl

@[simp] theorem withSched_cfg (x : List Turn) : (s.withSched x).cfg = s.cfg := rfl
@[simp] theorem withSched_bc (x : List Turn) : (s.withSched x).bc = s.bc := rfl
@[simp] theorem withSched_cc (x : List Turn) : (s.withSched x).cc = s.cc := rfl
@[simp] theorem withSched_p (x : List Turn) : (s.withSched x).p = s.p := rfl
@[simp] theorem withSched_stp (x : List Turn) : (s.withSched x).stp = s.stp := rfl
@[simp] theorem withSched_pin (x : List Turn) : (s.withSched x).pin = s.pin := rfl
@[simp] theorem withSched_srv (x : List Turn) : (s.withSched x).srv = s.srv := rfl
@[simp] theorem withSched_pwm (x : List Turn) : (s.withSched x).pwm = s.pwm := rfl
@[simp] theorem withSched_flg (x : List Turn) : (s.withSched x).flg = s.flg := rfl
@[simp] theorem withSched_trace (x : List Turn) : (s.withSched x).trace = s.trace := rfl
@[simp] theorem withSched_evt (x : List Turn) : (s.withSched x).evt = s.evt := rfl
@[simp] theorem withSched_rx (x : List Turn) : (s.withSched x).rx = s.rx := rfl
@[simp] theorem withSched_par (x : List Turn) : (s.withSched x).par = s.par := rfl
@[simp] theorem withSched_ctl (x : List Turn) : (s.withSched x).ctl = s.ctl := rfl
@[simp] theorem withSched_res (x : List Turn) : (s.withSched x).res = s.res := rfl
@[simp] theorem withSched_sched (x : List Turn) : (s.withSched x).sched = x := rfl
@[simp] theorem withSched_nBc (x : List Turn) : (s.withSched x).nBc = s.nBc := rfl
@[simp] theorem withSched_nCc (x : List Turn) : (s.withSched x).nCc = s.nCc := rfl

@[simp] theorem emit_cfg (x : Event) : (s.emit x).cfg = s.cfg := rfl
@[simp] theorem emit_bc (x : Event) : (s.emit x).bc = s.bc := rfl
@[simp] theorem emit_cc (x : Event) : (s.emit x).cc = s.cc := rfl
@[simp] theorem emit_p (x : Event) : (s.emit x).p = s.p := rfl
@[simp] theorem emit_stp (x : Event) : (s.emit x).stp = s.stp := rfl
@[simp] theorem emit_pin (x : Event) : (s.emit x).pin = s.pin := rfl
@[simp] theorem emit_srv (x : Event) : (s.emit x).srv = s.srv := rfl
@[simp] theorem emit_pwm (x : Event) : (s.emit x).pwm = s.pwm := rfl
@[simp] theorem emit_flg (x : Event) : (s.emit x).flg = s.flg := rfl
@[simp] theorem emit_trace (x : Event) : (s.emit x).trace = s.trace ++ [x] := rfl
@[simp] theorem emit_evt (x : Event) : (s.emit x).evt = s.evt := rfl
@[simp] theorem emit_rx (x : Event) : (s.emit x).rx = s.rx := rfl
@[simp] theorem emit_par (x : Event) : (s.emit x).par = s.par := rfl
@[simp] theorem emit_ctl (x : Event) : (s.emit x).ctl = s.ctl := rfl
@[simp] theorem emit_res (x : Event) : (s.emit x).res = s.res := rfl
@[simp] theorem emit_sched (x : Event) : (s.emit x).sched = s.sched := rfl
@[simp] theorem emit_nBc (x : Event) : (s.emit x).nBc = s.nBc := rfl
@[simp] theorem emit_nCc (x : Event) : (s.emit x).nCc = s.nCc := rfl

@[simp] theorem driveDir_cfg (x : Level) : (s.driveDir x).cfg = s.cfg := rfl
@[simp] theorem driveDir_bc (x : Level) : (s.driveDir x).bc = s.bc := rfl
@[simp] theorem driveDir_cc (x : Level) : (s.driveDir x).cc = s.cc := rfl
@[simp] theorem driveDir_p (x : Level) : (s.driveDir x).p = s.p := rfl
@[simp] theorem driveDir_stp (x : Level) : (s.driveDir x).stp = s.stp := rfl
@[simp] theorem driveDir_pin (x : Level) : (s.driveDir x).pin = { s.pin with dir := some x } := rfl
@[simp] theorem driveDir_srv (x : Level) : (s.driveDir x).srv = s.srv := rfl
@[simp] theorem driveDir_pwm (x : Level) : (s.driveDir x).pwm = s.pwm := rfl
@[simp] theorem driveDir_flg (x : Level) : (s.driveDir x).flg = s.flg := rfl
@[simp] theorem driveDir_trace (x : Level) : (s.driveDir x).trace = s.trace ++ [.pinWrite .dir x] := rfl
@[simp] theorem driveDir_evt (x : Level) : (s.driveDir x).evt = s.evt := rfl
@[simp] theorem driveDir_rx (x : Level) : (s.driveDir x).rx = s.rx := rfl
@[simp] theorem driveDir_par (x : Level) : (s.driveDir x).par = s.par := rfl
@[simp] theorem driveDir_ctl (x : Level) : (s.driveDir x).ctl = s.ctl := rfl
@[simp] theorem driveDir_res (x : Level) : (s.driveDir x).res = s.res := rfl
@[simp] theorem driveDir_sched (x : Level) : (s.driveDir x).sched = s.sched := rfl

@[simp] theorem driveStep_cfg (x : Level) : (s.driveStep x).cfg = s.cfg := rfl
@[simp] theorem driveStep_bc (x : Level) : (s.driveStep x).bc = s.bc := rfl
@[simp] theorem driveStep_cc (x : Level) : (s.driveStep x).cc = s.cc := rfl
@[simp] theorem driveStep_p (x : Level) : (s.driveStep x).p = s.p := rfl
@[simp] theorem driveStep_stp (x : Level) : (s.driveStep x).stp = s.stp := rfl
@[simp] theorem driveStep_pin (x : Level) : (s.driveStep x).pin = { s.pin with step := some x } := rfl
@[simp] theorem driveStep_srv (x : Level) : (s.driveStep x).srv = s.srv := rfl
@[simp] theorem driveStep_pwm (x : Level) : (s.driveStep x).pwm = s.pwm := rfl
@[simp] theorem driveStep_flg (x : Level) : (s.driveStep x).flg = s.flg := rfl
@[simp] theorem driveStep_trace (x : Level) : (s.driveStep x).trace = s.trace ++ [.pinWrite .step x] := rfl
@[simp] theorem driveStep_evt (x : Level) : (s.driveStep x).evt = s.evt := rfl
@[simp] theorem driveStep_rx (x : Level) : (s.driveStep x).rx = s.rx := rfl
@[simp] theorem driveStep_par (x : Level) : (s.driveStep x).par = s.par := rfl
@[simp] theorem driveStep_ctl (x : Level) : (s.driveStep x).ctl = s.ctl := rfl
@[simp] theorem driveStep_res (x : Level) : (s.driveStep x).res = s.res := rfl
@[simp] theorem driveStep_sched (x : Level) : (s.driveStep x).sched = s.sched := rfl

@[simp] theorem driveDuty_cfg (x : U16) : (s.driveDuty x).cfg = s.cfg := rfl
@[simp] theorem driveDuty_bc (x : U16) : (s.driveDuty x).bc = s.bc := rfl
@[simp] theorem driveDuty_cc (x : U16) : (s.driveDuty x).cc = s.cc := rfl
@[simp] theorem driveDuty_p (x : U16) : (s.driveDuty x).p = s.p := rfl
@[simp] theorem driveDuty_stp (x : U16) : (s.driveDuty x).stp = s.stp := rfl
@[simp] theorem driveDuty_pin (x : U16) : (s.driveDuty x).pin = s.pin := rfl
@[simp] theorem driveDuty_srv (x : U16) : (s.driveDuty x).srv = s.srv := rfl
@[simp] theorem driveDuty_pwm (x : U16) : (s.driveDuty x).pwm = some x := rfl
@[simp] theorem driveDuty_flg (x : U16) : (s.driveDuty x).flg = s.flg := rfl
@[simp] theorem driveDuty_trace (x : U16) : (s.driveDuty x).trace = s.trace ++ [.pwmWrite x] := rfl
@[simp] theorem driveDuty_evt (x : U16) : (s.driveDuty x).evt = s.evt := rfl
@[simp] theorem driveDuty_rx (x : U16) : (s.driveDuty x).rx = s.rx := rfl
@[simp] theorem driveDuty_par (x : U16) : (s.driveDuty x).par = s.par := rfl
@[simp] theorem driveDuty_ctl (x : U16) : (s.driveDuty x).ctl = s.ctl := rfl
@[simp] theorem driveDuty_res (x : U16) : (s.driveDuty x).res = s.res := rfl
@[simp] theorem driveDuty_sched (x : U16) : (s.driveDuty x).sched = s.sched := rfl

end State

end Sys2Proof.Machine
end

