-- ==== Sys2Proof/Laws/Invariant.lean ====
section
/-! SUPPORT. Every instruction's meaning keeps the block's invariant and faults only as a stub does: one lemma per
shared operation, one per meaning. -/

namespace Sys2Proof.Machine

/-- What an answer from a state with the invariant looks like. -/
def Result.Sound (o : Result) : Prop :=
  match o with
  | .next t => t.Inv
  | .fault f => ∃ op, f = .notImplemented op
  | .refused _ => True

theorem andThen_next (s : State) (f : State → Result) : andThen (.next s) f = f s := rfl

theorem andThen_eq_next {o : Result} {f : State → Result} {u : State} (h : andThen o f = .next u) :
    ∃ t, o = .next t ∧ f t = .next u := by
  cases o with
  | next t => exact ⟨t, rfl, h⟩
  | fault r => cases h
  | refused r => cases h

theorem Result.Sound.andThen {o : Result} {f : State → Result} (ho : Result.Sound o)
    (hf : ∀ t, t.Inv → Result.Sound (f t)) : Result.Sound (andThen o f) := by
  cases o with
  | next t => exact hf t ho
  | fault r => exact ho
  | refused r => trivial

namespace State

variable {s t : State}

/-- The invariant reads only these fields. -/
theorem Inv.congr (h : s.Inv) (h1 : t.cfg = s.cfg) (h2 : t.bc = s.bc) (h3 : t.cc = s.cc) (h4 : t.p = s.p)
    (h5 : t.par = s.par) (h6 : t.stp.elapsedTicks = s.stp.elapsedTicks) (h7 : t.srv = s.srv) (h8 : t.ctl = s.ctl) :
    t.Inv where
  bc := by
    have := h.bc
    unfold State.nBc at *
    rwa [h1, h2]
  cc := by
    have := h.cc
    unfold State.nCc at *
    rwa [h1, h3]
  synced := by rw [h1, h2, h3]; exact h.synced
  acc := by rw [h4]; exact h.acc
  resting := by rw [h4, h5]; exact h.resting
  ticks := by rw [h1, h6]; exact h.ticks
  servo := by
    have := h.servo
    unfold State.servoBuilt at *
    rwa [h1, h7]
  ccWords := by rw [h3]; exact h.ccWords
  ctlWord := by rw [h8]; exact h.ctlWord

theorem Inv.emit (h : s.Inv) (e : Event) : (s.emit e).Inv := h.congr rfl rfl rfl rfl rfl rfl rfl rfl
theorem Inv.withRes (h : s.Inv) (x : OpResult) : (s.withRes x).Inv := h.congr rfl rfl rfl rfl rfl rfl rfl rfl
theorem Inv.withFlg (h : s.Inv) (x : Flags) : (s.withFlg x).Inv := h.congr rfl rfl rfl rfl rfl rfl rfl rfl
theorem Inv.withEvt (h : s.Inv) (x : EvtPos) : (s.withEvt x).Inv := h.congr rfl rfl rfl rfl rfl rfl rfl rfl
theorem Inv.withRx (h : s.Inv) (x : List Byte) : (s.withRx x).Inv := h.congr rfl rfl rfl rfl rfl rfl rfl rfl
theorem Inv.withSched (h : s.Inv) (x : List Turn) : (s.withSched x).Inv := h.congr rfl rfl rfl rfl rfl rfl rfl rfl
theorem Inv.driveDir (h : s.Inv) (l : Level) : (s.driveDir l).Inv := h.congr rfl rfl rfl rfl rfl rfl rfl rfl
theorem Inv.driveStep (h : s.Inv) (l : Level) : (s.driveStep l).Inv := h.congr rfl rfl rfl rfl rfl rfl rfl rfl
theorem Inv.driveDuty (h : s.Inv) (d : U16) : (s.driveDuty d).Inv := h.congr rfl rfl rfl rfl rfl rfl rfl rfl

theorem Inv.withPar (h : s.Inv) (x : Option ParseResult) (hx : s.p.pstate ≠ .idle → x = none) : (s.withPar x).Inv :=
  { h with resting := hx }

theorem Inv.withParNone (h : s.Inv) : (s.withPar none).Inv := h.withPar none fun _ => rfl

theorem Inv.withCtl (h : s.Inv) (x : CtlPos) (hx : ∀ w, x = .dispatch w → wordOk w = true) : (s.withCtl x).Inv :=
  { h with ctlWord := hx }

theorem Inv.withStp (h : s.Inv) (x : Stepper) (hx : x.elapsedTicks ≤ s.cfg.tickFrequency) : (s.withStp x).Inv :=
  { h with ticks := hx }

theorem isExact_iff (s : State) : s.cfg.isExact = true ↔ s.cfg.syncMode = .exact := by
  simp [Config.isExact]

/-- A ByteChannel that meets its invariant, and follows its pointers in `exact` mode, may be put in. -/
theorem Inv.withBc (h : s.Inv) (r : Ring Byte) (hr : r.Inv s.nBc) (hs : s.cfg.isExact = true → r.Synced) :
    (s.withBc r).Inv :=
  { h with
    bc := hr
    synced := fun he => ⟨hs ((isExact_iff s).mpr he), (h.synced he).2⟩ }

theorem Inv.withCc (h : s.Inv) (r : Ring CmdWord) (hr : r.Inv s.nCc) (hs : s.cfg.isExact = true → r.Synced)
    (hw : ∀ c ∈ r.mem, wordOk c.2 = true) : (s.withCc r).Inv :=
  { h with
    cc := hr
    synced := fun he => ⟨(h.synced he).1, hs ((isExact_iff s).mpr he)⟩
    ccWords := hw }

theorem Inv.bcSynced (h : s.Inv) (he : s.cfg.isExact = true) : s.bc.Synced := (h.synced ((isExact_iff s).mp he)).1
theorem Inv.ccSynced (h : s.Inv) (he : s.cfg.isExact = true) : s.cc.Synced := (h.synced ((isExact_iff s).mp he)).2

end State

/-! ## Channels and flags -/

theorem enq_keeps_synced {α : Type} {n : Nat} {e : Bool} {x : α} {r r' : Ring α} (hs : e = true → r.Synced)
    (he : r.enq n e x = some r') : e = true → r'.Synced := by
  rintro rfl
  exact Ring.enq_synced x (hs rfl) he

theorem deq_keeps_synced {α : Type} {n : Nat} {e : Bool} {v : α} {r r' : Ring α} (hs : e = true → r.Synced)
    (he : r.deq n e = .item v r') : e = true → r'.Synced := by
  rintro rfl
  exact Ring.deq_synced v (hs rfl) he

theorem execBcEnq_sound (b : Byte) (s : State) (h : s.Inv) : Result.Sound (execBcEnq b s) := by
  unfold execBcEnq
  split
  · exact (h.emit _).withRes _
  · rename_i r he
    exact (h.withBc r (h.bc.enq _ b he) (enq_keeps_synced h.bcSynced he)).withRes _

theorem execBcDeq_sound (s : State) (h : s.Inv) : Result.Sound (execBcDeq s) := by
  unfold execBcDeq
  rcases h.bc.deq_cases s.cfg.isExact with ⟨-, hd⟩ | ⟨v, -, -, hd⟩
  · rw [hd]
    exact h.withRes _
  · rw [hd]
    exact (h.withBc _ (h.bc.deq _ v hd) (deq_keeps_synced h.bcSynced hd)).withRes _

theorem execCcEnq_sound (w : CmdWord) (hw : wordOk w = true) (s : State) (h : s.Inv) :
    Result.Sound (execCcEnq w s) := by
  unfold execCcEnq
  split
  · exact (h.emit _).withRes _
  · rename_i r he
    refine (h.withCc r (h.cc.enq _ w he) (enq_keeps_synced h.ccSynced he) ?_).withRes _
    obtain ⟨-, rfl⟩ := Ring.enq_some _ _ he
    intro c hc
    rcases Memory.mem_set _ _ _ _ hc with rfl | hc
    · exact hw
    · exact h.ccWords c hc

/-- A dequeued Command word is well-formed. -/
theorem execCcDeq_cases (s : State) (h : s.Inv) :
    (s.cc.seen s.nCc = 0 ∧ execCcDeq s = .next (s.withRes (.command none))) ∨
      ∃ w r, 0 < s.cc.seen s.nCc ∧ s.cc.deq s.nCc s.cfg.isExact = .item w r ∧ wordOk w = true ∧
        (s.withCc r).Inv ∧ execCcDeq s = .next ((s.withCc r).withRes (.command (some w))) := by
  unfold execCcDeq
  rcases h.cc.deq_cases s.cfg.isExact with ⟨h0, hd⟩ | ⟨v, h0, hv, hd⟩
  · exact .inl ⟨h0, by rw [hd]⟩
  · refine .inr ⟨v, _, h0, hd, ?_, ?_, by rw [hd]⟩
    · have hr := h.cc.read_item 0 (lt_of_lt_of_le h0 h.cc.seen_le)
      rw [Nat.add_zero, hv] at hr
      exact h.ccWords (s.cc.head % s.nCc, v) (Memory.mem_of_get _ _ _ hr.symm)
    · exact h.withCc _ (h.cc.deq _ v hd) (deq_keeps_synced h.ccSynced hd) h.ccWords

theorem execCcDeq_sound (s : State) (h : s.Inv) : Result.Sound (execCcDeq s) := by
  rcases execCcDeq_cases s h with ⟨-, e⟩ | ⟨w, r, -, -, -, hi, e⟩
  · rw [e]
    exact h.withRes _
  · rw [e]
    exact hi.withRes _

theorem execFlagSet_sound (f : FlagId) (s : State) (h : s.Inv) : Result.Sound (execFlagSet f s) := h.withFlg _

theorem execFlagTake_sound (f : FlagId) (s : State) (h : s.Inv) : Result.Sound (execFlagTake f s) :=
  (h.withFlg _).withRes _

theorem execSyncTail_sound (ch : ChannelId) (v : Nat) (s : State) (h : s.Inv) :
    Result.Sound (execSyncTail ch v s) := by
  have key : ∀ {α : Type} {n : Nat} {r r' : Ring α}, r.Inv n → r.syncTail n v = some r' → r.Synced → r'.Synced := by
    intro α n r r' hr he hs
    obtain ⟨hv, hle, rfl⟩ := Ring.syncTail_some v he
    refine ⟨hs.1, ?_⟩
    show v = r.tail
    have h1 := hr.tail_lt
    rw [hs.2, ptrSub_self n _ h1, ptrSub_eq n _ _ hv h1] at hle
    split_ifs at hle <;> omega
  unfold execSyncTail
  cases ch with
  | bc =>
    dsimp only
    split
    · rename_i r he
      exact h.withBc r (h.bc.syncTail v he) (fun hx => key h.bc he (h.bcSynced hx))
    · trivial
  | cc =>
    dsimp only
    split
    · rename_i r he
      refine h.withCc r (h.cc.syncTail v he) (fun hx => key h.cc he (h.ccSynced hx)) ?_
      obtain ⟨-, -, rfl⟩ := Ring.syncTail_some v he
      exact h.ccWords
    · trivial

theorem execSyncHead_sound (ch : ChannelId) (v : Nat) (s : State) (h : s.Inv) :
    Result.Sound (execSyncHead ch v s) := by
  have key : ∀ {α : Type} {n : Nat} {r r' : Ring α}, r.Inv n → r.syncHead n v = some r' → r.Synced → r'.Synced := by
    intro α n r r' hr he hs
    obtain ⟨hv, hle, rfl⟩ := Ring.syncHead_some v he
    refine ⟨?_, hs.2⟩
    show v = r.head
    have h1 := hr.head_lt
    rw [hs.1, ptrSub_self n _ h1, ptrSub_eq n _ _ hv h1] at hle
    split_ifs at hle <;> omega
  unfold execSyncHead
  cases ch with
  | bc =>
    dsimp only
    split
    · rename_i r he
      exact h.withBc r (h.bc.syncHead v he) (fun hx => key h.bc he (h.bcSynced hx))
    · trivial
  | cc =>
    dsimp only
    split
    · rename_i r he
      refine h.withCc r (h.cc.syncHead v he) (fun hx => key h.cc he (h.ccSynced hx)) ?_
      obtain ⟨-, -, rfl⟩ := Ring.syncHead_some v he
      exact h.ccWords
    · trivial

/-! ## The parser -/

theorem digitVal_le (b : Byte) (h : isDigit b = true) : digitVal b ≤ 9 := by
  unfold isDigit at h
  unfold digitVal
  simp only [Bool.and_eq_true, decide_eq_true_eq, BitVec.le_def] at h
  have h2 : b.toNat ≤ 57 := by simpa using h.2
  omega

theorem ofNat10_toNat (v : Nat) (h : v ≤ 999) : (BitVec.ofNat 10 v).toNat = v := by
  rw [BitVec.toNat_ofNat]
  exact Nat.mod_eq_of_lt (by omega)

/-- A transition keeps the bounds of `P.acc` (41_parser.md R133), and ends a call exactly by going to IDLE. -/
theorem ptrans_ok (p : Parser) (r : Option Byte) (t : Transition) (h : p.accOk)
    (he : ptrans p.pstate p.acc r = some t) :
    Parser.accOk { pstate := t.pstate, acc := t.acc } ∧ (t.out = .continue ↔ t.pstate ≠ .idle) := by
  obtain ⟨st, acc⟩ := p
  obtain ⟨h0, h1, h2⟩ := h
  simp only at h0 h1 h2 he
  unfold Parser.accOk
  cases r with
  | none => cases st <;> simp_all [ptrans] <;> (subst he; simp_all)
  | some b =>
    by_cases hd : isDigit b = true
    · have hv := digitVal_le b hd
      cases st <;> simp only [ptrans, onDigit, scanByte, argByte, if_pos hd, Option.some.injEq] at he
      all_goals first
        | (cases he; done)
        | (split at he <;> cases he <;> simp_all)
        | (subst he
           simp only [accPut, accNext, true_or, or_true, forall_const, reduceCtorEq, ne_eq, not_false_eq_true,
             not_true_eq_false, or_self, false_implies, and_true, true_and, iff_self] at h0 h1 h2 ⊢
           rw [ofNat10_toNat _ (by omega)]
           omega)
    · cases st <;> simp only [ptrans, onDigit, scanByte, argByte, if_neg hd, Option.some.injEq] at he
      all_goals first
        | (cases he; done)
        | (split at he <;> cases he <;> simp_all)
        | (subst he; simp_all)

theorem ptrans_some (st : PState) (acc : BitVec 10) (r : Option Byte) (h : st ≠ .idle) :
    ∃ t, ptrans st acc r = some t := by
  cases st <;> cases r <;> first | exact absurd rfl h | exact ⟨_, rfl⟩

theorem applyTransition_inv (s : State) (h : s.Inv) (t : Transition) (hs : s.p.pstate ≠ .idle)
    (ha : Parser.accOk { pstate := t.pstate, acc := t.acc }) (hc : t.out = .continue ↔ t.pstate ≠ .idle) :
    (applyTransition t s).Inv := by
  unfold applyTransition
  split
  · exact { h with acc := ha, resting := fun _ => h.resting hs }
  · rename_i r hr
    refine { h with acc := ha, resting := ?_ }
    intro hne
    rw [hc.mpr hne] at hr
    cases hr

theorem parseOn_sound (r : Option Byte) (s : State) (h : s.Inv) (hs : s.p.pstate ≠ .idle) :
    Result.Sound (parseOn r s) := by
  obtain ⟨t, ht⟩ := ptrans_some s.p.pstate s.p.acc r hs
  obtain ⟨ha, hc⟩ := ptrans_ok s.p r t h.acc ht
  unfold parseOn
  rw [ht]
  exact applyTransition_inv s h t hs ha hc

/-- A parser step under the invariant: the transition on what the parser sees (41_parser.md R121). -/
theorem execParseStep_cases (s : State) (h : s.Inv) (hs : s.p.pstate ≠ .idle) :
    (s.visibleBytes = [] ∧ s.bc.seen s.nBc = 0 ∧ execParseStep s = parseOn none s) ∨
      ∃ b r, s.bc.deq s.nBc s.cfg.isExact = .item b r ∧ (s.withBc r).Inv ∧
        s.visibleBytes = b :: (s.withBc r).visibleBytes ∧ s.bc.seen s.nBc = r.seen s.nBc + 1 ∧
        execParseStep s = parseOn (some b) (s.withBc r) := by
  unfold execParseStep
  rw [if_neg hs]
  rcases h.bc.deq_cases s.cfg.isExact with ⟨h0, hd⟩ | ⟨v, h0, -, hd⟩
  · refine .inl ⟨?_, h0, by rw [hd]⟩
    have := h.bc.visible_length
    rw [h0] at this
    exact List.length_eq_zero_iff.mp this
  · exact .inr ⟨v, _, hd, h.withBc _ (h.bc.deq _ v hd) (deq_keeps_synced h.bcSynced hd), h.bc.deq_visible _ v hd,
      (h.bc.deq_counts _ v hd).2, by rw [hd]⟩

theorem execParseStep_sound (s : State) (h : s.Inv) : Result.Sound (execParseStep s) := by
  by_cases hs : s.p.pstate = .idle
  · unfold execParseStep
    rw [if_pos hs]
    trivial
  · rcases execParseStep_cases s h hs with ⟨-, -, e⟩ | ⟨b, r, -, hi, -, -, e⟩
    · rw [e]
      exact parseOn_sound _ s h hs
    · rw [e]
      exact parseOn_sound _ _ hi hs

theorem startCall_inv (s : State) (h : s.Inv) : (startCall s).Inv :=
  { h with
    acc := ⟨Nat.zero_le _, fun _ => Nat.zero_le _, fun _ => Nat.zero_le _⟩
    resting := fun _ => rfl }

theorem parseLoop_sound (k : Nat) (s : State) (h : s.Inv) : Result.Sound (parseLoop k s) := by
  induction k generalizing s with
  | zero => exact execParseStep_sound s h
  | succ k ih =>
    refine (execParseStep_sound s h).andThen ?_
    intro t ht
    split
    · exact ht
    · exact ih t ht

theorem parseCall_sound (s : State) (h : s.Inv) : Result.Sound (parseCall s) :=
  parseLoop_sound _ _ (startCall_inv s h)

theorem forward_sound (r : ParseResult) (s : State) (h : s.Inv) : Result.Sound (forward r s) := by
  cases r with
  | ok c => exact execCcEnq_sound _ (wordOk_wordOfCommand c) _ h.withParNone
  | err => exact h.withParNone.emit _

theorem forwardHeld_sound (s : State) (h : s.Inv) : Result.Sound (forwardHeld s) := by
  unfold forwardHeld
  split
  · exact forward_sound _ s h
  · exact h

theorem execParseAndForward_sound (s : State) (h : s.Inv) : Result.Sound (execParseAndForward s) := by
  unfold execParseAndForward
  split
  · exact (parseCall_sound s h).andThen forwardHeld_sound
  · trivial

theorem parTurn_sound (s : State) (h : s.Inv) : Result.Sound (parTurn s) := by
  unfold parTurn
  split
  · exact forward_sound _ s h
  · split
    · exact startCall_inv s h
    · exact execParseStep_sound s h

theorem parseSteps_sound (k : Nat) (s : State) (h : s.Inv) : Result.Sound (parseSteps k s) := by
  induction k generalizing s with
  | zero => exact h
  | succ k ih => exact (execParseStep_sound s h).andThen ih

theorem wireCommand_sound (bytes : List Byte) (s : State) (h : s.Inv) : Result.Sound (wireCommand bytes s) := by
  unfold wireCommand
  split
  · trivial
  · split
    · exact parseSteps_sound _ s h
    · trivial

theorem execIncomplete_sound (p : Lead) (taken : List (BitVec 4)) (s : State) (h : s.Inv) :
    Result.Sound (execIncomplete p taken s) := by
  unfold execIncomplete
  split
  · trivial
  · split
    · exact parseSteps_sound _ s h
    · trivial

/-! ## Stepper, servo, control loop -/

theorem applyDirection_inv (s : State) (h : s.Inv) : (applyDirection s).Inv := by
  unfold applyDirection
  split
  · exact h.driveDir _
  · exact h

@[simp] theorem applyDirection_cfg (s : State) : (applyDirection s).cfg = s.cfg := by
  unfold applyDirection
  split <;> rfl

/-- The counter stays at or below `TICK_FREQUENCY`, and its increment does not wrap (42_step_pulse.md R160). -/
theorem tickStepper_bound (f : U32) (x : Stepper) (h : x.elapsedTicks ≤ f) :
    (tickStepper f x).elapsedTicks ≤ f := by
  unfold tickStepper
  split
  · simp [BitVec.le_def]
  · rename_i hlt
    unfold tickThreshold at hlt
    simp only [ge_iff_le, BitVec.le_def, not_le, BitVec.toNat_udiv] at hlt h ⊢
    have hd := Nat.div_le_self f.toNat x.speed.toNat
    have hf := f.isLt
    rw [BitVec.toNat_add, Nat.mod_eq_of_lt]
    · show x.elapsedTicks.toNat + 1 ≤ _
      omega
    · show x.elapsedTicks.toNat + 1 < _
      omega

theorem execAdvanceTick_sound (s : State) (h : s.Inv) : Result.Sound (execAdvanceTick s) := by
  unfold execAdvanceTick
  split
  · exact h.driveStep _
  · split
    · exact applyDirection_inv s h
    · refine ((applyDirection_inv s h).withStp _ ?_).driveStep _
      rw [applyDirection_cfg]
      exact tickStepper_bound _ _ h.ticks

theorem execAdvanceBlocking_sound (s : State) (h : s.Inv) : Result.Sound (execAdvanceBlocking s) := by
  unfold execAdvanceBlocking
  split
  · exact h
  · split
    · exact applyDirection_inv s h
    · exact ((((applyDirection_inv s h).driveStep _).emit _).driveStep _).emit _

theorem execSetDir_sound (d : Direction) (s : State) (h : s.Inv) : Result.Sound (execSetDir d s) :=
  h.withStp _ h.ticks

theorem execSetSpeed_sound (v : U32) (s : State) (h : s.Inv) : Result.Sound (execSetSpeed v s) :=
  h.withStp _ h.ticks

theorem execServoNew_sound (dz ma : U16) (s : State) (h : s.Inv) : Result.Sound (execServoNew dz ma s) := by
  unfold execServoNew
  split
  · split
    · rename_i he
      exact { h with servo := by rw [he.1, he.2]; rfl }
    · trivial
  · trivial

theorem execSetAngle_sound (a : U16) (s : State) (h : s.Inv) : Result.Sound (execSetAngle a s) := h.driveDuty _

theorem execCenter_sound (s : State) (h : s.Inv) : Result.Sound (execCenter s) := h.driveDuty _

theorem runCommand_sound (c : Command) (s : State) (h : s.Inv) : Result.Sound (runCommand c s) := by
  cases c with
  | setSpeed v => exact execSetSpeed_sound v s h
  | setDirection d => exact execSetDir_sound d s h
  | setServoAngle a => exact execSetAngle_sound a s h

theorem execDispatch_sound (w : CmdWord) (s : State) (h : s.Inv) : Result.Sound (execDispatch w s) := by
  unfold execDispatch
  split
  · exact runCommand_sound _ s h
  · trivial

theorem takeAndAdvance_sound (s : State) (h : s.Inv) : Result.Sound (takeAndAdvance s) := by
  unfold takeAndAdvance
  split
  · exact (execFlagTake_sound _ s h).andThen execAdvanceTick_sound
  · exact execFlagTake_sound _ s h

theorem execPulse_sound (s : State) (h : s.Inv) : Result.Sound (execPulse s) := by
  unfold execPulse
  split
  · exact execAdvanceBlocking_sound s h
  · split
    · exact takeAndAdvance_sound s h
    · exact h

theorem ctlDequeue_sound (s : State) (h : s.Inv) : Result.Sound (ctlDequeue s) := by
  unfold ctlDequeue
  rcases execCcDeq_cases s h with ⟨-, e⟩ | ⟨w, r, -, -, hw, hi, e⟩
  · rw [e]
    exact (h.withRes _).withCtl _ (by intro w hw; cases hw)
  · rw [e]
    exact (hi.withRes _).withCtl _ (by intro w' hw'; cases hw'; exact hw)

theorem ctlTurn_sound (s : State) (h : s.Inv) : Result.Sound (ctlTurn s) := by
  unfold ctlTurn
  split
  · exact ctlDequeue_sound s h
  · exact execDispatch_sound _ _ (h.withCtl _ (by intro w hw; cases hw))
  · exact execPulse_sound _ (h.withCtl _ (by intro w hw; cases hw))

theorem ctlFinish_sound (k : Nat) (s : State) (h : s.Inv) : Result.Sound (ctlFinish k s) := by
  induction k generalizing s with
  | zero => exact h
  | succ k ih =>
    unfold ctlFinish
    split
    · exact h
    · exact (ctlTurn_sound s h).andThen ih

theorem execControlIter_sound (s : State) (h : s.Inv) : Result.Sound (execControlIter s) := by
  unfold execControlIter
  split
  · exact (ctlTurn_sound s h).andThen (ctlFinish_sound 2)
  · trivial

/-! ## Events and reset -/

theorem raiseByte_inv (b : Byte) (s : State) (h : s.Inv) : (raiseByte b s).Inv := h.withRx _

theorem echoByte_inv (b : Byte) (s : State) (h : s.Inv) : (echoByte b s).Inv := by
  unfold echoByte
  split
  · exact h.emit _
  · exact h

theorem evtTurn_sound (s : State) (h : s.Inv) : Result.Sound (evtTurn s) := by
  unfold evtTurn
  split
  · split
    · exact h
    · exact ((echoByte_inv _ s h).withEvt _).withRx _
  · exact execBcEnq_sound _ _ (h.withEvt _)
  · exact execFlagSet_sound _ _ (h.withEvt _)

theorem execRxEvent_sound (b : Byte) (s : State) (h : s.Inv) : Result.Sound (execRxEvent b s) := by
  unfold execRxEvent
  split
  · exact ((evtTurn_sound _ (raiseByte_inv b s h)).andThen evtTurn_sound).andThen evtTurn_sound
  · exact raiseByte_inv b s h

theorem tickHandler_sound (s : State) (h : s.Inv) : Result.Sound (tickHandler s) := by
  unfold tickHandler
  split
  · exact execFlagSet_sound _ s h
  · exact execAdvanceTick_sound s h

theorem execTickEvent_sound (s : State) (h : s.Inv) : Result.Sound (execTickEvent s) := by
  unfold execTickEvent
  split
  · exact tickHandler_sound s h
  · trivial

end Sys2Proof.Machine
end

