-- ==== Sys2Proof/Laws/Parser.lean ====
section
/-! SUPPORT. Parser steps on the bytes the parser sees: one step, a run of steps, and a whole call, each as a function
of the byte list. -/

namespace Sys2Proof.Machine

variable {s : State}

/-! ## ByteChannel after some bytes were taken -/

/-- The state after `k` bytes were taken, with the given parser registers and result. -/
def State.took (s : State) (k : Nat) (p : Parser) (r : Option ParseResult) : State :=
  { s with bc := s.bcAfter k, p := p, par := r }

theorem bcAfter_zero (h : s.Inv) : s.bcAfter 0 = s.bc := by
  have hl := h.bc.head_lt
  unfold State.bcAfter
  rw [Nat.add_zero, Nat.mod_eq_of_lt hl]
  split
  · exact congrArg (fun x => Ring.mk s.bc.mem s.bc.tail s.bc.head x s.bc.tailSync) (h.synced ‹_›).1.1.symm
  · rfl

theorem took_bcAfter (s : State) (j k : Nat) (p : Parser) (r : Option ParseResult) :
    (s.took j p r).bcAfter k = s.bcAfter (j + k) := by
  have e : ((s.bc.head + j) % (2 * s.nBc) + k) % (2 * s.nBc) = (s.bc.head + (j + k)) % (2 * s.nBc) := by
    rw [Nat.mod_add_mod, Nat.add_assoc]
  show Ring.mk _ _ (((s.bc.head + j) % (2 * s.nBc) + k) % (2 * s.nBc))
    (if s.cfg.syncMode = .exact then ((s.bc.head + j) % (2 * s.nBc) + k) % (2 * s.nBc)
      else if s.cfg.syncMode = .exact then _ else _) _ = Ring.mk _ _ _ _ _
  rw [e]
  split <;> rfl

theorem took_took (s : State) (j k : Nat) (p q : Parser) (r r' : Option ParseResult) :
    (s.took j p r).took k q r' = s.took (j + k) q r' := by
  show { s.took j p r with bc := (s.took j p r).bcAfter k, p := q, par := r' } = _
  rw [took_bcAfter]
  rfl

theorem took_zero (h : s.Inv) (hp : s.p.pstate ≠ .idle) : s.took 0 s.p none = s := by
  unfold State.took
  rw [bcAfter_zero h, ← h.resting hp]

/-- A dequeue of ByteChannel leaves it one byte further. -/
theorem deq_bcAfter {b : Byte} {r : Ring Byte} (hd : s.bc.deq s.nBc s.cfg.isExact = .item b r) : r = s.bcAfter 1 := by
  obtain ⟨-, -, rfl⟩ := Ring.deq_item _ _ hd
  unfold State.bcAfter Config.isExact ptrNext
  simp only [decide_eq_true_eq]

/-! ## One step -/

/-- The result of the call after a transition that ends it. -/
def StepOut.result : StepOut → Option ParseResult
  | .continue => none
  | .done r => some r

theorem applyTransition_eq (t : Transition) (s : State) (hs : s.par = none) :
    applyTransition t s = { s with p := ⟨t.pstate, t.acc⟩, par := t.out.result } := by
  unfold applyTransition
  cases ht : t.out
  · simp [State.withP, StepOut.result, ← hs]
  · rfl

/-- PARSE_STEP where the channel is seen empty (41_parser.md R124). -/
theorem parseStep_none (h : s.Inv) (hp : s.p.pstate ≠ .idle) (hv : s.visibleBytes = []) :
    execParseStep s = .next (s.took 0 ⟨.idle, s.p.acc⟩ (some .err)) := by
  rcases execParseStep_cases s h hp with ⟨-, -, e⟩ | ⟨b, r, -, -, e, -, -⟩
  · rw [e]
    unfold parseOn
    have : ptrans s.p.pstate s.p.acc none = some ⟨.idle, s.p.acc, .done .err⟩ := by
      cases hq : s.p.pstate <;> first | exact absurd hq hp | rfl
    rw [this]
    simp [applyTransition_eq, h.resting hp, State.took, bcAfter_zero h, StepOut.result]
  · rw [hv] at e
    cases e

/-- PARSE_STEP where a byte is seen: it is consumed, and the transition is taken (41_parser.md R121). -/
theorem parseStep_some (h : s.Inv) {b : Byte} {bs : List Byte} (hv : s.visibleBytes = b :: bs) {t : Transition}
    (ht : ptrans s.p.pstate s.p.acc (some b) = some t) :
    execParseStep s = .next (s.took 1 ⟨t.pstate, t.acc⟩ t.out.result) ∧
      (s.took 1 ⟨t.pstate, t.acc⟩ t.out.result).Inv ∧
      (s.took 1 ⟨t.pstate, t.acc⟩ t.out.result).visibleBytes = bs := by
  have hp : s.p.pstate ≠ .idle := by
    intro hq
    rw [hq] at ht
    cases ht
  rcases execParseStep_cases s h hp with ⟨e, -, -⟩ | ⟨b', r, hd, hi, e, -, e'⟩
  · rw [hv] at e
    cases e
  · have hsound := execParseStep_sound s h
    rw [hv] at e
    injection e with hb hbs
    subst hb
    obtain rfl := deq_bcAfter hd
    have e1 : execParseStep s = .next (s.took 1 ⟨t.pstate, t.acc⟩ t.out.result) := by
      rw [e']
      unfold parseOn
      have ht' : ptrans (s.withBc (s.bcAfter 1)).p.pstate (s.withBc (s.bcAfter 1)).p.acc (some b) = some t := ht
      rw [ht']
      show Host.Outcome.next (applyTransition t (s.withBc (s.bcAfter 1))) = _
      rw [applyTransition_eq t (s.withBc (s.bcAfter 1)) (h.resting hp)]
      rfl
    rw [e1] at hsound
    exact ⟨e1, hsound, hbs.symm⟩

/-! ## A run of steps -/

/-- The parser's registers and result after it took the given bytes, none after the one that ends the call. -/
def runBytes (p : Parser) : List Byte → Option (Parser × Option ParseResult)
  | [] => if p.pstate = .idle then none else some (p, none)
  | b :: bs =>
    match ptrans p.pstate p.acc (some b) with
    | none => none
    | some t =>
      match t.out with
      | .continue => runBytes ⟨t.pstate, t.acc⟩ bs
      | .done r => if bs = [] then some (⟨t.pstate, t.acc⟩, some r) else none

/-- `k` parser steps on `k` bytes the parser sees. -/
theorem parseSteps_run (bs rest : List Byte) : ∀ s : State, s.Inv → s.visibleBytes = bs ++ rest →
    ∀ (q : Parser) (r : Option ParseResult), runBytes s.p bs = some (q, r) →
      parseSteps bs.length s = .next (s.took bs.length q r) ∧ (s.took bs.length q r).Inv ∧
        (s.took bs.length q r).visibleBytes = rest := by
  induction bs with
  | nil =>
    intro s h hv q r hr
    simp only [runBytes] at hr
    split at hr
    · cases hr
    · cases hr
      rw [List.length_nil, took_zero h ‹_›]
      exact ⟨rfl, h, hv⟩
  | cons b bs ih =>
    intro s h hv q r hr
    simp only [runBytes] at hr
    split at hr
    · cases hr
    · rename_i t ht
      obtain ⟨e1, hi, hv'⟩ := parseStep_some h hv ht
      have e2 : parseSteps (b :: bs).length s =
          parseSteps bs.length (s.took 1 ⟨t.pstate, t.acc⟩ t.out.result) := by
        show andThen (execParseStep s) (parseSteps bs.length) = _
        rw [e1]
        rfl
      split at hr
      · obtain ⟨e3, hi3, hv3⟩ := ih _ hi hv' q r hr
        rw [took_took, Nat.add_comm] at e3 hi3 hv3
        exact ⟨e2.trans e3, hi3, hv3⟩
      · rename_i r' hout
        split at hr
        · rename_i hbs
          subst hbs
          cases hr
          rw [hout] at e2 hi hv'
          exact ⟨e2, hi, hv'⟩
        · cases hr

/-- A wire command where its bytes are seen at a scan position. -/
theorem wireCommand_run (bs rest : List Byte) (h : s.Inv) (hp : s.p.pstate = .scan)
    (hv : s.visibleBytes = bs ++ rest) (q : Parser) (r : Option ParseResult) (hr : runBytes s.p bs = some (q, r)) :
    wireCommand bs s = .next (s.took bs.length q r) := by
  unfold wireCommand
  rw [if_neg (by rw [hp]; simp), if_pos (by rw [hv]; simp)]
  exact (parseSteps_run bs rest s h hv q r hr).1

/-- The parser's registers after it took the bytes of an attempt that is not over yet. -/
theorem runBytes_digit (st : PState) (acc : BitVec 10) (d : BitVec 4) (hd : digitOk d = true) :
    runBytes ⟨st, acc⟩ [digitByte d] =
      (match st with
      | .aD0 => some (⟨.aD1, BitVec.ofNat 10 d.toNat⟩, none)
      | .aD1 => some (⟨.aD2, BitVec.ofNat 10 (acc.toNat * 10 + d.toNat)⟩, none)
      | .aD2 => some (⟨.idle, BitVec.ofNat 10 (acc.toNat * 10 + d.toNat)⟩,
          some (.ok (angleCommand (acc.toNat * 10 + d.toNat))))
      | .sD0 => some (⟨.sD1, BitVec.ofNat 10 d.toNat⟩, none)
      | .sD1 => some (⟨.sD2, BitVec.ofNat 10 (acc.toNat * 10 + d.toNat)⟩, none)
      | .sD2 => some (⟨.idle, BitVec.ofNat 10 (acc.toNat * 10 + d.toNat)⟩,
          some (.ok (speedCommand (acc.toNat * 10 + d.toNat))))
      | .idle | .scan | .dArg => runBytes ⟨st, acc⟩ [digitByte d]) := by
  cases st <;> simp [runBytes, ptrans, onDigit, isDigit_digitByte d hd, digitVal_digitByte, accPut, accNext]

/-! ## A whole call -/

/-- What the steps of a call make of the bytes the parser sees: the result and the bytes left. -/
def callBytes (p : Parser) : List Byte → ParseResult × List Byte
  | [] => (.err, [])
  | b :: bs =>
    match ptrans p.pstate p.acc (some b) with
    | none => (.err, bs)
    | some t =>
      match t.out with
      | .continue => callBytes ⟨t.pstate, t.acc⟩ bs
      | .done r => (r, bs)

theorem callBytes_length (bs : List Byte) : ∀ p : Parser, (callBytes p bs).2.length ≤ bs.length := by
  induction bs with
  | nil =>
    intro p
    exact le_rfl
  | cons b bs ih =>
    intro p
    simp only [callBytes, List.length_cons]
    split
    · exact Nat.le_succ _
    · split
      · exact Nat.le_succ_of_le (ih _)
      · exact Nat.le_succ _

/-- The loop of a call (41_parser.md R120), as a function of what the parser sees. -/
theorem parseLoop_call (bs : List Byte) : ∀ (k : Nat) (s : State), bs.length ≤ k → s.Inv → s.p.pstate ≠ .idle →
    s.visibleBytes = bs → ∃ acc,
      parseLoop k s = .next (s.took (bs.length - (callBytes s.p bs).2.length) ⟨.idle, acc⟩
        (some (callBytes s.p bs).1)) ∧
      (s.took (bs.length - (callBytes s.p bs).2.length) ⟨.idle, acc⟩ (some (callBytes s.p bs).1)).visibleBytes =
        (callBytes s.p bs).2 := by
  induction bs with
  | nil =>
    intro k s _ h hp hv
    refine ⟨s.p.acc, ?_, ?_⟩
    · have e := parseStep_none h hp hv
      cases k with
      | zero => exact e
      | succ k =>
        show andThen (execParseStep s) _ = _
        rw [e]
        rfl
    · show State.visibleBytes { s with bc := s.bcAfter 0, p := _, par := _ } = []
      rw [bcAfter_zero h]
      exact hv
  | cons b bs ih =>
    intro k s hk h hp hv
    obtain ⟨t, ht⟩ := ptrans_some s.p.pstate s.p.acc (some b) hp
    obtain ⟨-, hc⟩ := ptrans_ok s.p (some b) t h.acc ht
    obtain ⟨e1, hi, hv'⟩ := parseStep_some h hv ht
    cases k with
    | zero => simp at hk
    | succ k =>
      have e2 : parseLoop (k + 1) s = if t.pstate = .idle then .next (s.took 1 ⟨t.pstate, t.acc⟩ t.out.result)
          else parseLoop k (s.took 1 ⟨t.pstate, t.acc⟩ t.out.result) := by
        show andThen (execParseStep s) _ = _
        rw [e1]
        rfl
      simp only [callBytes, ht]
      have hlen := callBytes_length bs ⟨t.pstate, t.acc⟩
      by_cases hcont : t.out = .continue
      · rw [hcont] at e2 hi hv'
        rw [hcont]
        obtain ⟨acc, e3, e4⟩ := ih k _ (by simpa using hk) hi (hc.mp hcont) hv'
        have e5 : 1 + (bs.length - (callBytes ⟨t.pstate, t.acc⟩ bs).2.length) =
            (b :: bs).length - (callBytes ⟨t.pstate, t.acc⟩ bs).2.length := by
          rw [List.length_cons]
          omega
        refine ⟨acc, ?_, ?_⟩
        · rw [e2, if_neg (hc.mp hcont)]
          refine e3.trans ?_
          rw [took_took]
          exact congrArg (fun j => Host.Outcome.next (s.took j _ _)) e5
        · rw [took_took] at e4
          exact (congrArg (fun j => (s.took j _ _).visibleBytes) e5.symm).trans e4
      · have hidle : t.pstate = .idle := by
          by_contra hne
          exact hcont (hc.mpr hne)
        rw [if_pos hidle] at e2
        have e5 : (b :: bs).length - bs.length = 1 := by
          rw [List.length_cons]
          omega
        obtain ⟨r, hout⟩ : ∃ r, t.out = .done r := by
          cases hq : t.out
          · exact absurd hq hcont
          · exact ⟨_, rfl⟩
        rw [hout, hidle] at e2 hv'
        rw [hout]
        exact ⟨t.acc, e2.trans (congrArg (fun j => Host.Outcome.next (s.took j _ _)) e5.symm),
          (congrArg (fun j => (s.took j _ _).visibleBytes) e5).trans hv'⟩

/-- A whole call from any state: what it makes of the bytes the parser sees, and how far it takes ByteChannel. -/
theorem parseCall_eq (h : s.Inv) : ∃ acc,
    parseCall s = .next (s.took (s.visibleBytes.length - (callBytes ⟨.scan, 0⟩ s.visibleBytes).2.length) ⟨.idle, acc⟩
      (some (callBytes ⟨.scan, 0⟩ s.visibleBytes).1)) ∧
    (s.took (s.visibleBytes.length - (callBytes ⟨.scan, 0⟩ s.visibleBytes).2.length) ⟨.idle, acc⟩
      (some (callBytes ⟨.scan, 0⟩ s.visibleBytes).1)).visibleBytes = (callBytes ⟨.scan, 0⟩ s.visibleBytes).2 :=
  parseLoop_call s.visibleBytes (s.bc.seen s.nBc) (startCall s) (le_of_eq h.bc.visible_length) (startCall_inv s h)
    (fun e => PState.noConfusion e) rfl

/-- PARSE keeps the invariant: the call ends in IDLE, and what the parsing side held is back. -/
theorem execParse_sound (s : State) (h : s.Inv) : Result.Sound (execParse s) := by
  unfold execParse
  split
  · obtain ⟨acc, e, -⟩ := parseCall_eq h
    have hs := parseCall_sound s h
    rw [e] at hs ⊢
    exact (State.Inv.withRes hs _).withPar _ fun hne => absurd rfl hne
  · trivial

/-! ## A call on a byte list is `parse_list` (41_parser.md R137) -/

theorem callBytes_digit0 (acc : BitVec 10) (b : Byte) (bs : List Byte) :
    callBytes ⟨.aD0, acc⟩ (b :: bs) =
        (if isDigit b then callBytes ⟨.aD1, BitVec.ofNat 10 (digitVal b)⟩ bs else callBytes ⟨.scan, acc⟩ bs) ∧
      callBytes ⟨.sD0, acc⟩ (b :: bs) =
        (if isDigit b then callBytes ⟨.sD1, BitVec.ofNat 10 (digitVal b)⟩ bs else callBytes ⟨.scan, acc⟩ bs) := by
  by_cases hb : isDigit b = true <;> simp [callBytes, ptrans, onDigit, hb]

theorem callBytes_digit1 (acc : BitVec 10) (b : Byte) (bs : List Byte) :
    callBytes ⟨.aD1, acc⟩ (b :: bs) =
        (if isDigit b then callBytes ⟨.aD2, accPut acc b⟩ bs else callBytes ⟨.scan, acc⟩ bs) ∧
      callBytes ⟨.sD1, acc⟩ (b :: bs) =
        (if isDigit b then callBytes ⟨.sD2, accPut acc b⟩ bs else callBytes ⟨.scan, acc⟩ bs) := by
  by_cases hb : isDigit b = true <;> simp [callBytes, ptrans, onDigit, hb]

theorem callBytes_digit2 (acc : BitVec 10) (b : Byte) (bs : List Byte) :
    callBytes ⟨.aD2, acc⟩ (b :: bs) =
        (if isDigit b then (.ok (angleCommand (accNext acc b)), bs) else callBytes ⟨.scan, acc⟩ bs) ∧
      callBytes ⟨.sD2, acc⟩ (b :: bs) =
        (if isDigit b then (.ok (speedCommand (accNext acc b)), bs) else callBytes ⟨.scan, acc⟩ bs) := by
  by_cases hb : isDigit b = true <;> simp [callBytes, ptrans, onDigit, hb]

theorem callBytes_scan (acc : BitVec 10) (b : Byte) (bs : List Byte) :
    callBytes ⟨.scan, acc⟩ (b :: bs) =
      (match leadOf b with
      | some .angle => callBytes ⟨.aD0, 0⟩ bs
      | some .speed => callBytes ⟨.sD0, 0⟩ bs
      | some .direction => callBytes ⟨.dArg, acc⟩ bs
      | none => callBytes ⟨.scan, acc⟩ bs) := by
  simp only [callBytes, ptrans, scanByte]
  rcases leadOf b with _ | p
  · rfl
  · cases p <;> rfl

theorem callBytes_arg (acc : BitVec 10) (b : Byte) (bs : List Byte) :
    callBytes ⟨.dArg, acc⟩ (b :: bs) =
      (match directionOf b with
      | some d => (.ok (.setDirection d), bs)
      | none => callBytes ⟨.scan, acc⟩ bs) := by
  simp only [callBytes, ptrans, argByte]
  cases directionOf b <;> rfl

/-- Three digits, and the accumulator's 10 bits, which they never leave (41_parser.md R133). -/
theorem accNext_three (b0 b1 b2 : Byte) (h0 : isDigit b0 = true) (h1 : isDigit b1 = true) :
    accNext (accPut (BitVec.ofNat 10 (digitVal b0)) b1) b2 =
      (digitVal b0 * 10 + digitVal b1) * 10 + digitVal b2 := by
  have d0 := digitVal_le _ h0
  have d1 := digitVal_le _ h1
  unfold accPut accNext
  rw [ofNat10_toNat _ (by rw [ofNat10_toNat _ (by omega)]; omega), ofNat10_toNat _ (by omega)]

theorem digitsList_bad_length (left : Nat) : ∀ (acc : Nat) (bs rest : List Byte), digitsList left acc bs = .bad rest →
    rest.length < bs.length := by
  induction left with
  | zero =>
    intro acc bs rest h
    cases h
  | succ left ih =>
    intro acc bs rest h
    cases bs with
    | nil => cases h
    | cons b bs =>
      simp only [digitsList] at h
      split at h
      · exact Nat.lt_succ_of_lt (ih _ _ _ h)
      · cases h
        exact Nat.lt_succ_self _

/-- The bound on the attempts does not matter once it exceeds the bytes. -/
theorem parseListFuel_eq (k : Nat) : ∀ (j : Nat) (bs : List Byte), bs.length < k → bs.length < j →
    parseListFuel k bs = parseListFuel j bs := by
  induction k with
  | zero =>
    intro j bs h
    exact absurd h (Nat.not_lt_zero _)
  | succ k ih =>
    intro j bs hk hj
    cases j with
    | zero => exact absurd hj (Nat.not_lt_zero _)
    | succ j =>
      cases bs with
      | nil => rfl
      | cons b bs =>
        rw [List.length_cons] at hk hj
        have shorter : ∀ rest : List Byte, rest.length ≤ bs.length → parseListFuel k rest = parseListFuel j rest :=
          fun rest h => ih j rest (by omega) (by omega)
        simp only [parseListFuel]
        split
        · split
          · rfl
          · rename_i hd
            exact shorter _ (Nat.le_of_lt (digitsList_bad_length _ _ _ _ hd))
          · rfl
        · split
          · rfl
          · rename_i hd
            exact shorter _ (Nat.le_of_lt (digitsList_bad_length _ _ _ _ hd))
          · rfl
        · split
          · rfl
          · split
            · rfl
            · exact shorter _ (Nat.le_succ _)
        · exact shorter _ le_rfl

end Sys2Proof.Machine
end

