-- ==== Sys2Proof/Laws/Frame.lean ====
section
/-! SUPPORT. What every meaning leaves alone: the configuration, what the trace already holds, and (for the agents'
steps) the schedule. -/

namespace Sys2Proof.Machine

/-! ## Configuration and trace -/

/-- Where the answer is a next state: the configuration is kept and the trace only grows. -/
def Result.Follows (s : State) (o : Result) : Prop :=
  match o with
  | .next t => t.cfg = s.cfg ∧ ∃ es, t.trace = s.trace ++ es
  | .fault _ => True
  | .refused _ => True

theorem Result.Follows.andThen {s : State} {o : Result} {f : State → Result} (h : Result.Follows s o)
    (hf : ∀ t, Result.Follows t (f t)) : Result.Follows s (andThen o f) := by
  cases o with
  | next t =>
    obtain ⟨h1, es, h2⟩ := h
    have ht := hf t
    show Result.Follows s (f t)
    cases hft : f t with
    | next u =>
      rw [hft] at ht
      obtain ⟨h3, es', h4⟩ := ht
      exact ⟨h3.trans h1, es ++ es', by rw [h4, h2, List.append_assoc]⟩
    | fault r => trivial
    | refused r => trivial
  | fault r => trivial
  | refused r => trivial

theorem follows_same {s t : State} (h1 : t.cfg = s.cfg) (h2 : t.trace = s.trace) : Result.Follows s (.next t) :=
  ⟨h1, [], by rw [h2, List.append_nil]⟩

theorem execBcEnq_follows (b : Byte) (s : State) : Result.Follows s (execBcEnq b s) := by
  unfold execBcEnq
  split
  · exact ⟨rfl, _, rfl⟩
  · exact follows_same rfl rfl

theorem execBcDeq_follows (s : State) : Result.Follows s (execBcDeq s) := by
  unfold execBcDeq
  split
  · exact follows_same rfl rfl
  · exact follows_same rfl rfl
  · trivial

theorem execCcEnq_follows (w : CmdWord) (s : State) : Result.Follows s (execCcEnq w s) := by
  unfold execCcEnq
  split
  · exact ⟨rfl, _, rfl⟩
  · exact follows_same rfl rfl

theorem execCcDeq_follows (s : State) : Result.Follows s (execCcDeq s) := by
  unfold execCcDeq
  split
  · exact follows_same rfl rfl
  · exact follows_same rfl rfl
  · trivial

theorem execSyncTail_follows (ch : ChannelId) (v : Nat) (s : State) : Result.Follows s (execSyncTail ch v s) := by
  unfold execSyncTail
  split <;> split <;> first | exact follows_same rfl rfl | trivial

theorem execSyncHead_follows (ch : ChannelId) (v : Nat) (s : State) : Result.Follows s (execSyncHead ch v s) := by
  unfold execSyncHead
  split <;> split <;> first | exact follows_same rfl rfl | trivial

theorem applyTransition_cfg (t : Transition) (s : State) : (applyTransition t s).cfg = s.cfg := by
  unfold applyTransition
  split <;> rfl

theorem applyTransition_trace (t : Transition) (s : State) : (applyTransition t s).trace = s.trace := by
  unfold applyTransition
  split <;> rfl

theorem parseOn_follows (r : Option Byte) (s : State) : Result.Follows s (parseOn r s) := by
  unfold parseOn
  split
  · exact follows_same (applyTransition_cfg _ _) (applyTransition_trace _ _)
  · trivial

theorem execParseStep_follows (s : State) : Result.Follows s (execParseStep s) := by
  unfold execParseStep
  split
  · trivial
  · split
    · exact parseOn_follows _ _
    · exact parseOn_follows _ (s.withBc _)
    · trivial

theorem parseLoop_follows (k : Nat) : ∀ s : State, Result.Follows s (parseLoop k s) := by
  induction k with
  | zero => exact execParseStep_follows
  | succ k ih =>
    intro s
    refine (execParseStep_follows s).andThen fun t => ?_
    split
    · exact follows_same rfl rfl
    · exact ih t

theorem parseCall_follows (s : State) : Result.Follows s (parseCall s) := parseLoop_follows _ (startCall s)

theorem execParse_follows (s : State) : Result.Follows s (execParse s) := by
  unfold execParse
  split
  · refine (parseCall_follows s).andThen fun t => ?_
    unfold reportParse
    split <;> exact follows_same rfl rfl
  · trivial

theorem forward_follows (r : ParseResult) (s : State) : Result.Follows s (forward r s) := by
  cases r with
  | ok c => exact execCcEnq_follows _ (s.withPar none)
  | err => exact ⟨rfl, _, rfl⟩

theorem execParseAndForward_follows (s : State) : Result.Follows s (execParseAndForward s) := by
  unfold execParseAndForward
  split
  · refine (parseCall_follows s).andThen fun t => ?_
    unfold forwardHeld
    split
    · exact forward_follows _ _
    · exact follows_same rfl rfl
  · trivial

theorem parTurn_follows (s : State) : Result.Follows s (parTurn s) := by
  unfold parTurn
  split
  · exact forward_follows _ _
  · split
    · exact follows_same rfl rfl
    · exact execParseStep_follows s

theorem parseSteps_follows (k : Nat) : ∀ s : State, Result.Follows s (parseSteps k s) := by
  induction k with
  | zero =>
    intro s
    exact follows_same rfl rfl
  | succ k ih =>
    intro s
    exact (execParseStep_follows s).andThen ih

theorem wireCommand_follows (bytes : List Byte) (s : State) : Result.Follows s (wireCommand bytes s) := by
  unfold wireCommand
  split
  · trivial
  · split
    · exact parseSteps_follows _ _
    · trivial

theorem execIncomplete_follows (p : Lead) (taken : List (BitVec 4)) (s : State) :
    Result.Follows s (execIncomplete p taken s) := by
  unfold execIncomplete
  split
  · trivial
  · split
    · exact parseSteps_follows _ _
    · trivial

/-- The direction line of both variants writes the pins and the trace only. -/
theorem applyDirection_eq (s : State) :
    applyDirection s = { s with pin := (applyDirection s).pin, trace := (applyDirection s).trace } := by
  unfold applyDirection
  split <;> rfl

theorem applyDirection_trace (s : State) : ∃ es, (applyDirection s).trace = s.trace ++ es := by
  unfold applyDirection
  split
  · exact ⟨_, rfl⟩
  · exact ⟨[], (List.append_nil _).symm⟩

theorem execAdvanceTick_follows (s : State) : Result.Follows s (execAdvanceTick s) := by
  obtain ⟨es, h⟩ := applyDirection_trace s
  unfold execAdvanceTick
  split
  · exact ⟨rfl, _, rfl⟩
  · split
    · exact ⟨applyDirection_cfg s, es, h⟩
    · exact ⟨applyDirection_cfg s, _, by rw [State.driveStep_trace, State.withStp_trace, h, List.append_assoc]⟩

theorem execAdvanceBlocking_follows (s : State) : Result.Follows s (execAdvanceBlocking s) := by
  obtain ⟨es, h⟩ := applyDirection_trace s
  unfold execAdvanceBlocking
  split
  · exact follows_same rfl rfl
  · split
    · exact ⟨applyDirection_cfg s, es, h⟩
    · unfold blockingPulse
      refine ⟨by simp only [State.emit_cfg, State.driveStep_cfg, applyDirection_cfg],
        es ++ [.pinWrite .step .high, .wait (halfPeriod s.cfg.basePeriod s.stp.speed), .pinWrite .step .low,
          .wait (halfPeriod s.cfg.basePeriod s.stp.speed)], ?_⟩
      simp only [State.emit_trace, State.driveStep_trace, h, List.append_assoc]
      rfl

theorem runCommand_follows (c : Command) (s : State) : Result.Follows s (runCommand c s) := by
  cases c with
  | setSpeed v => exact follows_same rfl rfl
  | setDirection d => exact follows_same rfl rfl
  | setServoAngle a => exact ⟨rfl, _, rfl⟩

theorem execDispatch_follows (w : CmdWord) (s : State) : Result.Follows s (execDispatch w s) := by
  unfold execDispatch
  split
  · exact runCommand_follows _ _
  · trivial

theorem execFlagTake_follows (f : FlagId) (s : State) : Result.Follows s (execFlagTake f s) := follows_same rfl rfl

theorem execPulse_follows (s : State) : Result.Follows s (execPulse s) := by
  unfold execPulse takeAndAdvance
  split
  · exact execAdvanceBlocking_follows s
  · split
    · split
      · exact (execFlagTake_follows _ s).andThen execAdvanceTick_follows
      · exact execFlagTake_follows _ s
    · exact follows_same rfl rfl

theorem ctlTurn_follows (s : State) : Result.Follows s (ctlTurn s) := by
  unfold ctlTurn
  split
  · refine (execCcDeq_follows s).andThen fun t => ?_
    split <;> exact follows_same rfl rfl
  · exact execDispatch_follows _ (s.withCtl .pulse)
  · exact execPulse_follows (s.withCtl .top)

theorem ctlFinish_follows (k : Nat) : ∀ s : State, Result.Follows s (ctlFinish k s) := by
  induction k with
  | zero =>
    intro s
    exact follows_same rfl rfl
  | succ k ih =>
    intro s
    unfold ctlFinish
    split
    · exact follows_same rfl rfl
    · exact (ctlTurn_follows s).andThen ih

theorem execControlIter_follows (s : State) : Result.Follows s (execControlIter s) := by
  unfold execControlIter
  split
  · exact (ctlTurn_follows s).andThen (ctlFinish_follows 2)
  · trivial

theorem execServoNew_follows (dz ma : U16) (s : State) : Result.Follows s (execServoNew dz ma s) := by
  unfold execServoNew
  split
  · split
    · exact follows_same rfl rfl
    · trivial
  · trivial

theorem raiseByte_follows (b : Byte) (s : State) : Result.Follows s (.next (raiseByte b s)) := follows_same rfl rfl

theorem evtTurn_follows (s : State) : Result.Follows s (evtTurn s) := by
  unfold evtTurn
  split
  · split
    · exact follows_same rfl rfl
    · unfold echoByte
      split
      · exact ⟨rfl, _, rfl⟩
      · exact follows_same rfl rfl
  · exact execBcEnq_follows _ (s.withEvt .setFlag)
  · exact follows_same rfl rfl

theorem execRxEvent_follows (b : Byte) (s : State) : Result.Follows s (execRxEvent b s) := by
  unfold execRxEvent
  split
  · exact ((evtTurn_follows (raiseByte b s)).andThen evtTurn_follows).andThen evtTurn_follows
  · exact raiseByte_follows b s

theorem tickHandler_follows (s : State) : Result.Follows s (tickHandler s) := by
  unfold tickHandler
  split
  · exact follows_same rfl rfl
  · exact execAdvanceTick_follows s

theorem execTickEvent_follows (s : State) : Result.Follows s (execTickEvent s) := by
  unfold execTickEvent
  split
  · exact tickHandler_follows s
  · trivial

/-! ## The loop's position and the schedule are not read by what runs below them -/

/-- Change a next state. -/
def Result.map (f : State → State) (o : Result) : Result := andThen o (fun t => .next (f t))

theorem applyDirection_withCtl (s : State) (c : CtlPos) : applyDirection (s.withCtl c) = (applyDirection s).withCtl c := by
  unfold applyDirection
  rw [State.withCtl_stp]
  split <;> rfl

theorem execAdvanceTick_withCtl (s : State) (c : CtlPos) :
    execAdvanceTick (s.withCtl c) = (execAdvanceTick s).map (·.withCtl c) := by
  unfold execAdvanceTick
  rw [applyDirection_withCtl, State.withCtl_stp, State.withCtl_cfg]
  by_cases h : s.stp.direction = .stop
  · rw [if_pos h, if_pos h]
    rfl
  · rw [if_neg h, if_neg h]
    by_cases h : s.stp.speed = 0
    · rw [if_pos h, if_pos h]
      rfl
    · rw [if_neg h, if_neg h]
      rfl

theorem execAdvanceBlocking_withCtl (s : State) (c : CtlPos) :
    execAdvanceBlocking (s.withCtl c) = (execAdvanceBlocking s).map (·.withCtl c) := by
  unfold execAdvanceBlocking
  rw [applyDirection_withCtl, State.withCtl_stp, State.withCtl_cfg]
  by_cases h : s.stp.direction = .stop
  · rw [if_pos h, if_pos h]
    rfl
  · rw [if_neg h, if_neg h]
    by_cases h : s.stp.speed = 0
    · rw [if_pos h, if_pos h]
      rfl
    · rw [if_neg h, if_neg h]
      rfl

theorem runCommand_withCtl (cmd : Command) (s : State) (c : CtlPos) :
    runCommand cmd (s.withCtl c) = (runCommand cmd s).map (·.withCtl c) := by
  cases cmd <;> rfl

theorem execParseStep_withSched (s : State) (x : List Turn) :
    execParseStep (s.withSched x) = (execParseStep s).map (·.withSched x) := by
  have hon : ∀ (r : Option Byte) (u : State), parseOn r (u.withSched x) = (parseOn r u).map (·.withSched x) := by
    intro r u
    unfold parseOn
    rw [State.withSched_p]
    split
    · rename_i t _
      unfold applyTransition
      split <;> rfl
    · rfl
  unfold execParseStep
  rw [State.withSched_p, State.withSched_bc, State.withSched_nBc, State.withSched_cfg]
  split
  · rfl
  · split
    · exact hon none s
    · exact hon _ (s.withBc _)
    · rfl

theorem forward_withSched (r : ParseResult) (s : State) (x : List Turn) :
    forward r (s.withSched x) = (forward r s).map (·.withSched x) := by
  cases r with
  | ok c =>
    unfold forward execCcEnq
    simp only [State.withPar_cc, State.withPar_nCc, State.withPar_cfg, State.withSched_cc, State.withSched_nCc,
      State.withSched_cfg]
    split <;> rfl
  | err => rfl

theorem parTurn_withSched (s : State) (x : List Turn) : parTurn (s.withSched x) = (parTurn s).map (·.withSched x) := by
  unfold parTurn
  rw [State.withSched_par, State.withSched_p]
  split
  · exact forward_withSched _ s x
  · split
    · rfl
    · exact execParseStep_withSched s x

theorem evtTurn_withSched (s : State) (x : List Turn) : evtTurn (s.withSched x) = (evtTurn s).map (·.withSched x) := by
  unfold evtTurn
  rw [State.withSched_evt, State.withSched_rx]
  split
  · split
    · rfl
    · unfold echoByte
      rw [State.withSched_cfg]
      split <;> rfl
  · unfold execBcEnq
    simp only [State.withEvt_bc, State.withEvt_nBc, State.withEvt_cfg, State.withSched_bc, State.withSched_nBc,
      State.withSched_cfg]
    split <;> rfl
  · rfl

end Sys2Proof.Machine
end

