-- ==== Sys2Proof/Laws/PerInstr.lean ====
section
/-! SUPPORT. Laws stated for every instruction, one lemma per constructor. -/

namespace Sys2Proof.Laws.WireLength

/-- 30_encoding.md R74, R75: a well-formed instruction that is bytes of the wire has 1 to 4 of them, the first its prefix
where it has more than one. -/
def Statement (i : Instr) : Prop :=
  i.wellFormed = true → ∀ bytes, encode i = .wire bytes →
    1 ≤ bytes.length ∧ bytes.length ≤ 4 ∧ (1 < bytes.length → (bytes.head?.bind leadOf).isSome = true)

/-- A code of another level has no bytes. -/
theorem of_not_wire {i : Instr} (h : ∀ bytes, encode i ≠ .wire bytes) : Statement i :=
  fun _ bytes he => absurd he (h bytes)

/-- An attempt is its prefix, then at most three more bytes. -/
theorem of_attempt {i : Instr} (p : Lead) (more : List Byte) (he : encode i = .wire (leadByte p :: more))
    (hl : i.wellFormed = true → more.length ≤ 3) : Statement i := by
  intro hw bytes hb
  rw [he] at hb
  cases hb
  have := hl hw
  refine ⟨by simp, by rw [List.length_cons]; omega, fun _ => ?_⟩
  cases p <;> rfl

/-- How many payload items a failed attempt took. -/
theorem taken_le {p : Lead} {taken : List (BitVec 4)} (h : takenOk p taken = true) : taken.length ≤ 2 := by
  simp only [takenOk, Bool.and_eq_true, decide_eq_true_eq] at h
  have h2 : takenMax p ≤ 2 := by cases p <;> decide
  exact le_trans h.1 h2

theorem a (d0 d1 d2 : BitVec 4) : Statement (.a d0 d1 d2) := of_attempt .angle _ rfl (fun _ => by simp)

theorem s (d0 d1 d2 : BitVec 4) : Statement (.s d0 d1 d2) := of_attempt .speed _ rfl (fun _ => by simp)

theorem df : Statement .df := of_attempt .direction _ rfl (fun _ => by simp)

theorem db : Statement .db := of_attempt .direction _ rfl (fun _ => by simp)

theorem ds : Statement .ds := of_attempt .direction _ rfl (fun _ => by simp)

theorem skip (b : Byte) : Statement (.skip b) := by
  intro _ bytes he
  cases he
  simp

theorem malformed (p : Lead) (taken : List (BitVec 4)) (bad : Byte) : Statement (.malformed p taken bad) := by
  refine of_attempt p (taken.map digitByte ++ [bad]) rfl (fun hw => ?_)
  have := taken_le (p := p) (taken := taken) (by simp only [Instr.wellFormed, Bool.and_eq_true] at hw; exact hw.1)
  simp only [List.length_append, List.length_map, List.length_cons, List.length_nil]
  omega

theorem incomplete (p : Lead) (taken : List (BitVec 4)) : Statement (.incomplete p taken) := by
  refine of_attempt p (taken.map digitByte) rfl (fun hw => ?_)
  have := taken_le (p := p) (taken := taken) hw
  rw [List.length_map]
  omega

theorem cmdSetSpeed (v : U32) : Statement (.cmdSetSpeed v) := of_not_wire (fun _ => nofun)

theorem cmdSetDirection (d : Direction) : Statement (.cmdSetDirection d) := of_not_wire (fun _ => nofun)

theorem cmdSetServoAngle (angle : U16) : Statement (.cmdSetServoAngle angle) := of_not_wire (fun _ => nofun)

theorem cmdReserved (payload : U32) : Statement (.cmdReserved payload) := of_not_wire (fun _ => nofun)

theorem bcEnq (b : Byte) : Statement (.bcEnq b) := of_not_wire (fun _ => nofun)

theorem bcDeq : Statement .bcDeq := of_not_wire (fun _ => nofun)

theorem ccEnq (w : CmdWord) : Statement (.ccEnq w) := of_not_wire (fun _ => nofun)

theorem ccDeq : Statement .ccDeq := of_not_wire (fun _ => nofun)

theorem parse : Statement .parse := of_not_wire (fun _ => nofun)

theorem setDir (d : Direction) : Statement (.setDir d) := of_not_wire (fun _ => nofun)

theorem setSpeed (v : U32) : Statement (.setSpeed v) := of_not_wire (fun _ => nofun)

theorem advanceTick : Statement .advanceTick := of_not_wire (fun _ => nofun)

theorem advanceBlocking : Statement .advanceBlocking := of_not_wire (fun _ => nofun)

theorem setAngle (angle : U16) : Statement (.setAngle angle) := of_not_wire (fun _ => nofun)

theorem center : Statement .center := of_not_wire (fun _ => nofun)

theorem flagSet (f : FlagId) : Statement (.flagSet f) := of_not_wire (fun _ => nofun)

theorem flagTake (f : FlagId) : Statement (.flagTake f) := of_not_wire (fun _ => nofun)

theorem hold : Statement .hold := of_not_wire (fun _ => nofun)

theorem setAccel (v : U32) : Statement (.setAccel v) := of_not_wire (fun _ => nofun)

theorem estop : Statement .estop := of_not_wire (fun _ => nofun)

theorem syncTail (ch : ChannelId) (v : Nat) : Statement (.syncTail ch v) := of_not_wire (fun _ => nofun)

theorem syncHead (ch : ChannelId) (v : Nat) : Statement (.syncHead ch v) := of_not_wire (fun _ => nofun)

theorem parseStep : Statement .parseStep := of_not_wire (fun _ => nofun)

theorem parseAndForward : Statement .parseAndForward := of_not_wire (fun _ => nofun)

theorem dispatch (w : CmdWord) : Statement (.dispatch w) := of_not_wire (fun _ => nofun)

theorem controlIter : Statement .controlIter := of_not_wire (fun _ => nofun)

theorem pulse : Statement .pulse := of_not_wire (fun _ => nofun)

theorem servoNew (dutyAtZero maxAngle : U16) :
    Statement (.servoNew dutyAtZero maxAngle) := of_not_wire (fun _ => nofun)

theorem rxEvent (b : Byte) : Statement (.rxEvent b) := of_not_wire (fun _ => nofun)

theorem tickEvent : Statement .tickEvent := of_not_wire (fun _ => nofun)

theorem reset : Statement .reset := of_not_wire (fun _ => nofun)

end Sys2Proof.Laws.WireLength
end

