-- ==== Sys2Proof/Laws/Queue.lean ====
section
/-! SUPPORT. How the operations move a channel: items leave at the front, one may be added at the end. -/

namespace Sys2Proof.Machine

variable {α : Type} {n : Nat} {r r' r'' : Ring α}

/-- Items were only taken, from the front, as many as the read pointer advanced. -/
def Ring.Drained (n : Nat) (r r' : Ring α) : Prop :=
  ∃ k, k ≤ r.len n ∧ r'.contents n = (r.contents n).drop k ∧ ptrSub n r'.head r.head = k ∧ r'.tail = r.tail

theorem Ring.Drained.refl (h : r.Inv n) : Ring.Drained n r r :=
  ⟨0, Nat.zero_le _, rfl, ptrSub_self n _ h.head_lt, rfl⟩

theorem Ring.Drained.trans (h : r.Inv n) (h' : r'.Inv n) (h'' : r''.Inv n) (a : Ring.Drained n r r')
    (b : Ring.Drained n r' r'') : Ring.Drained n r r'' := by
  obtain ⟨k, a1, a2, a3, a4⟩ := a
  obtain ⟨j, b1, b2, b3, b4⟩ := b
  have hl := h'.contents_length
  rw [a2, List.length_drop, h.contents_length] at hl
  refine ⟨k + j, by omega, by rw [b2, a2, List.drop_drop], ?_, b4.trans a4⟩
  have hn := h.len_le
  have x1 := h.head_lt
  have x2 := h'.head_lt
  have x3 := h''.head_lt
  rw [ptrSub_eq _ _ _ x2 x1] at a3
  rw [ptrSub_eq _ _ _ x3 x2] at b3
  rw [ptrSub_eq _ _ _ x3 x1]
  split_ifs at * <;> omega

/-- A pointer one further is at distance one. -/
theorem ptrSub_ptrNext (p : Nat) (hn : 0 < n) (h : p < 2 * n) : ptrSub n (ptrNext n p) p = 1 := by
  rw [ptrSub_eq _ _ _ (ptrNext_lt _ _ hn) h, ptrNext_eq _ _ h]
  split_ifs <;> omega

theorem Ring.Inv.deq_drained (h : r.Inv n) (exact : Bool) (v : α) (he : r.deq n exact = .item v r') :
    Ring.Drained n r r' := by
  have hc := h.deq_contents exact v he
  have hl := (h.deq_counts exact v he).1
  obtain ⟨-, -, rfl⟩ := Ring.deq_item _ _ he
  exact ⟨1, by omega, by rw [hc]; rfl, ptrSub_ptrNext _ h.pos h.head_lt, rfl⟩

/-- An accepted enqueue moves the write pointer by one and nothing else the queue shows. -/
theorem Ring.Inv.enq_tail (h : r.Inv n) (exact : Bool) (x : α) (he : r.enq n exact x = some r') :
    ptrSub n r'.tail r.tail = 1 ∧ r'.head = r.head := by
  obtain ⟨-, rfl⟩ := Ring.enq_some _ _ he
  exact ⟨ptrSub_ptrNext _ h.pos h.tail_lt, rfl⟩

/-- What parser steps do to the channels. -/
structure State.ParserMoved (s t : State) : Prop where
  inv : t.Inv
  nBc : t.nBc = s.nBc
  nCc : t.nCc = s.nCc
  bc : Ring.Drained s.nBc s.bc t.bc
  cc : t.cc = s.cc

theorem State.ParserMoved.refl {s : State} (h : s.Inv) : s.ParserMoved s := ⟨h, rfl, rfl, Ring.Drained.refl h.bc, rfl⟩

theorem State.ParserMoved.trans {s t u : State} (h : s.Inv) (a : s.ParserMoved t) (b : t.ParserMoved u) :
    s.ParserMoved u := by
  have h1 := a.inv.bc
  have h2 := b.inv.bc
  have h3 := b.bc
  rw [a.nBc] at h1 h3
  rw [b.nBc, a.nBc] at h2
  exact ⟨b.inv, b.nBc.trans a.nBc, b.nCc.trans a.nCc, Ring.Drained.trans h.bc h1 h2 a.bc h3, b.cc.trans a.cc⟩

/-- The answer's next state, if it is one, is what parser steps lead to. -/
def Result.ParserMoved (s : State) (o : Result) : Prop :=
  match o with
  | .next t => s.ParserMoved t
  | .fault _ => True
  | .refused _ => True

theorem Result.ParserMoved.andThen {s : State} {o : Result} {f : State → Result} (h : s.Inv)
    (a : Result.ParserMoved s o) (hf : ∀ t, t.Inv → Result.ParserMoved t (f t)) :
    Result.ParserMoved s (andThen o f) := by
  cases o with
  | next t =>
    have ht := hf t a.inv
    show Result.ParserMoved s (f t)
    cases hft : f t with
    | next u =>
      rw [hft] at ht
      exact State.ParserMoved.trans h a ht
    | fault r => trivial
    | refused r => trivial
  | fault r => trivial
  | refused r => trivial

theorem execParseStep_moved (s : State) (h : s.Inv) : Result.ParserMoved s (execParseStep s) := by
  by_cases hp : s.p.pstate = .idle
  · rw [execParseStep, if_pos hp]
    trivial
  · have hs := execParseStep_sound s h
    cases hv : s.visibleBytes with
    | nil =>
      rw [parseStep_none h hp hv] at hs ⊢
      refine ⟨hs, rfl, rfl, ?_, rfl⟩
      show Ring.Drained _ _ (s.bcAfter 0)
      rw [bcAfter_zero h]
      exact Ring.Drained.refl h.bc
    | cons b bs =>
      obtain ⟨t, ht⟩ := ptrans_some _ s.p.acc (some b) hp
      obtain ⟨e1, e2, -⟩ := parseStep_some h hv ht
      rw [e1]
      rcases execParseStep_cases s h hp with ⟨e, -, -⟩ | ⟨b', r, hd, -, -, -, -⟩
      · rw [hv] at e
        cases e
      · refine ⟨e2, rfl, rfl, ?_, rfl⟩
        show Ring.Drained _ _ (s.bcAfter 1)
        rw [← deq_bcAfter hd]
        exact h.bc.deq_drained _ _ hd

theorem parseSteps_moved (k : Nat) : ∀ s : State, s.Inv → Result.ParserMoved s (parseSteps k s) := by
  induction k with
  | zero =>
    intro s h
    exact State.ParserMoved.refl h
  | succ k ih =>
    intro s h
    exact (execParseStep_moved s h).andThen h ih

theorem parseLoop_moved (k : Nat) : ∀ s : State, s.Inv → Result.ParserMoved s (parseLoop k s) := by
  induction k with
  | zero => exact execParseStep_moved
  | succ k ih =>
    intro s h
    refine (execParseStep_moved s h).andThen h fun t ht => ?_
    split
    · exact State.ParserMoved.refl ht
    · exact ih t ht

end Sys2Proof.Machine
end

