-- ==== Sys2Proof/Tests/Slice0.lean ====
section
/-! SUPPORT. Tests: expected results are the vectors of 95_test_vectors.md (named in each comment) or written out from
the rules. Then, for every obligation with hypotheses, a state and operands that meet them. -/

namespace Sys2Proof.Machine.Tests

/-! ## Ill-formed terms -/

theorem test_wf_a_digit : (Instr.a 0 10 0).wellFormed = false := by decide
theorem test_wf_s_digit : (Instr.s 0 0 15).wellFormed = false := by decide
theorem test_wf_skip_prefix :
    (Instr.skip 0x41).wellFormed = false ∧ (Instr.skip 0x53).wellFormed = false ∧
      (Instr.skip 0x44).wellFormed = false := by decide
theorem test_wf_malformed_too_many : (Instr.malformed .angle [0, 9, 0] 0x58).wellFormed = false := by decide
theorem test_wf_malformed_digit : (Instr.malformed .speed [10] 0x58).wellFormed = false := by decide
theorem test_wf_malformed_fits :
    (Instr.malformed .angle [0] 0x39).wellFormed = false ∧
      (Instr.malformed .direction [] 0x46).wellFormed = false := by decide
theorem test_wf_malformed_direction_digits : (Instr.malformed .direction [0] 0x58).wellFormed = false := by decide
theorem test_wf_incomplete :
    (Instr.incomplete .speed [0, 9, 0]).wellFormed = false ∧ (Instr.incomplete .angle [12]).wellFormed = false ∧
      (Instr.incomplete .direction [1]).wellFormed = false := by decide
theorem test_wf_ccEnq_reserved_tag : (Instr.ccEnq 0x300000000).wellFormed = false := by decide
theorem test_wf_dispatch_direction_code : (Instr.dispatch 0x100000003).wellFormed = false := by decide
theorem test_wf_dispatch_angle_bits : (Instr.dispatch 0x200010000).wellFormed = false := by decide

/-! ## Decoding, from words written out by hand (30_encoding.md R72, R80, R85; the opcode table) -/

theorem test_decode_a : decode (.wire [0b01000001, 0b00110000, 0b00111001, 0b00110000]) = .ok (.a 0 9 0) := by decide
theorem test_decode_s : decode (.wire [0b01010011, 0b00110000, 0b00110000, 0b00110101]) = .ok (.s 0 0 5) := by decide
theorem test_decode_df : decode (.wire [0b01000100, 0b01000110]) = .ok .df := by decide
theorem test_decode_db : decode (.wire [0b01000100, 0b01000010]) = .ok .db := by decide
theorem test_decode_ds : decode (.wire [0b01000100, 0b01010011]) = .ok .ds := by decide
theorem test_decode_skip : decode (.wire [0x46]) = .ok (.skip 0x46) := by decide
theorem test_decode_malformed :
    decode (.wire [0x41, 0x30, 0x3A]) = .ok (.malformed .angle [0] 0x3A) ∧
      decode (.wire [0x44, 0x58]) = .ok (.malformed .direction [] 0x58) := by decide
theorem test_decode_incomplete :
    decode (.wire [0x41, 0x30, 0x39]) = .ok (.incomplete .angle [0, 9]) ∧
      decode (.wire [0x44]) = .ok (.incomplete .direction []) := by decide
theorem test_decode_setSpeed : decode (.command 0x000000005) = .ok (.cmdSetSpeed 5) := by decide
theorem test_decode_setDirection : decode (.command 0x100000001) = .ok (.cmdSetDirection .backward) := by decide
theorem test_decode_setServoAngle : decode (.command 0x20000005A) = .ok (.cmdSetServoAngle 90) := by decide
theorem test_decode_reserved : decode (.command 0x300000000) = .ok (.cmdReserved 0) := by decide
theorem test_decode_bcEnq : decode (.op (0x44#34 ++ 0b0000#4)) = .ok (.bcEnq 0x44) := by decide
theorem test_decode_bcDeq : decode (.op 0b0001) = .ok .bcDeq := by decide
theorem test_decode_ccEnq : decode (.op (0x20000005A#34 ++ 0b0010#4)) = .ok (.ccEnq 0x20000005A) := by decide
theorem test_decode_ccDeq : decode (.op 0b0011) = .ok .ccDeq := by decide
theorem test_decode_parse : decode (.op 0b0100) = .ok .parse := by decide
theorem test_decode_setDir : decode (.op (2#34 ++ 0b0101#4)) = .ok (.setDir .stop) := by decide
theorem test_decode_opSetSpeed : decode (.op (5#34 ++ 0b0110#4)) = .ok (.setSpeed 5) := by decide
theorem test_decode_advanceTick : decode (.op 0b0111) = .ok .advanceTick := by decide
theorem test_decode_advanceBlocking : decode (.op 0b1000) = .ok .advanceBlocking := by decide
theorem test_decode_setAngle : decode (.op (90#34 ++ 0b1001#4)) = .ok (.setAngle 90) := by decide
theorem test_decode_center : decode (.op 0b1010) = .ok .center := by decide
theorem test_decode_flagSet : decode (.op (1#34 ++ 0b1011#4)) = .ok (.flagSet .tickReady) := by decide
theorem test_decode_flagTake : decode (.op (0#34 ++ 0b1100#4)) = .ok (.flagTake .dataReady) := by decide
theorem test_decode_hold : decode (.op 0b1101) = .ok .hold := by decide
theorem test_decode_setAccel : decode (.op (7#34 ++ 0b1110#4)) = .ok (.setAccel 7) := by decide
theorem test_decode_estop : decode (.op 0b1111) = .ok .estop := by decide
theorem test_decode_steps :
    decode (.step 0 [0, 1]) = .ok (.syncTail .bc 1) ∧ decode (.step 1 [1, 3]) = .ok (.syncHead .cc 3) ∧
      decode (.step 2 []) = .ok .parseStep ∧ decode (.step 3 []) = .ok .parseAndForward ∧
      decode (.step 4 [5]) = .ok (.dispatch 5) ∧ decode (.step 5 []) = .ok .controlIter := by decide
theorem test_decode_steps_more :
    decode (.step 6 []) = .ok .pulse ∧ decode (.step 7 [1000, 180]) = .ok (.servoNew 1000 180) ∧
      decode (.step 8 [0x44]) = .ok (.rxEvent 0x44) ∧ decode (.step 9 []) = .ok .tickEvent ∧
      decode (.step 10 []) = .ok .reset := by decide

/-- Codes that are no instruction. -/
theorem test_decode_errors :
    decode (.wire []) = .error .noBytes ∧ decode (.wire [0x44, 0x46, 0x53]) = .error .trailingBytes ∧
      decode (.command 0x100000003) = .error .illFormedWord ∧ decode (.op (3#34 ++ 5#4)) = .error .reservedDirection ∧
      decode (.op (1#34 ++ 4#4)) = .error .paddingNotZero ∧ decode (.op (256#34 ++ 0#4)) = .error .paddingNotZero ∧
      decode (.step 11 []) = .error .unknownStep ∧ decode (.step 8 [256]) = .error .badStepOperands := by decide

/-- The table's numbering (log 12). -/
theorem test_decodeTableWord :
    decodeTableWord 32 0x41303930 = some (.a 0 9 0) ∧ decodeTableWord 16 0x4446 = some .df ∧
      decodeTableWord 8 0xF = some .estop ∧ decodeTableWord 40 0x20000005A = some (.cmdSetServoAngle 90) := by decide

/-! ## States to start from -/

/-- The defaults of 00_scope.md R7, with the values the vectors give the open parameters. -/
def cfg : Config where
  byteLog := 3
  cmdLog := 1
  syncMode := .exact
  tickFrequency := 10
  basePeriod := 1000
  pulseVariant := .tick
  tickDelivery := .flag
  dutyAtZero := 1000
  maxAngle := 180
  initDirection := .stop
  initSpeed := 0
  parseErrText := [0x45]
  echo := false
  byteLog_ge := by decide
  servo_ok := by decide

/-- Right after reset. -/
def base : State := State.resetWith cfg []

/-- The same in `lagged` mode. -/
def lagged : State := State.resetWith { cfg with syncMode := .lagged } []

/-- Bytes lie in ByteChannel from pointer `h` on, all of them visible. -/
def State.bytes (h : Nat) (bs : List Byte) (s : State) : State :=
  { s with bc := (⟨[], h, h, h, h⟩ : Ring Byte).holding 8 bs }

/-- Words lie in CommandChannel from pointer `h` on. -/
def State.words (h : Nat) (ws : List CmdWord) (s : State) : State :=
  { s with cc := (⟨[], h, h, h, h⟩ : Ring CmdWord).holding 2 ws }

/-- A call at a scan position on the given bytes, across the wrap. -/
def scan (bs : List Byte) : State := { State.bytes 6 bs base with p := ⟨.scan, 0⟩ }

/-- A stepper. -/
def stepper (d : Direction) (v : U32) (l : Bool) (e : U32) : State := { base with stp := ⟨d, v, l, e⟩ }

/-- The outcome is a next state with a property. -/
def gives (o : Result) (p : State → Bool) : Bool :=
  match o with
  | .next t => p t
  | .fault _ => false
  | .refused _ => false

/-- The outcome is this fault. -/
def faults (o : Result) (f : Fault) : Bool :=
  match o with
  | .fault g => decide (g = f)
  | .next _ => false
  | .refused _ => false

/-- The outcome is this refusal. -/
def refuses (o : Result) (f : Refusal) : Bool :=
  match o with
  | .refused g => decide (g = f)
  | .next _ => false
  | .fault _ => false

/-- `A0903...`: eight bytes, a full ring. -/
def eight : List Byte := [0x31, 0x32, 0x33, 0x34, 0x35, 0x36, 0x37, 0x38]

/-! ## Channels and flags -/

/-- CH5's first line. -/
theorem test_bcEnq_lagged :
    gives (exec (.bcEnq 0x44) lagged) (fun t => decide (t.bc = ⟨[(0, 0x44)], 1, 0, 0, 0⟩ ∧ t.res = .accepted)) := by
  decide

/-- CH2: the ninth byte. -/
theorem test_bcEnq_full :
    gives (exec (.bcEnq 0x39) (State.bytes 0 eight base)) (fun t =>
      decide (t.bc = (State.bytes 0 eight base).bc ∧ t.trace = [.dropByte 0x39] ∧ t.res = .rejectedByte 0x39)) := by
  decide

/-- CH1. -/
theorem test_bcDeq_empty : gives (exec .bcDeq base) (fun t => decide (t.bc = base.bc ∧ t.res = .byte none)) := by decide

/-- CH2: the oldest byte first; the slot is the pointer modulo 8. -/
theorem test_bcDeq_wrap :
    gives (exec .bcDeq (State.bytes 15 [0x31, 0x32] base)) (fun t =>
      decide (t.bc.head = 0 ∧ t.bc.headSync = 0 ∧ t.bc.tail = 1 ∧ t.res = .byte (some 0x31))) := by decide

/-- CH3: the wrap of the write pointer. -/
theorem test_ccEnq_wrap :
    gives (exec (.ccEnq 0x20000005A) (State.words 3 [] base)) (fun t =>
      decide (t.cc = ⟨[(1, 0x20000005A)], 0, 3, 3, 0⟩ ∧ t.res = .accepted)) := by decide

/-- CH3: the third word. -/
theorem test_ccEnq_full :
    gives (exec (.ccEnq 0x20000005A) (State.words 0 [0x100000000, 0x000000005] base)) (fun t =>
      decide (t.trace = [.dropCommand 0x20000005A] ∧ t.res = .rejectedCommand 0x20000005A)) := by decide

/-- CH3. -/
theorem test_ccDeq :
    gives (exec .ccDeq (State.words 0 [0x100000000, 0x000000005] base)) (fun t =>
      decide (t.cc.head = 1 ∧ t.res = .command (some 0x100000000))) := by decide

/-- CH4: a full ring of `lagged` mode after one dequeue. -/
def ch4 : State :=
  { lagged with bc := { (State.bytes 0 eight lagged).bc with head := 1, headSync := 0 } }

/-- CH4: the spurious full, and its end. -/
theorem test_bcEnq_spurious_full :
    gives (exec (.bcEnq 0x39) ch4) (fun t => decide (t.res = .rejectedByte 0x39)) &&
      gives (exec (.syncHead .bc 1) ch4) (fun t => decide (t = { ch4 with bc := { ch4.bc with headSync := 1 } })) := by
  decide

/-- CH5: the synchroniser catches up; a value past the pointer is no choice. -/
theorem test_syncTail :
    gives (exec (.syncTail .bc 1) { lagged with bc := ⟨[(0, 0x44)], 1, 0, 0, 0⟩ })
      (fun t => decide (t.bc = ⟨[(0, 0x44)], 1, 0, 0, 1⟩)) &&
      refuses (exec (.syncTail .bc 2) { lagged with bc := ⟨[(0, 0x44)], 1, 0, 0, 0⟩ }) .syncChoiceOutOfRange := by
  decide

/-- FL1. -/
theorem test_flagSet : gives (exec (.flagSet .dataReady) base) (fun t => decide (t.flg = ⟨true, false⟩)) := by decide

/-- FL1, FL2. -/
theorem test_flagTake :
    gives (exec (.flagTake .tickReady) { base with flg := ⟨true, true⟩ })
      (fun t => decide (t.flg = ⟨true, false⟩ ∧ t.res = .flag true)) := by decide

/-- CH7. -/
theorem test_gray :
    bin2gray 11 = 0b1110 ∧ bin2gray 3 = 0b0010 ∧ grayFull 4 11 3 = true ∧ grayFull 4 10 3 = false ∧
      grayFull 2 1 3 = true ∧ gray2bin 4 0b1110 = 11 := by decide

/-! ## The parser -/

/-- PA2, CH6. -/
theorem test_a :
    gives (exec (.a 0 9 0) (scan [0x41, 0x30, 0x39, 0x30])) (fun t =>
      decide (t.par = some (.ok (.setServoAngle 90)) ∧ t.bc.head = 10 ∧ t.p.pstate = .idle)) := by decide

/-- PA3. -/
theorem test_s :
    gives (exec (.s 0 0 5) (scan [0x53, 0x30, 0x30, 0x35])) (fun t =>
      decide (t.par = some (.ok (.setSpeed 5)) ∧ t.bc.head = 10)) := by decide

/-- PA4, PA21: what follows stays queued. -/
theorem test_df :
    gives (exec .df (scan [0x44, 0x46, 0x53])) (fun t =>
      decide (t.par = some (.ok (.setDirection .forward)) ∧ t.visibleBytes = [0x53])) := by decide

/-- PA5. -/
theorem test_db :
    gives (exec .db (scan [0x44, 0x42])) (fun t => decide (t.par = some (.ok (.setDirection .backward)))) := by decide

/-- PA6. -/
theorem test_ds :
    gives (exec .ds (scan [0x44, 0x53])) (fun t => decide (t.par = some (.ok (.setDirection .stop)))) := by decide

/-- PA29's first byte. -/
theorem test_skip :
    gives (exec (.skip 0x61) (scan [0x61, 0x30])) (fun t =>
      decide (t.p = ⟨.scan, 0⟩ ∧ t.par = none ∧ t.visibleBytes = [0x30])) := by decide

/-- PA14's attempt: the offending byte is consumed. -/
theorem test_malformed :
    gives (exec (.malformed .angle [0] 0x3A) (scan [0x41, 0x30, 0x3A, 0x30])) (fun t =>
      decide (t.p.pstate = .scan ∧ t.par = none ∧ t.visibleBytes = [0x30])) := by decide

/-- PA13. -/
theorem test_incomplete :
    gives (exec (.incomplete .angle [0, 9]) (scan [0x41, 0x30, 0x39])) (fun t =>
      decide (t.p.pstate = .idle ∧ t.par = some .err ∧ t.visibleBytes = [])) := by decide

/-- A wire command runs only where the parser scans and its bytes are queued (log 13). -/
theorem test_wire_refused :
    refuses (exec .df (State.bytes 0 [0x44, 0x46] base)) .notAtScanPosition &&
      refuses (exec .df (scan [0x44, 0x42])) .wireBytesNotQueued := by decide

/-- PA16: a failed attempt, then a valid command in one call. -/
theorem test_parse :
    gives (exec .parse (State.bytes 6 [0x41, 0x58, 0x53, 0x30, 0x30, 0x35] base)) (fun t =>
      decide (t.res = .parsed (.ok (.setSpeed 5)) ∧ t.visibleBytes = [])) := by decide

/-- PA17: no rewind. -/
theorem test_parse_err :
    gives (exec .parse (State.bytes 0 [0x41, 0x44, 0x46] base)) (fun t =>
      decide (t.res = .parsed .err ∧ t.bc.head = 3)) := by decide

/-- PA18, PA21, PA25, PA34, PA42 as lists. -/
theorem test_parseList :
    parseList [0x41, 0x41, 0x30, 0x39, 0x30] = (.err, []) ∧
      parseList [0x44, 0x46, 0x53, 0x30] = (.ok (.setDirection .forward), [0x53, 0x30]) ∧
      parseList [0x44, 0x44, 0x44, 0x46] = (.ok (.setDirection .forward), []) ∧
      parseList [0x41, 0x30, 0x39, 0x53, 0x30, 0x30, 0x35] = (.err, []) ∧
      parseList [0x41, 0x30, 0x44, 0x53] = (.err, []) := by decide

/-- PA43: step 3. -/
theorem test_parseStep :
    gives (exec .parseStep { State.bytes 0 [0x39, 0x30] base with p := ⟨.aD1, 0⟩ }) (fun t =>
      decide (t.p = ⟨.aD2, 9⟩ ∧ t.bc.head = 1 ∧ t.par = none)) := by decide

/-- PA44 case (b): the channel is seen empty. -/
theorem test_parseStep_empty :
    gives (exec .parseStep { base with p := ⟨.aD2, 9⟩ }) (fun t => decide (t.p.pstate = .idle ∧ t.par = some .err)) := by
  decide

/-- PA45: the error text. -/
theorem test_parseAndForward_err :
    gives (exec .parseAndForward base) (fun t => decide (t.trace = [.serialWrite [0x45]] ∧ t.cc = base.cc)) := by decide

/-- P4 step 4: the Command of a good call is dropped on a full CommandChannel. -/
theorem test_parseAndForward_full :
    gives (exec .parseAndForward (State.bytes 6 [0x41, 0x30, 0x39, 0x30] (State.words 0 [0x100000000, 5] base)))
      (fun t => decide (t.trace = [.dropCommand 0x20000005A] ∧ t.bc.head = 10 ∧ t.par = none)) := by decide

/-! ## The step-pulse generator and the servo -/

/-- ST1. -/
theorem test_setDir :
    gives (exec (.setDir .forward) base) (fun t =>
      decide (t.stp = ⟨.forward, 0, false, 0⟩ ∧ t.pin = ⟨none, none⟩ ∧ t.trace = [])) := by decide

/-- ST1. -/
theorem test_setSpeed :
    gives (exec (.setSpeed 5) base) (fun t => decide (t.stp = ⟨.stop, 5, false, 0⟩ ∧ t.trace = [])) := by decide

/-- ST3 call 3. -/
theorem test_advanceTick_flip :
    gives (exec .advanceTick (stepper .forward 5 false 2)) (fun t =>
      decide (t.stp = ⟨.forward, 5, true, 0⟩ ∧ t.trace = [.pinWrite .dir .high, .pinWrite .step .high])) := by decide

/-- ST10: the Stop test comes first. -/
theorem test_advanceTick_stop :
    gives (exec .advanceTick (stepper .stop 0 true 2)) (fun t =>
      decide (t.stp = ⟨.stop, 0, true, 2⟩ ∧ t.trace = [.pinWrite .step .low] ∧ t.pin = ⟨none, some .low⟩)) := by decide

/-- ST9, first row. -/
theorem test_advanceBlocking :
    gives (exec .advanceBlocking (stepper .backward 5 true 1)) (fun t =>
      decide (t.stp = ⟨.backward, 5, true, 1⟩ ∧
        t.trace = [.pinWrite .dir .low, .pinWrite .step .high, .wait 200, .pinWrite .step .low, .wait 200])) := by
  decide

/-- ST9, Stop row. -/
theorem test_advanceBlocking_stop :
    gives (exec .advanceBlocking (stepper .stop 5 false 0)) (fun t => decide (t = stepper .stop 5 false 0)) := by decide

/-- ST11. -/
theorem test_stubs :
    faults (exec .hold base) (.notImplemented .hold) && faults (exec (.setAccel 7) base) (.notImplemented .setAccel) &&
      faults (exec .estop base) (.notImplemented .estop) := by decide

/-- SV2: 90 degrees, and the clamp. -/
theorem test_setAngle :
    gives (exec (.setAngle 90) base) (fun t => decide (t.pwm = some 2980 ∧ t.trace = [.pwmWrite 2980])) &&
      gives (exec (.setAngle 65535) base) (fun t => decide (t.pwm = some 4960)) := by decide

/-- SV4. -/
theorem test_center :
    gives (exec .center base) (fun t => decide (t.pwm = some 3000 ∧ t.trace = [.pwmWrite 3000])) := by decide

/-- SV1: a configuration with DUTY_AT_ZERO 1500. -/
theorem test_servoNew :
    gives (exec (.servoNew 1500 180) { base with cfg := { cfg with dutyAtZero := 1500, servo_ok := by decide } })
      (fun t => decide (t.srv = ⟨1500, 33, 4500, 180⟩ ∧ t.trace = [])) := by decide

/-- 10_state.md R18: the registers are not built again with other values. -/
theorem test_servoNew_immutable : refuses (exec (.servoNew 1500 180) base) .servoImmutable := by decide

/-- SV5. -/
theorem test_servoFits :
    servoFits 21845 90 = true ∧ servoFits 21845 91 = false ∧ servoFits 21846 0 = false ∧ servoFits 1000 2933 = true ∧
      servoFits 1000 2934 = false := by decide

/-! ## Dispatch, control loop, events, reset -/

/-- DI1. -/
theorem test_dispatch :
    gives (exec (.dispatch 0x100000001) base) (fun t => decide (t.stp.direction = .backward ∧ t.trace = [])) &&
      gives (exec (.dispatch 0x20000005A) base) (fun t => decide (t.trace = [.pwmWrite 2980])) := by decide

/-- 30_encoding.md R82. -/
theorem test_dispatch_ill_formed :
    refuses (exec (.dispatch 0x100000003) base) (.illFormedCommand 0x100000003) &&
      refuses (exec (.cmdReserved 7) base) (.illFormedCommand 0x300000007) := by decide

/-- DI1. -/
theorem test_commands :
    gives (exec (.cmdSetSpeed 0xFFFFFFFF) base) (fun t => decide (t.stp.speed = 4294967295)) &&
      gives (exec (.cmdSetDirection .backward) base) (fun t => decide (t.stp.direction = .backward)) &&
      gives (exec (.cmdSetServoAngle 90) base) (fun t => decide (t.pwm = some 2980)) := by decide

/-- CL1. -/
theorem test_controlIter_idle :
    gives (exec .controlIter base) (fun t => decide ({ t with res := .unset } = base)) := by decide

/-- P1 steps 9, 10. -/
theorem test_controlIter :
    gives (exec .controlIter { State.words 0 [0x100000000, 5] base with flg := ⟨false, true⟩ }) (fun t =>
      decide (t.stp.direction = .forward ∧ t.trace = [.pinWrite .dir .high] ∧ t.cc.head = 1 ∧
        t.flg.tickReady = false)) := by decide

/-- CL2: one advance, and the flag is clear; with the flag clear, none. -/
theorem test_pulse :
    gives (exec .pulse { stepper .forward 5 false 0 with flg := ⟨false, true⟩ }) (fun t =>
      decide (t.stp.elapsedTicks = 1 ∧ t.flg.tickReady = false)) &&
      gives (exec .pulse (stepper .forward 5 false 0)) (fun t => decide (t.trace = [])) := by decide

/-- EV1, with echo. -/
theorem test_rxEvent_full :
    gives (exec (.rxEvent 0x44) { State.bytes 0 eight base with cfg := { cfg with echo := true } }) (fun t =>
      decide (t.trace = [.serialWrite [0x44], .dropByte 0x44] ∧ t.flg.dataReady = true ∧ t.evt = .waiting)) := by decide

/-- P1 step 1, first byte. -/
theorem test_rxEvent :
    gives (exec (.rxEvent 0x44) base) (fun t =>
      decide (t.bc = ⟨[(0, 0x44)], 1, 0, 0, 1⟩ ∧ t.trace = [] ∧ t.flg.dataReady = true)) := by decide

/-- 60_exceptions.md R208: a byte that comes while the handler runs waits. -/
theorem test_rxEvent_waits :
    gives (exec (.rxEvent 0x46) { base with evt := .setFlag }) (fun t =>
      decide (t.rx = [0x46] ∧ t.evt = .setFlag ∧ t.bc = base.bc)) := by decide

/-- EV2, and 60_exceptions.md R213 with the flag. -/
theorem test_tickEvent :
    gives (exec .tickEvent { stepper .forward 5 false 0 with cfg := { cfg with tickDelivery := .direct } }) (fun t =>
      decide (t.stp.elapsedTicks = 1 ∧ t.trace = [.pinWrite .dir .high, .pinWrite .step .low] ∧
        t.flg.tickReady = false)) &&
      gives (exec .tickEvent base) (fun t => decide (t.flg.tickReady = true ∧ t.trace = [])) := by decide

/-- 60_exceptions.md R213: the blocking variant has no tick. -/
theorem test_tickEvent_blocking :
    refuses (exec .tickEvent { base with cfg := { cfg with pulseVariant := .blocking } }) .noTickSource := by decide

/-- 10_state.md R31. -/
theorem test_reset :
    gives (exec .reset { scan [0x44] with flg := ⟨true, true⟩, pwm := some 5, ctl := .pulse }) (fun t =>
      decide (t = base)) := by decide

/-! ## Steps from reset -/

theorem test_step_port_op : gives (step (State.reset.withFetchWord 8 0x5)) (fun t =>
    decide (t.stp.direction = .forward)) := by decide
theorem test_step_wire : gives (step (State.reset.withFetchWord 32 0x53303035)) (fun t =>
    decide (t.par = some (.ok (.setSpeed 5)))) := by decide
theorem test_step_command : gives (step (State.reset.withFetchWord 40 0x000000005)) (fun t =>
    decide (t.stp.speed = 5 ∧ t.ctl = .pulse)) := by decide
/-- 70_reset_and_hazards.md R255: one context per end. -/
theorem test_step_end_in_use :
    refuses (step { base with evt := .enqueue 0x44, sched := [.issue (.op 0)] }) .endInUse &&
      gives (step { base with sched := [.issue (.op 0)] }) (fun t => decide (t.res = .accepted)) := by decide

theorem test_step_stub : faults (step (State.reset.withFetchWord 8 0xD)) (.notImplemented .hold) := by decide

/-! ## Witnesses: for each obligation with hypotheses, a state and operands that meet them -/

/-- The invariant of a ring, as a check. -/
def ringOk {α : Type} (n : Nat) (r : Ring α) : Bool :=
  r.mem.wf && r.mem.all (fun c => decide (c.1 < n)) && decide (r.tail < 2 * n) && decide (r.head < 2 * n) &&
    decide (r.headSync < 2 * n) && decide (r.tailSync < 2 * n) &&
    decide (ptrSub n r.head r.headSync + r.seen n + ptrSub n r.tail r.tailSync ≤ n) &&
    (List.range (r.len n)).all (fun k => (r.mem.get ((r.head + k) % n)).isSome)

theorem ring_inv {α : Type} {n : Nat} {r : Ring α} (h : ringOk n r = true) : r.Inv n := by
  simp only [ringOk, Bool.and_eq_true, List.all_eq_true, decide_eq_true_eq, List.mem_range] at h
  obtain ⟨⟨⟨⟨⟨⟨⟨h1, h2⟩, h3⟩, h4⟩, h5⟩, h6⟩, h7⟩, h8⟩ := h
  exact ⟨h1, h2, h3, h4, h5, h6, h7, h8⟩

/-- The invariant of the block, as a check. -/
def stateOk (s : State) : Bool :=
  ringOk s.nBc s.bc && ringOk s.nCc s.cc &&
    decide (s.cfg.syncMode = .exact → (s.bc.headSync = s.bc.head ∧ s.bc.tailSync = s.bc.tail) ∧
      (s.cc.headSync = s.cc.head ∧ s.cc.tailSync = s.cc.tail)) &&
    decide (s.p.acc.toNat ≤ 999 ∧ (s.p.pstate = .aD1 ∨ s.p.pstate = .sD1 → s.p.acc.toNat ≤ 9) ∧
      (s.p.pstate = .aD2 ∨ s.p.pstate = .sD2 → s.p.acc.toNat ≤ 99)) &&
    decide (s.p.pstate ≠ .idle → s.par = none) && decide (s.stp.elapsedTicks ≤ s.cfg.tickFrequency) &&
    decide (s.srv = Servo.new s.cfg.dutyAtZero s.cfg.maxAngle) &&
    s.cc.mem.all (fun c => wordOk c.2) &&
    (match s.ctl with
      | .dispatch w => wordOk w
      | .top | .pulse => true)

theorem state_inv {s : State} (h : stateOk s = true) : s.Inv := by
  simp only [stateOk, Bool.and_eq_true, List.all_eq_true, decide_eq_true_eq] at h
  obtain ⟨⟨⟨⟨⟨⟨⟨⟨h1, h2⟩, h3⟩, h4⟩, h5⟩, h6⟩, h7⟩, h8⟩, h9⟩ := h
  refine ⟨ring_inv h1, ring_inv h2, h3, h4, h5, h6, h7, h8, fun w hw => ?_⟩
  rw [hw] at h9
  exact h9

/-- Two bytes (one of them visible) and a full CommandChannel, in `lagged` mode, the copies behind. -/
def behind : State :=
  { lagged with
    bc := ⟨[(0, 0x44), (1, 0x46), (2, 0x53)], 3, 1, 0, 2⟩
    cc := ⟨[(0, 0x100000000), (1, 5)], 2, 0, 0, 1⟩
    p := ⟨.dArg, 0⟩ }

theorem behind_inv : behind.Inv := state_inv (by decide)
theorem base_inv : base.Inv := state_inv (by decide)
theorem ch4_inv : ch4.Inv := state_inv (by decide)

theorem witness_DecodeEncodeRoundTrip :
    (Instr.a 0 9 0).wellFormed = true ∧ (Instr.malformed .speed [9, 0] 0x3A).wellFormed = true ∧
      (Instr.servoNew 65535 65535).wellFormed = true := by decide

theorem witness_EveryDecodedCodeIsItsEncoding :
    decode (.wire [0x41, 0x30, 0x39, 0x30]) = .ok (.a 0 9 0) ∧ decode (.command 0x3FFFFFFFF) = .ok (.cmdReserved
      0xFFFFFFFF) ∧ decode (.op 0xF) = .ok .estop ∧ decode (.step 10 []) = .ok .reset := by decide

/-- One word for each way of being ill-formed, at the first and the last value. -/
theorem witness_IllFormedWordsAreRefused :
    commandOfWord 0x300000000 = none ∧ commandOfWord 0x3FFFFFFFF = none ∧ commandOfWord 0x100000003 = none ∧
      commandOfWord 0x100000004 = none ∧ commandOfWord 0x200010000 = none ∧ commandOfWord 0x2FFFFFFFF = none ∧
      (commandOfWord 0x20000FFFF).isSome = true ∧ (commandOfWord 0x100000002).isSome = true := by decide

theorem witness_StepRunsIssuedInstruction :
    ({ base with sched := [.issue (.op 0x4)] }.sched = .issue (.op 0x4) :: [] ∧ decode (.op 0x4) = .ok .parse ∧
      base.endInUse .parse = false) ∧
      (decode (.op 0x1) = .ok .bcDeq ∧ behind.endInUse .bcDeq = true) ∧
      ({ base with sched := [.issue (.wire [])] }.sched = .issue (.wire []) :: [] ∧
        decode (.wire []) = .error .noBytes) ∧ base.sched = [] := by decide

theorem witness_StepRunsWireCommandAtHead :
    ({ scan [0x44, 0x46] with sched := [.wire] }.sched = .wire :: [] ∧ (scan [0x44, 0x46]).p.pstate = .scan ∧
      (scan [0x44, 0x46]).par = none ∧
      decodeWire (scan [0x44, 0x46]).visibleBytes = .ok (.df, [])) ∧
      ({ scan [] with sched := [.wire] }.sched = .wire :: [] ∧ (scan []).p.pstate = .scan ∧ (scan []).par = none ∧
        (scan []).visibleBytes = []) := by decide

theorem witness_StepRunsCommandWordInHand :
    { base with sched := [.ctl], ctl := .dispatch 5 }.sched = .ctl :: [] ∧
      { base with sched := [.ctl], ctl := .dispatch 5 }.ctl = .dispatch 5 ∧
      decode (.command 5) = .ok (.cmdSetSpeed 5) := by decide

theorem witness_StepKeepsInvariant :
    { behind with sched := [.par] }.Inv ∧ ∃ t, step { behind with sched := [.par] } = .next t :=
  ⟨state_inv (by decide), _, rfl⟩

theorem witness_InvariantGivesPointerBounds : behind.bc.Inv behind.nBc ∧ behind.Inv := ⟨behind_inv.bc, behind_inv⟩

theorem witness_OnlyStubsFault :
    { behind with sched := [.issue (.op 0xD)] }.Inv ∧
      step { behind with sched := [.issue (.op 0xD)] } = .fault (.notImplemented .hold) :=
  ⟨state_inv (by decide), rfl⟩

theorem witness_AgentStepsAlwaysComplete :
    behind.Inv ∧ { behind with evt := .enqueue 0x41, ctl := .dispatch 0x20000FFFF }.Inv :=
  ⟨behind_inv, state_inv (by decide)⟩

theorem witness_ConfigurationNeverChanges :
    (∃ t, step { behind with sched := [.issue (.step 10 [])] } = .next t) ∧ behind.servoBuilt :=
  ⟨⟨_, rfl⟩, behind_inv.servo⟩

/-- A step that emits, and a reset. -/
theorem witness_TraceOnlyGrows :
    (∃ t, step { base with sched := [.issue (.op 0x7)] } = .next t) ∧
      ∃ t, step { base with sched := [.issue (.step 10 [])] } = .next t :=
  ⟨⟨_, rfl⟩, _, rfl⟩

theorem witness_AgentsWriteOnlyTheirRegisters :
    ((∃ t, evtTurn { behind with evt := .enqueue 0x41, flg := ⟨true, false⟩ } = .next t) ∧
      behind.cfg.syncMode = .lagged) ∧
      ((∃ t, exec .tickEvent base = .next t) ∧ base.cfg.tickDelivery = .flag) ∧
      (∃ t, exec .tickEvent { stepper .forward 5 false 0 with cfg := { cfg with tickDelivery := .direct } } = .next t) ∧
      (∃ t, parTurn behind = .next t) ∧ (∃ t, ctlStep behind = .next t) ∧
      (∃ t, exec (.syncTail .bc 3) behind = .next t) ∧ (∃ t, exec (.syncHead .bc 1) behind = .next t) ∧
      (∃ t, exec (.syncTail .cc 2) behind = .next t) ∧ ∃ t, exec (.syncHead .cc 0) behind = .next t :=
  ⟨⟨⟨_, rfl⟩, rfl⟩, ⟨⟨_, rfl⟩, rfl⟩, ⟨_, rfl⟩, ⟨_, rfl⟩, ⟨_, rfl⟩, ⟨_, rfl⟩, ⟨_, rfl⟩, ⟨_, rfl⟩, _, rfl⟩

theorem witness_EveryStepMovesChannelsAsQueues :
    { behind with sched := [.par] }.Inv ∧ (∃ t, step { behind with sched := [.par] } = .next t) ∧
      ∀ rest, { behind with sched := [.par] }.sched ≠ .issue (.step 10 []) :: rest :=
  ⟨state_inv (by decide), ⟨_, rfl⟩, nofun⟩

theorem witness_WholeProgramsAreAgentSteps :
    ((∃ t, exec (.rxEvent 0x41) { base with sched := [] } = .next t) ∧ base.evt = .waiting ∧ base.rx = []) ∧
      ((∃ t, exec (.rxEvent 0x41) { base with rx := [0x44], sched := [] } = .next t) ∧
        { base with rx := [0x44] }.rx ≠ []) ∧
      (base.Inv ∧ ∃ t, exec .parseAndForward { base with sched := [] } = .next t) ∧
      (behind.Inv ∧ ∃ t, exec .controlIter { behind with sched := [] } = .next t) :=
  ⟨⟨⟨_, rfl⟩, rfl, rfl⟩, ⟨⟨_, rfl⟩, nofun⟩, ⟨base_inv, _, rfl⟩, behind_inv, _, rfl⟩

/-- A ring seen full, and the last byte of room. -/
theorem witness_ByteEnqueueResult :
    ptrSub ch4.nBc ch4.bc.tail ch4.bc.headSync = ch4.nBc ∧
      ptrSub base.nBc (State.bytes 9 eight.tail base).bc.tail (State.bytes 9 eight.tail base).bc.headSync ≠ 8 := by
  decide

theorem witness_CommandEnqueueResult :
    ptrSub behind.nCc behind.cc.tail behind.cc.headSync = behind.nCc ∧
      ptrSub base.nCc (State.words 3 [5] base).cc.tail (State.words 3 [5] base).cc.headSync ≠ 2 := by decide

theorem witness_ByteDequeueTakesOldest :
    (base.Inv ∧ base.bc.tailSync = base.bc.head) ∧ (behind.Inv ∧ behind.bc.tailSync ≠ behind.bc.head) :=
  ⟨⟨base_inv, rfl⟩, behind_inv, by decide⟩

theorem witness_CommandDequeueTakesOldest :
    (base.Inv ∧ base.cc.tailSync = base.cc.head) ∧ (behind.Inv ∧ behind.cc.tailSync ≠ behind.cc.head) :=
  ⟨⟨base_inv, rfl⟩, behind_inv, by decide⟩

theorem witness_CommandRoundTrip :
    (State.words 3 [] base).Inv ∧ (State.words 3 [] base).cfg.syncMode = .exact ∧
      (State.words 3 [] base).cc.contents (State.words 3 [] base).nCc = [] :=
  ⟨state_inv (by decide), rfl, by decide⟩

/-- Not seen full with 7 of 8 items; not seen empty with one. -/
theorem witness_LagIsSafe :
    ((State.bytes 9 eight.tail base).bc.Inv 8 ∧ (State.bytes 9 eight.tail base).bc.fullP 8 = false) ∧
      ((State.bytes 15 [0x41] base).bc.Inv 8 ∧ (State.bytes 15 [0x41] base).bc.emptyC = false) :=
  ⟨⟨ring_inv (by decide), by decide⟩, ring_inv (by decide), by decide⟩

theorem witness_ExactModeSeesTrueOccupancy :
    (State.bytes 9 eight (State.words 0 [5] base)).Inv ∧
      (State.bytes 9 eight (State.words 0 [5] base)).cfg.syncMode = .exact := ⟨state_inv (by decide), rfl⟩

theorem witness_EnqueueAndDequeueCommute :
    (behind.Inv ∧ behind.bc.fullP behind.nBc = false ∧ behind.bc.emptyC = false) ∧
      ((State.words 3 [5] base).Inv ∧ (State.words 3 [5] base).cc.fullP (State.words 3 [5] base).nCc = false ∧
        (State.words 3 [5] base).cc.emptyC = false) :=
  ⟨⟨behind_inv, by decide, by decide⟩, state_inv (by decide), by decide, by decide⟩

theorem witness_CapacityIsTheDepth : 0 < 8 ∧ eight.length = 8 := by decide

/-- The copy itself and the pointer itself, the two ends of the range; then one past the pointer, one behind the
copy, and `2N`. -/
theorem witness_SynchroniserStepResult :
    (2 < 2 * behind.nBc ∧ ptrSub behind.nBc 2 behind.bc.tailSync ≤ ptrSub behind.nBc behind.bc.tail behind.bc.tailSync) ∧
      (3 < 2 * behind.nBc ∧
        ptrSub behind.nBc 3 behind.bc.tailSync ≤ ptrSub behind.nBc behind.bc.tail behind.bc.tailSync) ∧
      (1 < 2 * behind.nBc ∧
        ptrSub behind.nBc 1 behind.bc.headSync ≤ ptrSub behind.nBc behind.bc.head behind.bc.headSync) ∧
      (2 < 2 * behind.nCc ∧
        ptrSub behind.nCc 2 behind.cc.tailSync ≤ ptrSub behind.nCc behind.cc.tail behind.cc.tailSync) ∧
      (0 < 2 * behind.nCc ∧
        ptrSub behind.nCc 0 behind.cc.headSync ≤ ptrSub behind.nCc behind.cc.head behind.cc.headSync) ∧
      ptrSub behind.nBc behind.bc.tail behind.bc.tailSync < ptrSub behind.nBc 4 behind.bc.tailSync ∧
      ptrSub behind.nBc behind.bc.head behind.bc.headSync < ptrSub behind.nBc 15 behind.bc.headSync ∧
      ptrSub behind.nCc behind.cc.tail behind.cc.tailSync < ptrSub behind.nCc 0 behind.cc.tailSync ∧
      2 * behind.nCc ≤ 4 := by decide

theorem witness_GrayTestsAgreeWithBinary : 1 ≤ 1 ∧ 1 < 2 ^ 1 ∧ 0 < 2 ^ 1 ∧ 1 ≤ 4 ∧ 15 < 2 ^ 4 ∧ 7 < 2 ^ 4 := by decide

theorem witness_GrayIncrementChangesOneBit : 1 ≤ 4 ∧ 15 < 2 ^ 4 := by decide

/-! A run for EventualDelivery: in `lagged` mode one byte and one word wait, unseen; the synchroniser copies the write
pointers, each consumer dequeues, the synchroniser copies the read pointers, and the consumers go on. -/

/-- The choices. -/
def deliveryTurns : Nat → Turn
  | 0 => .issue (.step 0 [0, 1])
  | 1 => .issue (.step 0 [1, 1])
  | 2 => .issue (.op 1)
  | 3 => .issue (.op 3)
  | 4 => .issue (.step 1 [0, 1])
  | 5 => .issue (.step 1 [1, 1])
  | k + 6 => if k % 2 = 0 then .issue (.op 1) else .issue (.op 3)

/-- The start, after some of the steps. -/
def deliverySome (bcCopies ccCopies : Nat × Nat) (bcHead ccHead : Nat) (r : OpResult) : State :=
  { lagged with
    bc := ⟨[(0, 0x44)], 1, bcHead, bcCopies.1, bcCopies.2⟩
    cc := ⟨[(0, 5)], 1, ccHead, ccCopies.1, ccCopies.2⟩
    res := r }

/-- The states. -/
def deliveryRun : Nat → State
  | 0 => deliverySome (0, 0) (0, 0) 0 0 .unset
  | 1 => deliverySome (0, 1) (0, 0) 0 0 .unset
  | 2 => deliverySome (0, 1) (0, 1) 0 0 .unset
  | 3 => deliverySome (0, 1) (0, 1) 1 0 (.byte (some 0x44))
  | 4 => deliverySome (0, 1) (0, 1) 1 1 (.command (some 5))
  | 5 => deliverySome (1, 1) (0, 1) 1 1 (.command (some 5))
  | k + 6 => deliverySome (1, 1) (1, 1) 1 1 (if k % 2 = 0 then .command (if k = 0 then some 5 else none) else .byte none)

theorem delivery_isRun : IsRun deliveryTurns deliveryRun
  | 0 | 1 | 2 | 3 | 4 | 5 => ⟨nofun, rfl⟩
  | k + 6 => by
    rcases Nat.mod_two_eq_zero_or_one k with h | h
    · have h' : (k + 1) % 2 ≠ 0 := by omega
      simp only [deliveryTurns, deliveryRun, if_pos h, if_neg h']
      by_cases h0 : k = 0
      · subst h0
        exact ⟨nofun, rfl⟩
      · simp only [if_neg h0]
        exact ⟨nofun, rfl⟩
    · have h0 : k % 2 ≠ 0 := by omega
      have h' : (k + 1) % 2 = 0 := by omega
      simp only [deliveryTurns, deliveryRun, if_neg h0, if_pos h', if_neg (Nat.succ_ne_zero k)]
      exact ⟨nofun, rfl⟩

theorem witness_EventualDelivery :
    IsRun deliveryTurns deliveryRun ∧ (deliveryRun 0).Inv ∧ SyncFair deliveryRun ∧
      (∀ k, ∃ m, k ≤ m ∧ (deliveryRun m).dequeuesByte (deliveryTurns m)) ∧
      (∀ k, ∃ m, k ≤ m ∧ (deliveryRun m).dequeuesCommand (deliveryTurns m)) ∧
      (deliveryRun 0).bc.contents 8 = [0x44] ∧ (deliveryRun 0).cc.contents 2 = [5] := by
  refine ⟨delivery_isRun, state_inv (by decide), ?_, fun k => ⟨2 * k + 6, by omega, ?_⟩,
    fun k => ⟨2 * k + 1 + 6, by omega, ?_⟩, by decide, by decide⟩
  · exact ⟨fun k => ⟨⟨k + 6, by omega, rfl⟩, k + 6, by omega, rfl⟩,
      fun k => ⟨⟨k + 6, by omega, rfl⟩, k + 6, by omega, rfl⟩⟩
  · have h : 2 * k % 2 = 0 := by omega
    simp only [deliveryTurns, if_pos h]
    exact .inl (by decide)
  · have h : (2 * k + 1) % 2 ≠ 0 := by omega
    simp only [deliveryTurns, if_neg h]
    exact .inl (by decide)

/-- A byte for each clause: the first and the last digit, the bytes beside them, a byte that is no prefix and no
direction. -/
theorem witness_TransitionTable :
    PState.scan ≠ .idle ∧ (0x30 ≤ (0x30 : Byte).toNat ∧ (0x30 : Byte).toNat ≤ 0x39) ∧
      (0x30 ≤ (0x39 : Byte).toNat ∧ (0x39 : Byte).toNat ≤ 0x39) ∧ (0x2F : Byte).toNat < 0x30 ∧
      0x39 < (0x3A : Byte).toNat ∧
      ((0x58 : Byte) ≠ 0x41 ∧ (0x58 : Byte) ≠ 0x53 ∧ (0x58 : Byte) ≠ 0x44) ∧
      ((0x58 : Byte) ≠ 0x46 ∧ (0x58 : Byte) ≠ 0x42 ∧ (0x58 : Byte) ≠ 0x53) := by decide

theorem witness_ParseStepResult :
    base.p.pstate = .idle ∧ ((scan []).Inv ∧ (scan []).p.pstate ≠ .idle ∧ (scan []).visibleBytes = []) ∧
      (behind.Inv ∧ behind.p.pstate ≠ .idle ∧ behind.visibleBytes = 0x46 :: []) :=
  ⟨rfl, ⟨state_inv (by decide), by decide, by decide⟩, behind_inv, by decide, by decide⟩

theorem witness_ParseComputesParseList :
    (State.bytes 6 [0x41, 0x58, 0x53, 0x30, 0x30, 0x35] base).Inv ∧
      (State.bytes 6 [0x41, 0x58, 0x53, 0x30, 0x30, 0x35] base).p.pstate = .idle := ⟨state_inv (by decide), rfl⟩

theorem witness_ParseListEquations : (0x58 : Byte) ≠ 0x41 ∧ (0x58 : Byte) ≠ 0x53 ∧ (0x58 : Byte) ≠ 0x44 := by decide

/-- Digits 0 and 9. -/
theorem witness_AngleCommandResult :
    (scan [0x41, 0x30, 0x39, 0x30]).Inv ∧ (scan [0x41, 0x30, 0x39, 0x30]).p.pstate = .scan ∧
      (0 : BitVec 4).toNat ≤ 9 ∧ (9 : BitVec 4).toNat ≤ 9 ∧
      (scan [0x41, 0x30, 0x39, 0x30]).visibleBytes = [0x41, 0x3#4 ++ 0#4, 0x3#4 ++ 9#4, 0x3#4 ++ 0#4] ++ [] :=
  ⟨state_inv (by decide), rfl, by decide, by decide, by decide⟩

theorem witness_SpeedCommandResult :
    (scan [0x53, 0x30, 0x30, 0x35, 0x31]).Inv ∧ (scan [0x53, 0x30, 0x30, 0x35, 0x31]).p.pstate = .scan ∧
      (scan [0x53, 0x30, 0x30, 0x35, 0x31]).visibleBytes =
        [0x53, 0x3#4 ++ 0#4, 0x3#4 ++ 0#4, 0x3#4 ++ 5#4] ++ [0x31] :=
  ⟨state_inv (by decide), rfl, by decide⟩

theorem witness_DirectionCommandsResult :
    ((scan [0x44, 0x46]).Inv ∧ (scan [0x44, 0x46]).p.pstate = .scan ∧
      (scan [0x44, 0x46]).visibleBytes = [0x44, 0x46] ++ []) ∧
      ((scan [0x44, 0x42]).Inv ∧ (scan [0x44, 0x42]).p.pstate = .scan ∧
        (scan [0x44, 0x42]).visibleBytes = [0x44, 0x42] ++ []) ∧
      ((scan [0x44, 0x53, 0x30]).Inv ∧ (scan [0x44, 0x53, 0x30]).p.pstate = .scan ∧
        (scan [0x44, 0x53, 0x30]).visibleBytes = [0x44, 0x53] ++ [0x30]) :=
  ⟨⟨state_inv (by decide), rfl, by decide⟩, ⟨state_inv (by decide), rfl, by decide⟩, state_inv (by decide), rfl,
    by decide⟩

theorem witness_SkippedByteResult :
    (scan [0x40]).Inv ∧ (scan [0x40]).p.pstate = .scan ∧ (0x40 : Byte) ≠ 0x41 ∧ (0x40 : Byte) ≠ 0x44 ∧
      (0x40 : Byte) ≠ 0x53 ∧ (scan [0x40]).visibleBytes = 0x40 :: [] :=
  ⟨state_inv (by decide), rfl, by decide, by decide, by decide, by decide⟩

/-- The bytes beside the digits, no and two digits taken; a direction prefix with a byte that is no argument. -/
theorem witness_MalformedPayloadResult :
    ((scan [0x41, 0x3A]).Inv ∧ (scan [0x41, 0x3A]).p.pstate = .scan ∧ 0x39 < (0x3A : Byte).toNat ∧
      (scan [0x41, 0x3A]).visibleBytes = leadByte .angle :: ([] : List (BitVec 4)).map digitByte ++ [0x3A] ++ []) ∧
      ((scan [0x53, 0x39, 0x30, 0x2F]).Inv ∧ (scan [0x53, 0x39, 0x30, 0x2F]).p.pstate = .scan ∧
        [9#4, 0#4].length ≤ 2 ∧ (∀ d ∈ [9#4, 0#4], d.toNat ≤ 9) ∧ (0x2F : Byte).toNat < 0x30 ∧
        (scan [0x53, 0x39, 0x30, 0x2F]).visibleBytes = leadByte .speed :: [9#4, 0#4].map digitByte ++ [0x2F] ++ []) ∧
      ((scan [0x44, 0x44]).Inv ∧ (scan [0x44, 0x44]).p.pstate = .scan ∧
        ((0x44 : Byte) ≠ 0x46 ∧ (0x44 : Byte) ≠ 0x42 ∧ (0x44 : Byte) ≠ 0x53) ∧
        (scan [0x44, 0x44]).visibleBytes = 0x44 :: 0x44 :: []) :=
  ⟨⟨state_inv (by decide), rfl, by decide, by decide⟩,
    ⟨state_inv (by decide), rfl, by decide, by decide, by decide, by decide⟩,
    state_inv (by decide), rfl, by decide, by decide⟩

/-- No digit and two digits taken; a bare direction prefix. -/
theorem witness_IncompletePayloadResult :
    ((scan [0x41]).Inv ∧ (scan [0x41]).p.pstate = .scan ∧ (scan [0x41]).visibleBytes = leadByte .angle :: [].map digitByte) ∧
      ((scan [0x53, 0x30, 0x39]).Inv ∧ (scan [0x53, 0x30, 0x39]).p.pstate = .scan ∧ [0#4, 9#4].length ≤ 2 ∧
        (∀ d ∈ [0#4, 9#4], d.toNat ≤ 9) ∧
        (scan [0x53, 0x30, 0x39]).visibleBytes = leadByte .speed :: [0#4, 9#4].map digitByte) ∧
      ((scan [0x44]).Inv ∧ (scan [0x44]).p.pstate = .scan ∧
        (scan [0x44]).visibleBytes = leadByte .direction :: [].map digitByte) :=
  ⟨⟨state_inv (by decide), rfl, by decide⟩, ⟨state_inv (by decide), rfl, by decide, by decide, by decide⟩,
    state_inv (by decide), rfl, by decide⟩

theorem witness_ParseAndForwardResult :
    ((State.bytes 6 [0x44, 0x46] base).Inv ∧ (State.bytes 6 [0x44, 0x46] base).p.pstate = .idle ∧
      (State.bytes 6 [0x44, 0x46] base).par = none ∧
      (parseList (State.bytes 6 [0x44, 0x46] base).visibleBytes).1 = .ok (.setDirection .forward)) ∧
      (base.Inv ∧ base.p.pstate = .idle ∧ base.par = none ∧ (parseList base.visibleBytes).1 = .err) :=
  ⟨⟨state_inv (by decide), rfl, rfl, by decide⟩, base_inv, rfl, rfl, by decide⟩

/-- Stop; speed 0; a count at the threshold; a count just below it. -/
theorem witness_AdvanceTickResult :
    (stepper .stop 5 true 0).stp.direction = .stop ∧ (stepper .backward 0 true 0).stp.speed = 0 ∧
      (stepper .forward 5 true 2).cfg.tickFrequency.toNat / (stepper .forward 5 true 2).stp.speed.toNat ≤
        (stepper .forward 5 true 2).stp.elapsedTicks.toNat ∧
      (stepper .forward 5 true 1).stp.elapsedTicks.toNat <
        (stepper .forward 5 true 1).cfg.tickFrequency.toNat / (stepper .forward 5 true 1).stp.speed.toNat := by decide

theorem witness_AdvanceBlockingResult :
    (stepper .stop 5 true 0).stp.direction = .stop ∧
      ((stepper .backward 0 true 0).stp.direction = .backward ∧ (stepper .backward 0 true 0).stp.speed = 0) ∧
      ((stepper .forward 2000 true 0).stp.direction = .forward ∧ (stepper .forward 2000 true 0).stp.speed ≠ 0) := by
  decide

theorem witness_HalfPeriodIsThresholdPlusOne :
    (stepper .forward 5 false 0).stp.direction ≠ .stop ∧ (stepper .forward 5 false 0).stp.speed ≠ 0 ∧
      (stepper .forward 5 false 0).stp.elapsedTicks = 0 ∧
      2 ≤ (stepper .forward 5 false 0).cfg.tickFrequency.toNat / (stepper .forward 5 false 0).stp.speed.toNat := by
  decide

theorem witness_SpeedZeroNeverToggles :
    ((stepper .forward 0 true 1).stp.speed = 0 ∧ (stepper .forward 0 true 1).stp.direction ≠ .stop) ∧
      ((stepper .stop 0 true 2).stp.speed = 0 ∧ (stepper .stop 0 true 2).stp.direction = .stop) := by decide

/-- The largest count allowed. -/
theorem witness_TickCounterNeverWraps :
    (stepper .forward 1 false 10).stp.elapsedTicks ≤ (stepper .forward 1 false 10).cfg.tickFrequency ∧
      ∃ t, exec .advanceTick (stepper .forward 1 false 10) = .next t := ⟨by decide, _, rfl⟩

theorem witness_SetAngleResult : behind.Inv ∧ base.srv.maxAngle ≤ 180 ∧ base.srv.maxAngle ≤ 65535 :=
  ⟨behind_inv, by decide, by decide⟩

theorem witness_CenterResult : base.Inv ∧ 90 ≤ base.srv.maxAngle.toNat := ⟨base_inv, by decide⟩

/-- SV5's pairs: each inequality at its last good value and one past it. -/
theorem witness_ServoNewResult :
    ((1000 : U16) = base.cfg.dutyAtZero ∧ (180 : U16) = base.cfg.maxAngle) ∧
      (3 * (21845 : U16).toNat ≤ 65535 ∧
        2 * (21845 : U16).toNat / 90 * (90 : U16).toNat + (21845 : U16).toNat ≤ 65535 ∧
        (21845 : U16) ≠ base.cfg.dutyAtZero) ∧
      65535 < 3 * (21846 : U16).toNat ∧
      65535 < 2 * (1000 : U16).toNat / 90 * (2934 : U16).toNat + (1000 : U16).toNat := by decide

theorem witness_PulseResult :
    { cfg with pulseVariant := .blocking }.pulseVariant = .blocking ∧
      (cfg.pulseVariant = .tick ∧ { cfg with tickDelivery := .direct }.tickDelivery = .direct) ∧
      (base.cfg.pulseVariant = .tick ∧ base.cfg.tickDelivery = .flag ∧ base.flg.tickReady = false) ∧
      { base with flg := ⟨false, true⟩ }.flg.tickReady = true := by decide

theorem witness_ControlIterResult :
    (base.Inv ∧ base.ctl = .top ∧ gives (exec .ccDeq base) (fun t => decide (t.res = .command none)) = true) ∧
      (behind.Inv ∧ behind.ctl = .top ∧
        gives (exec .ccDeq behind) (fun t => decide (t.res = .command (some 0x100000000))) = true) :=
  ⟨⟨base_inv, rfl, by decide⟩, behind_inv, rfl, by decide⟩

theorem witness_RxEventResult :
    (ch4.evt = .waiting ∧ ch4.rx = [] ∧ ptrSub ch4.nBc ch4.bc.tail ch4.bc.headSync = ch4.nBc) ∧
      (base.evt = .waiting ∧ base.rx = [] ∧ ptrSub base.nBc base.bc.tail base.bc.headSync ≠ base.nBc) ∧
      { base with evt := .setFlag }.evt ≠ .waiting ∧ { base with rx := [0x44] }.rx ≠ [] ∧
      { base with sched := [.byteIn 0x41] }.sched = .byteIn 0x41 :: [] ∧ { base with rx := [0x41] }.rx = 0x41 :: [] ∧
      { base with evt := .enqueue 0x41 }.evt = .enqueue 0x41 := by decide

theorem witness_TickEventResult :
    (base.cfg.pulseVariant = .tick ∧ base.cfg.tickDelivery = .flag) ∧
      { cfg with tickDelivery := .direct }.tickDelivery = .direct ∧
      { cfg with pulseVariant := .blocking }.pulseVariant = .blocking := by decide

end Sys2Proof.Machine.Tests
end

section
/-! PROOFS. What the decoder answers, and so what a step can answer: said once, for every law that holds of every
step. -/

namespace Sys2Proof

/-! ## What the decoder answers -/

/-- What the payload decoder of `A` and `S` answers is well-formed, and bytes of the wire. -/
theorem DigitsAnswer.wellFormed_wire {p : Lead} {whole : BitVec 4 → BitVec 4 → BitVec 4 → Instr} {bs : List Byte}
    {o : Instr × List Byte} (h : DigitsAnswer p whole [] bs o) (hmax : takenMax p = 2)
    (hfits : ∀ b, fitsPayload p b = isDigit b)
    (hwhole : ∀ d0 d1 d2, [d0, d1, d2].all digitOk = true →
      (whole d0 d1 d2).wellFormed = true ∧ ∃ bytes, encode (whole d0 d1 d2) = .wire bytes) :
    o.1.wellFormed = true ∧ ∃ bytes, encode o.1 = .wire bytes := by
  have htaken : ∀ more : List (BitVec 4), more.length ≤ 2 → more.all digitOk = true →
      takenOk p ([] ++ more) = true := by
    intro more hl hd
    simp [takenOk, hmax, hd, hl]
  cases h with
  | incomplete more hl hd _ => exact ⟨htaken more (by simpa using hl) hd, _, rfl⟩
  | malformed more b rest hl hd hn _ =>
    refine ⟨?_, _, rfl⟩
    show (takenOk p ([] ++ more) && !fitsPayload p b) = true
    rw [htaken more (by simpa using hl) hd, hfits, hn]
    rfl
  | whole d0 d1 d2 more rest ht hd _ =>
    rw [List.nil_append] at ht
    exact hwhole d0 d1 d2 (ht ▸ hd)

theorem decodeDirection_wellFormed_wire (bs : List Byte) :
    (decodeDirection bs).1.wellFormed = true ∧ ∃ bytes, encode (decodeDirection bs).1 = .wire bytes := by
  cases bs with
  | nil => exact ⟨rfl, _, rfl⟩
  | cons b rest =>
    simp only [decodeDirection]
    split
    · exact ⟨rfl, _, rfl⟩
    · exact ⟨rfl, _, rfl⟩
    · exact ⟨rfl, _, rfl⟩
    · rename_i hd
      refine ⟨?_, _, rfl⟩
      show (takenOk .direction [] && !(directionOf b).isSome) = true
      rw [hd]
      rfl

/-- The first wire command of a byte list is well-formed, and bytes of the wire. -/
theorem decodeWire_ok {bs rest : List Byte} {i : Instr} (h : decodeWire bs = .ok (i, rest)) :
    i.wellFormed = true ∧ ∃ bytes, encode i = .wire bytes := by
  cases bs with
  | nil => cases h
  | cons b bs =>
    simp only [decodeWire] at h
    split at h
    · have ha := decodeDigits_answer .angle .a bs [] (Nat.zero_le _)
      rw [Except.ok.inj h] at ha
      exact ha.wellFormed_wire rfl (fun _ => rfl) fun d0 d1 d2 hd =>
        ⟨by simpa [Instr.wellFormed, Bool.and_assoc] using hd, _, rfl⟩
    · have ha := decodeDigits_answer .speed .s bs [] (Nat.zero_le _)
      rw [Except.ok.inj h] at ha
      exact ha.wellFormed_wire rfl (fun _ => rfl) fun d0 d1 d2 hd =>
        ⟨by simpa [Instr.wellFormed, Bool.and_assoc] using hd, _, rfl⟩
    · have ha := decodeDirection_wellFormed_wire bs
      rw [Except.ok.inj h] at ha
      exact ha
    · rename_i hl
      cases h
      exact ⟨by rw [Instr.wellFormed, hl]; rfl, _, rfl⟩

/-- A Command word is well-formed as an instruction, and a Command word. -/
theorem decodeCommand_ok {w : CmdWord} {i : Instr} (h : decodeCommand w = .ok i) :
    i.wellFormed = true ∧ ∃ v, encode i = .command v := by
  unfold decodeCommand at h
  split at h
  · cases h
    exact ⟨rfl, _, rfl⟩
  · split at h <;> cases h <;> exact ⟨rfl, _, rfl⟩

theorem opField_map_ok {k : Nat} {w : BitVec 38} {f : BitVec k → Instr} {i : Instr}
    (h : (opField k w).map f = .ok i) : ∃ v, i = f v := by
  cases ho : opField k w with
  | error e =>
    rw [ho] at h
    cases h
  | ok v =>
    rw [ho] at h
    cases h
    exact ⟨v, rfl⟩

theorem opBare_ok {j i : Instr} {w : BitVec 38} (h : opBare j w = .ok i) : i = j := by
  unfold opBare at h
  split at h
  · exact (Except.ok.inj h).symm
  · cases h

/-- A decoded port operation is well-formed, and a port operation. -/
theorem decodeOp_ok {w : BitVec 38} {i : Instr} (h : decodeOp w = .ok i) :
    i.wellFormed = true ∧ ∃ v, encode i = .op v := by
  unfold decodeOp at h
  split at h
  case h_3 =>
    split at h
    · rename_i hw
      cases h
      exact ⟨hw, _, rfl⟩
    · cases h
  case h_6 =>
    split at h
    · split at h <;> cases h
      exact ⟨rfl, _, rfl⟩
    · cases h
  case h_1 | h_7 | h_10 | h_12 | h_13 | h_15 =>
    obtain ⟨v, rfl⟩ := opField_map_ok h
    exact ⟨rfl, _, rfl⟩
  all_goals
    obtain rfl := opBare_ok h
    exact ⟨rfl, _, rfl⟩

/-- The operands of an internal step are read as a well-formed instruction, and only number 10 without operands as
RESET. -/
theorem stepOf_some {k : Nat} {operands : List Nat} {i : Instr} (h : stepOf k operands = some i) :
    i.wellFormed = true ∧ (i = .reset → k = 10 ∧ operands = []) := by
  unfold stepOf at h
  split at h
  case h_1 | h_2 | h_9 =>
    obtain ⟨v, -, rfl⟩ := Option.map_eq_some_iff.mp h
    exact ⟨rfl, nofun⟩
  case h_5 =>
    obtain ⟨w, -, h⟩ := Option.bind_eq_some_iff.mp h
    split at h
    · rename_i hw
      cases h
      exact ⟨hw, nofun⟩
    · cases h
  case h_8 =>
    obtain ⟨d, -, h⟩ := Option.bind_eq_some_iff.mp h
    obtain ⟨m, -, rfl⟩ := Option.map_eq_some_iff.mp h
    exact ⟨rfl, nofun⟩
  case h_11 =>
    cases h
    exact ⟨rfl, fun _ => ⟨rfl, rfl⟩⟩
  case h_12 => cases h
  all_goals
    cases h
    exact ⟨rfl, nofun⟩

/-- The decoder answers well-formed instructions only (30_encoding.md R72, R82), and RESET for its own code only (log
11). -/
theorem decode_ok {c : Code} {i : Instr} (h : decode c = .ok i) :
    i.wellFormed = true ∧ (i = .reset → c = .step 10 []) := by
  cases c with
  | wire bytes =>
    simp only [decode] at h
    split at h
    · rename_i hd
      cases h
      obtain ⟨hw, bytes', he⟩ := decodeWire_ok hd
      exact ⟨hw, fun hr => by rw [hr] at he; cases he⟩
    · cases h
    · cases h
  | command w =>
    obtain ⟨hw, v, he⟩ := decodeCommand_ok h
    exact ⟨hw, fun hr => by rw [hr] at he; cases he⟩
  | op w =>
    obtain ⟨hw, v, he⟩ := decodeOp_ok h
    exact ⟨hw, fun hr => by rw [hr] at he; cases he⟩
  | step k operands =>
    simp only [decode, decodeStep] at h
    split at h
    · rename_i hs
      cases h
      obtain ⟨hw, hr⟩ := stepOf_some hs
      refine ⟨hw, fun hi => ?_⟩
      obtain ⟨rfl, rfl⟩ := hr hi
      rfl
    · split at h <;> cases h

end Sys2Proof

namespace Sys2Proof.Machine

/-! ## What a step answers -/

/-- The Command word in the loop's hand, decoded and executed, is its DISPATCH (44_control_loop.md R190). -/
theorem commandTurn_eq_dispatch (w : CmdWord) (s : State) : commandTurn w s = execDispatch w (s.withCtl .pulse) := by
  unfold commandTurn execDispatch
  simp only [decode, decodeCommand]
  by_cases hw : wordTag w = 3
  · have hm : mkWord 3 (wordPayload w) = w := by rw [← hw, mkWord_fields]
    have hn : commandOfWord w = none := by simp [commandOfWord, hw]
    rw [if_pos hw, hn]
    show Host.Outcome.refused (Refusal.illFormedCommand (mkWord 3 (wordPayload w))) = _
    rw [hm]
  · rw [if_neg hw]
    cases hc : commandOfWord w with
    | none => rfl
    | some c => cases c <;> rfl

/-- One step of the control loop, with its Command words fetched and decoded, is its step. -/
theorem ctlStep_eq_ctlTurn (s : State) : ctlStep s = ctlTurn s := by
  unfold ctlStep ctlTurn
  cases s.ctl with
  | top => rfl
  | dispatch w => exact commandTurn_eq_dispatch w s
  | pulse => rfl

/-- What a step can answer: nothing scheduled, it idles; else, with that choice taken off the schedule, a well-formed
instruction (RESET only where its code is issued), an agent's atomic step, a raised byte, or a refusal. -/
inductive StepAnswer (s : State) : Result → Prop where
  | idle : StepAnswer s (.next s)
  | instr (rest : List Turn) (i : Instr) (hw : i.wellFormed = true)
      (hr : i = .reset → s.sched = .issue (.step 10 []) :: rest) : StepAnswer s (exec i (s.withSched rest))
  | evt (rest : List Turn) : StepAnswer s (evtTurn (s.withSched rest))
  | par (rest : List Turn) : StepAnswer s (parTurn (s.withSched rest))
  | ctl (rest : List Turn) : StepAnswer s (ctlTurn (s.withSched rest))
  | byteIn (rest : List Turn) (b : Byte) : StepAnswer s (.next (raiseByte b (s.withSched rest)))
  | refused (r : Refusal) : StepAnswer s (.refused r)

theorem issueTurn_answer {s : State} {c : Code} {rest : List Turn} (hs : s.sched = .issue c :: rest) :
    StepAnswer s (issueTurn c (s.withSched rest)) := by
  unfold issueTurn
  split
  · rename_i i hd
    obtain ⟨hw, hr⟩ := decode_ok hd
    split
    · exact .refused _
    · exact .instr rest i hw fun hi => by rw [hs, hr hi]
  · exact .refused _

theorem wireTurn_answer (s : State) (rest : List Turn) : StepAnswer s (wireTurn (s.withSched rest)) := by
  unfold wireTurn
  split
  · split
    · rename_i i _ hd
      obtain ⟨hw, bytes, he⟩ := decodeWire_ok hd
      exact .instr rest i hw fun hi => by rw [hi] at he; cases he
    · exact .instr rest .parseStep rfl nofun
  · exact .par rest

theorem step_answer (s : State) : StepAnswer s (step s) := by
  unfold step
  split
  · exact .idle
  · rename_i t rest hs
    cases t with
    | issue c => exact issueTurn_answer hs
    | wire => exact wireTurn_answer s rest
    | byteIn b => exact .byteIn rest b
    | evt => exact .evt rest
    | par => exact .par rest
    | ctl =>
      rw [runTurn, ctlStep_eq_ctlTurn]
      exact .ctl rest

end Sys2Proof.Machine
end

section
/-! PROOFS. 10_state.md R31, R32: the invariant holds at reset, every step keeps it, and what its lines say. -/

namespace Sys2Proof.Machine

/-! ## Reset -/

/-- The reset table of every configuration meets the invariant (10_state.md R31, R32). -/
theorem resetWith_inv (c : Config) (sched : List Turn) : (State.resetWith c sched).Inv where
  bc := Ring.empty_inv (Nat.two_pow_pos _)
  cc := Ring.empty_inv (Nat.two_pow_pos _)
  synced := fun _ => ⟨⟨rfl, rfl⟩, ⟨rfl, rfl⟩⟩
  acc := ⟨Nat.zero_le _, fun _ => Nat.zero_le _, fun _ => Nat.zero_le _⟩
  resting := fun _ => rfl
  ticks := Nat.zero_le _
  servo := rfl
  ccWords := nofun
  ctlWord := nofun

/-! ## Steps -/

/-- Every well-formed instruction keeps the invariant, and faults only as a stub does. -/
theorem exec_sound (i : Instr) (hw : i.wellFormed = true) (s : State) (h : s.Inv) : Result.Sound (exec i s) := by
  cases i with
  | a | s | df | db | ds | skip | malformed => exact wireCommand_sound _ s h
  | incomplete p taken => exact execIncomplete_sound p taken s h
  | cmdSetSpeed v => exact execSetSpeed_sound v s h
  | cmdSetDirection d => exact execSetDir_sound d s h
  | cmdSetServoAngle angle => exact execSetAngle_sound angle s h
  | cmdReserved => trivial
  | bcEnq b => exact execBcEnq_sound b s h
  | bcDeq => exact execBcDeq_sound s h
  | ccEnq w => exact execCcEnq_sound w hw s h
  | ccDeq => exact execCcDeq_sound s h
  | parse => exact execParse_sound s h
  | setDir d => exact execSetDir_sound d s h
  | setSpeed v => exact execSetSpeed_sound v s h
  | advanceTick => exact execAdvanceTick_sound s h
  | advanceBlocking => exact execAdvanceBlocking_sound s h
  | setAngle angle => exact execSetAngle_sound angle s h
  | center => exact execCenter_sound s h
  | flagSet f => exact execFlagSet_sound f s h
  | flagTake f => exact execFlagTake_sound f s h
  | hold | setAccel | estop => exact ⟨_, rfl⟩
  | syncTail ch v => exact execSyncTail_sound ch v s h
  | syncHead ch v => exact execSyncHead_sound ch v s h
  | parseStep => exact execParseStep_sound s h
  | parseAndForward => exact execParseAndForward_sound s h
  | dispatch w => exact execDispatch_sound w s h
  | controlIter => exact execControlIter_sound s h
  | pulse => exact execPulse_sound s h
  | servoNew dz ma => exact execServoNew_sound dz ma s h
  | rxEvent b => exact execRxEvent_sound b s h
  | tickEvent => exact execTickEvent_sound s h
  | reset => exact resetWith_inv _ _

theorem StepAnswer.sound {s : State} {o : Result} (ha : StepAnswer s o) (h : s.Inv) : Result.Sound o := by
  cases ha with
  | idle => exact h
  | instr rest i hw => exact exec_sound i hw _ (h.withSched rest)
  | evt rest => exact evtTurn_sound _ (h.withSched rest)
  | par rest => exact parTurn_sound _ (h.withSched rest)
  | ctl rest => exact ctlTurn_sound _ (h.withSched rest)
  | byteIn rest b => exact raiseByte_inv b _ (h.withSched rest)
  | refused => trivial

/-- A step from a state with the invariant keeps it, and faults only as a stub does. -/
theorem step_sound (s : State) (h : s.Inv) : Result.Sound (step s) := (step_answer s).sound h

/-- Settles O10: what a step answers is an instruction's or an agent's own step, and each of them keeps the
invariant. -/
theorem stepKeepsInvariant : Obligations.StepKeepsInvariant := by
  intro s t h hst
  have hs := step_sound s h
  rwa [hst] at hs

/-- Settles O11. -/
theorem resetMeetsInvariant : Obligations.ResetMeetsInvariant := ⟨resetWith_inv, resetWith_inv _ _⟩

/-! ## What the invariant gives -/

/-- Lines I1 to I5 of 10_state.md R32: the three gaps of a ring add up to at most its depth, and each count is a sum of
them. -/
theorem Ring.Inv.gaps_le {α : Type} {n : Nat} {r : Ring α} (h : r.Inv n) :
    ptrSub n r.tail r.head ≤ n ∧ ptrSub n r.head r.headSync ≤ n ∧ ptrSub n r.tail r.tailSync ≤ n ∧
      ptrSub n r.tail r.headSync ≤ n ∧ ptrSub n r.tailSync r.head ≤ n ∧
      ptrSub n r.tailSync r.head ≤ ptrSub n r.tail r.head := by
  have horder := h.order
  have hlen := h.len_eq
  have hbelieved := h.believed_eq
  unfold Ring.len Ring.seen at *
  omega

/-- Settles O12: the counts of a channel are sums of its three gaps; the other two lines are parts of the
invariant. -/
theorem invariantGivesPointerBounds : Obligations.InvariantGivesPointerBounds := by
  refine ⟨fun α n r h => h.gaps_le, fun s h => ⟨h.acc.1, ?_⟩⟩
  exact BitVec.le_def.mp h.ticks

end Sys2Proof.Machine
end

section
/-! PROOFS. What no step writes: the configuration, the servo's registers once built, and the events already on the
trace (10_state.md R10, R18, R21, R30). -/

namespace Sys2Proof.Machine

/-! ## The servo's registers -/

/-- Where the answer is a next state: the servo's registers are kept (10_state.md R18). -/
def Result.KeepsServo (s : State) (o : Result) : Prop :=
  match o with
  | .next t => t.srv = s.srv
  | .fault _ => True
  | .refused _ => True

theorem Result.KeepsServo.andThen {s : State} {o : Result} {f : State → Result} (h : Result.KeepsServo s o)
    (hf : ∀ t, Result.KeepsServo t (f t)) : Result.KeepsServo s (andThen o f) := by
  cases o with
  | next t =>
    have ht := hf t
    rw [andThen_next]
    cases hft : f t with
    | next u =>
      rw [hft] at ht
      exact Eq.trans ht h
    | fault r => trivial
    | refused r => trivial
  | fault r => trivial
  | refused r => trivial

theorem execBcEnq_keepsServo (b : Byte) (s : State) : Result.KeepsServo s (execBcEnq b s) := by
  unfold execBcEnq
  split <;> exact rfl

theorem execBcDeq_keepsServo (s : State) : Result.KeepsServo s (execBcDeq s) := by
  unfold execBcDeq
  split
  · exact rfl
  · exact rfl
  · trivial

theorem execCcEnq_keepsServo (w : CmdWord) (s : State) : Result.KeepsServo s (execCcEnq w s) := by
  unfold execCcEnq
  split <;> exact rfl

theorem execCcDeq_keepsServo (s : State) : Result.KeepsServo s (execCcDeq s) := by
  unfold execCcDeq
  split
  · exact rfl
  · exact rfl
  · trivial

theorem execSyncTail_keepsServo (ch : ChannelId) (v : Nat) (s : State) :
    Result.KeepsServo s (execSyncTail ch v s) := by
  cases ch <;>
  · simp only [execSyncTail]
    split
    · exact rfl
    · trivial

theorem execSyncHead_keepsServo (ch : ChannelId) (v : Nat) (s : State) :
    Result.KeepsServo s (execSyncHead ch v s) := by
  cases ch <;>
  · simp only [execSyncHead]
    split
    · exact rfl
    · trivial

theorem parseOn_keepsServo (r : Option Byte) (s : State) : Result.KeepsServo s (parseOn r s) := by
  unfold parseOn applyTransition
  split
  · split <;> exact rfl
  · trivial

theorem execParseStep_keepsServo (s : State) : Result.KeepsServo s (execParseStep s) := by
  unfold execParseStep
  split
  · trivial
  · split
    · exact parseOn_keepsServo none s
    · exact parseOn_keepsServo _ (s.withBc _)
    · trivial

theorem parseLoop_keepsServo (k : Nat) : ∀ s : State, Result.KeepsServo s (parseLoop k s) := by
  induction k with
  | zero => exact execParseStep_keepsServo
  | succ k ih =>
    intro s
    refine (execParseStep_keepsServo s).andThen fun t => ?_
    split
    · exact rfl
    · exact ih t

theorem parseCall_keepsServo (s : State) : Result.KeepsServo s (parseCall s) := parseLoop_keepsServo _ (startCall s)

theorem execParse_keepsServo (s : State) : Result.KeepsServo s (execParse s) := by
  unfold execParse
  split
  · refine (parseCall_keepsServo s).andThen fun t => ?_
    unfold reportParse
    split <;> exact rfl
  · trivial

theorem forward_keepsServo (r : ParseResult) (s : State) : Result.KeepsServo s (forward r s) := by
  cases r with
  | ok c => exact execCcEnq_keepsServo _ (s.withPar none)
  | err => exact rfl

theorem execParseAndForward_keepsServo (s : State) : Result.KeepsServo s (execParseAndForward s) := by
  unfold execParseAndForward
  split
  · refine (parseCall_keepsServo s).andThen fun t => ?_
    unfold forwardHeld
    split
    · exact forward_keepsServo _ t
    · exact rfl
  · trivial

theorem parTurn_keepsServo (s : State) : Result.KeepsServo s (parTurn s) := by
  unfold parTurn
  split
  · exact forward_keepsServo _ s
  · split
    · exact rfl
    · exact execParseStep_keepsServo s

theorem parseSteps_keepsServo (k : Nat) : ∀ s : State, Result.KeepsServo s (parseSteps k s) := by
  induction k with
  | zero => exact fun _ => rfl
  | succ k ih => exact fun s => (execParseStep_keepsServo s).andThen ih

theorem wireCommand_keepsServo (bytes : List Byte) (s : State) : Result.KeepsServo s (wireCommand bytes s) := by
  unfold wireCommand
  split
  · trivial
  · split
    · exact parseSteps_keepsServo _ s
    · trivial

theorem execIncomplete_keepsServo (p : Lead) (taken : List (BitVec 4)) (s : State) :
    Result.KeepsServo s (execIncomplete p taken s) := by
  unfold execIncomplete
  split
  · trivial
  · split
    · exact parseSteps_keepsServo _ s
    · trivial

theorem applyDirection_srv (s : State) : (applyDirection s).srv = s.srv := by
  rw [applyDirection_eq]

theorem execAdvanceTick_keepsServo (s : State) : Result.KeepsServo s (execAdvanceTick s) := by
  unfold execAdvanceTick
  split
  · exact rfl
  · split
    · exact applyDirection_srv s
    · exact applyDirection_srv s

theorem blockingPulse_srv (half : U32) (s : State) : (blockingPulse half s).srv = s.srv := rfl

theorem execAdvanceBlocking_keepsServo (s : State) : Result.KeepsServo s (execAdvanceBlocking s) := by
  unfold execAdvanceBlocking
  split
  · exact rfl
  · split
    · exact applyDirection_srv s
    · exact (blockingPulse_srv _ _).trans (applyDirection_srv s)

theorem runCommand_keepsServo (c : Command) (s : State) : Result.KeepsServo s (runCommand c s) := by
  cases c <;> exact rfl

theorem execDispatch_keepsServo (w : CmdWord) (s : State) : Result.KeepsServo s (execDispatch w s) := by
  unfold execDispatch
  split
  · exact runCommand_keepsServo _ s
  · trivial

theorem execPulse_keepsServo (s : State) : Result.KeepsServo s (execPulse s) := by
  unfold execPulse takeAndAdvance
  split
  · exact execAdvanceBlocking_keepsServo s
  · split
    · split
      · exact Result.KeepsServo.andThen (o := execFlagTake _ s) rfl execAdvanceTick_keepsServo
      · exact rfl
    · exact rfl

theorem ctlTurn_keepsServo (s : State) : Result.KeepsServo s (ctlTurn s) := by
  unfold ctlTurn ctlDequeue
  split
  · refine (execCcDeq_keepsServo s).andThen fun t => ?_
    split <;> exact rfl
  · exact execDispatch_keepsServo _ (s.withCtl .pulse)
  · exact execPulse_keepsServo (s.withCtl .top)

theorem ctlFinish_keepsServo (k : Nat) : ∀ s : State, Result.KeepsServo s (ctlFinish k s) := by
  induction k with
  | zero => exact fun _ => rfl
  | succ k ih =>
    intro s
    unfold ctlFinish
    split
    · exact rfl
    · exact (ctlTurn_keepsServo s).andThen ih

theorem execControlIter_keepsServo (s : State) : Result.KeepsServo s (execControlIter s) := by
  unfold execControlIter
  split
  · exact (ctlTurn_keepsServo s).andThen (ctlFinish_keepsServo 2)
  · trivial

theorem evtTurn_keepsServo (s : State) : Result.KeepsServo s (evtTurn s) := by
  unfold evtTurn echoByte
  split
  · split
    · exact rfl
    · split <;> exact rfl
  · exact execBcEnq_keepsServo _ (s.withEvt .setFlag)
  · exact rfl

theorem execRxEvent_keepsServo (b : Byte) (s : State) : Result.KeepsServo s (execRxEvent b s) := by
  unfold execRxEvent
  split
  · exact ((evtTurn_keepsServo (raiseByte b s)).andThen evtTurn_keepsServo).andThen evtTurn_keepsServo
  · exact rfl

theorem execTickEvent_keepsServo (s : State) : Result.KeepsServo s (execTickEvent s) := by
  unfold execTickEvent tickHandler
  split
  · split
    · exact rfl
    · exact execAdvanceTick_keepsServo s
  · trivial

/-- SERVO_NEW writes what construction wrote before (43_servo.md R180). -/
theorem execServoNew_keepsServo (dz ma : U16) (s : State) (hb : s.servoBuilt) :
    Result.KeepsServo s (execServoNew dz ma s) := by
  unfold execServoNew
  split
  · split
    · rename_i he
      obtain ⟨rfl, rfl⟩ := he
      exact hb.symm
    · trivial
  · trivial

/-- No instruction changes the servo's registers, once construction wrote them. -/
theorem exec_keepsServo (i : Instr) (s : State) (hb : s.servoBuilt) : Result.KeepsServo s (exec i s) := by
  cases i with
  | a | s | df | db | ds | skip | malformed => exact wireCommand_keepsServo _ s
  | incomplete p taken => exact execIncomplete_keepsServo p taken s
  | cmdReserved => trivial
  | bcEnq b => exact execBcEnq_keepsServo b s
  | bcDeq => exact execBcDeq_keepsServo s
  | ccEnq w => exact execCcEnq_keepsServo w s
  | ccDeq => exact execCcDeq_keepsServo s
  | parse => exact execParse_keepsServo s
  | cmdSetSpeed | cmdSetDirection | cmdSetServoAngle | setDir | setSpeed | setAngle | center | flagSet | flagTake =>
    exact rfl
  | advanceTick => exact execAdvanceTick_keepsServo s
  | advanceBlocking => exact execAdvanceBlocking_keepsServo s
  | hold | setAccel | estop => trivial
  | syncTail ch v => exact execSyncTail_keepsServo ch v s
  | syncHead ch v => exact execSyncHead_keepsServo ch v s
  | parseStep => exact execParseStep_keepsServo s
  | parseAndForward => exact execParseAndForward_keepsServo s
  | dispatch w => exact execDispatch_keepsServo w s
  | controlIter => exact execControlIter_keepsServo s
  | pulse => exact execPulse_keepsServo s
  | servoNew dz ma => exact execServoNew_keepsServo dz ma s hb
  | rxEvent b => exact execRxEvent_keepsServo b s
  | tickEvent => exact execTickEvent_keepsServo s
  | reset => exact hb.symm

theorem StepAnswer.keepsServo {s : State} {o : Result} (ha : StepAnswer s o) (hb : s.servoBuilt) :
    Result.KeepsServo s o := by
  cases ha with
  | idle => exact rfl
  | instr rest i => exact exec_keepsServo i (s.withSched rest) hb
  | evt rest => exact evtTurn_keepsServo (s.withSched rest)
  | par rest => exact parTurn_keepsServo (s.withSched rest)
  | ctl rest => exact ctlTurn_keepsServo (s.withSched rest)
  | byteIn => exact rfl
  | refused => trivial

/-! ## Configuration and trace -/

/-- Every instruction but RESET keeps the configuration and appends to the trace. -/
theorem exec_follows (i : Instr) (hi : i ≠ .reset) (s : State) : Result.Follows s (exec i s) := by
  cases i with
  | a | s | df | db | ds | skip | malformed => exact wireCommand_follows _ s
  | incomplete p taken => exact execIncomplete_follows p taken s
  | cmdSetSpeed v => exact runCommand_follows (.setSpeed v) s
  | cmdSetDirection d => exact runCommand_follows (.setDirection d) s
  | cmdSetServoAngle angle => exact runCommand_follows (.setServoAngle angle) s
  | cmdReserved => trivial
  | bcEnq b => exact execBcEnq_follows b s
  | bcDeq => exact execBcDeq_follows s
  | ccEnq w => exact execCcEnq_follows w s
  | ccDeq => exact execCcDeq_follows s
  | parse => exact execParse_follows s
  | setDir | setSpeed | flagSet | flagTake => exact follows_same rfl rfl
  | setAngle | center => exact ⟨rfl, _, rfl⟩
  | advanceTick => exact execAdvanceTick_follows s
  | advanceBlocking => exact execAdvanceBlocking_follows s
  | hold | setAccel | estop => trivial
  | syncTail ch v => exact execSyncTail_follows ch v s
  | syncHead ch v => exact execSyncHead_follows ch v s
  | parseStep => exact execParseStep_follows s
  | parseAndForward => exact execParseAndForward_follows s
  | dispatch w => exact execDispatch_follows w s
  | controlIter => exact execControlIter_follows s
  | pulse => exact execPulse_follows s
  | servoNew dz ma => exact execServoNew_follows dz ma s
  | rxEvent b => exact execRxEvent_follows b s
  | tickEvent => exact execTickEvent_follows s
  | reset => exact absurd rfl hi

/-- A step keeps the configuration and appends to the trace, or is an issued RESET. -/
theorem StepAnswer.follows {s : State} {o : Result} (ha : StepAnswer s o) :
    Result.Follows s o ∨ ∃ rest, s.sched = .issue (.step 10 []) :: rest ∧ o = execReset (s.withSched rest) := by
  cases ha with
  | idle => exact .inl (follows_same rfl rfl)
  | instr rest i _ hr =>
    by_cases hi : i = .reset
    · exact .inr ⟨rest, hr hi, by rw [hi]; rfl⟩
    · exact .inl (exec_follows i hi (s.withSched rest))
  | evt rest => exact .inl (evtTurn_follows (s.withSched rest))
  | par rest => exact .inl (parTurn_follows (s.withSched rest))
  | ctl rest => exact .inl (ctlTurn_follows (s.withSched rest))
  | byteIn rest b => exact .inl (raiseByte_follows b (s.withSched rest))
  | refused => exact .inl trivial

/-- Settles O15: every step but RESET keeps the configuration, and so does RESET; SERVO_NEW and RESET write the servo's
registers as construction did, and nothing else writes them. -/
theorem configurationNeverChanges : Obligations.ConfigurationNeverChanges := by
  intro s t hst
  have ha := step_answer s
  rw [hst] at ha
  refine ⟨?_, ha.keepsServo⟩
  rcases ha.follows with ⟨hcfg, -⟩ | ⟨rest, -, ht⟩
  · exact hcfg
  · cases ht
    rfl

/-- Settles O16: every step but an issued RESET appends to the trace. -/
theorem traceOnlyGrows : Obligations.TraceOnlyGrows := by
  intro s t hst
  have ha := step_answer s
  rw [hst] at ha
  rcases ha.follows with ⟨-, htrace⟩ | ⟨rest, hs, -⟩
  · exact .inl htrace
  · exact .inr ⟨rest, hs⟩

end Sys2Proof.Machine
end

section
/-! PROOFS. Tier 1: the step at a scan position (10_state.md R15, 41_parser.md R124) and RESET (10_state.md R31). -/

namespace Sys2Proof.Machine

/-- A step takes the next choice off the schedule and runs it. -/
theorem step_cons {s : State} {t : Turn} {rest : List Turn} (hs : s.sched = t :: rest) :
    step s = runTurn t (s.withSched rest) := by
  rw [step, hs]

section

variable {s : State} (hp : s.p.pstate = .scan) (hr : s.par = none)

include hp hr

/-- At a scan position the parser agent runs the wire command that the bytes it sees decode to. -/
theorem wireTurn_of_decodeWire {i : Instr} {bytes : List Byte} (hd : decodeWire s.visibleBytes = .ok (i, bytes)) :
    wireTurn s = exec i s := by
  rw [wireTurn, if_pos ⟨hp, hr⟩, hd]

/-- At a scan position with no byte in sight it runs the step that ends the call (41_parser.md R124). -/
theorem wireTurn_of_visibleBytes_nil (hv : s.visibleBytes = []) : wireTurn s = exec .parseStep s := by
  rw [wireTurn, if_pos ⟨hp, hr⟩, hv, decodeWire]

end

/-- Settles O8: the step is the parser agent's turn, at a scan position. -/
theorem stepRunsWireCommandAtHead : Obligations.StepRunsWireCommandAtHead := by
  refine ⟨fun s rest i bytes hs hp hr hd => ?_, fun s rest hs hp hr hv => ?_⟩
  · exact (step_cons hs).trans (wireTurn_of_decodeWire (s := s.withSched rest) hp hr hd)
  · exact (step_cons hs).trans (wireTurn_of_visibleBytes_nil (s := s.withSched rest) hp hr hv)

/-- SERVO_NEW of the configuration's own pair, which is valid, writes its registers (43_servo.md R180). -/
theorem execServoNew_config (s : State) :
    execServoNew s.cfg.dutyAtZero s.cfg.maxAngle s =
      .next (s.withSrv (Servo.new s.cfg.dutyAtZero s.cfg.maxAngle)) := by
  rw [execServoNew, if_pos s.cfg.servo_ok, if_pos ⟨rfl, rfl⟩]

/-- Settles O60: RESET goes to the reset table of the configuration, whose servo is that of SERVO_NEW. -/
theorem resetResult : Obligations.ResetResult := by
  intro s
  exact ⟨State.resetWith s.cfg s.sched, rfl, rfl, rfl, rfl, rfl, rfl, rfl, rfl, rfl, rfl, rfl,
    Memory.get_nil, Memory.get_nil, rfl, rfl, rfl, execServoNew_config s, rfl, rfl, rfl, rfl, rfl, rfl, rfl⟩

end Sys2Proof.Machine
end

section
/-! PROOFS. How one step moves one channel (20_memory.md R54): the consumer's moves, the enqueue, the synchroniser's
steps, and a move after the consumer's. -/

namespace Sys2Proof.Machine

section

variable {α : Type} {n : Nat} {r r' r'' : Ring α}

/-- A distance between pointers is at most the distances over a third pointer. -/
theorem ptrSub_le_add {a b c : Nat} (ha : a < 2 * n) (hb : b < 2 * n) (hc : c < 2 * n) :
    ptrSub n a c ≤ ptrSub n a b + ptrSub n b c := by
  rw [ptrSub_eq n _ _ ha hc, ptrSub_eq n _ _ ha hb, ptrSub_eq n _ _ hb hc]
  split_ifs <;> omega

/-- Only the consumer's side of a channel moved. -/
structure Ring.Consumed (n : Nat) (r r' : Ring α) : Prop where
  drained : Ring.Drained n r r'
  tailSync : r'.tailSync = r.tailSync

theorem Ring.Consumed.refl (h : r.Inv n) : Ring.Consumed n r r := ⟨Ring.Drained.refl h, rfl⟩

theorem Ring.Consumed.trans (h : r.Inv n) (h' : r'.Inv n) (h'' : r''.Inv n) (a : Ring.Consumed n r r')
    (b : Ring.Consumed n r' r'') : Ring.Consumed n r r'' :=
  ⟨Ring.Drained.trans h h' h'' a.drained b.drained, b.tailSync.trans a.tailSync⟩

theorem Ring.Inv.deq_consumed (h : r.Inv n) (exact : Bool) (v : α) (he : r.deq n exact = .item v r') :
    Ring.Consumed n r r' := by
  refine ⟨h.deq_drained exact v he, ?_⟩
  obtain ⟨-, -, rfl⟩ := Ring.deq_item _ _ he
  rfl

/-- The read pointer advances by as many items as left. -/
theorem Ring.Consumed.len_eq (h : r.Inv n) (h' : r'.Inv n) (a : Ring.Consumed n r r') :
    r.len n = r'.len n + ptrSub n r'.head r.head := by
  obtain ⟨k, hk, hcontents, hhead, -⟩ := a.drained
  have hlength := congrArg List.length hcontents
  rw [List.length_drop, h.contents_length, h'.contents_length] at hlength
  omega

/-- How one step moves a channel: items leave at the front, as many as the read pointer advances; at most one is added
at the end, as many as the write pointer advances; what the consumer saw it still sees, but for what left. -/
structure Ring.Moved (n : Nat) (r r' : Ring α) : Prop where
  inv : r'.Inv n
  added : ∃ xs, r'.contents n = (r.contents n).drop (ptrSub n r'.head r.head) ++ xs ∧
    xs.length = ptrSub n r'.tail r.tail ∧ xs.length ≤ 1
  head_le : ptrSub n r'.head r.head ≤ r.len n
  seen_le : r.seen n ≤ r'.seen n + ptrSub n r'.head r.head

theorem Ring.Moved.queueStep (m : Ring.Moved n r r') : Ring.QueueStep n r r' where
  inv := m.inv
  moved := by
    obtain ⟨xs, hcontents, -⟩ := m.added
    exact ⟨xs, hcontents⟩
  le := m.head_le
  seen := m.seen_le

/-- A move that leaves the two pointers and the contents alone. -/
theorem Ring.Moved.of_pointers (h : r.Inv n) (h' : r'.Inv n) (hhead : r'.head = r.head) (htail : r'.tail = r.tail)
    (hcontents : r'.contents n = r.contents n) (hseen : r.seen n ≤ r'.seen n) : Ring.Moved n r r' where
  inv := h'
  added := by
    rw [hhead, htail, ptrSub_self n _ h.head_lt, ptrSub_self n _ h.tail_lt, hcontents]
    exact ⟨[], (List.append_nil _).symm, rfl, Nat.zero_le _⟩
  head_le := by
    rw [hhead, ptrSub_self n _ h.head_lt]
    exact Nat.zero_le _
  seen_le := Nat.le_add_right_of_le hseen

theorem Ring.Moved.refl (h : r.Inv n) : Ring.Moved n r r := .of_pointers h h rfl rfl rfl le_rfl

/-- Items taken before a move are taken by the move. -/
theorem Ring.Consumed.trans_moved (h : r.Inv n) (h' : r'.Inv n) (a : Ring.Consumed n r r')
    (b : Ring.Moved n r' r'') : Ring.Moved n r r'' := by
  have hlen := a.len_eq h h'
  have hle := b.head_le
  have hhead : ptrSub n r''.head r.head = ptrSub n r'.head r.head + ptrSub n r''.head r'.head := by
    have hn := h.len_le
    have x := h.head_lt
    have x' := h'.head_lt
    have x'' := b.inv.head_lt
    rw [ptrSub_eq n _ _ x'' x, ptrSub_eq n _ _ x' x, ptrSub_eq n _ _ x'' x'] at *
    split_ifs at * <;> omega
  have hseen : r.seen n ≤ r'.seen n + ptrSub n r'.head r.head := by
    unfold Ring.seen
    rw [a.tailSync]
    exact ptrSub_le_add h.tailSync_lt h'.head_lt h.head_lt
  obtain ⟨k, -, hdrop, hk, htail⟩ := a.drained
  obtain ⟨xs, hcontents, hxs, hone⟩ := b.added
  refine { inv := b.inv, added := ⟨xs, ?_, ?_, hone⟩, head_le := by omega, seen_le := ?_ }
  · rw [hcontents, hdrop, List.drop_drop, hhead, hk]
  · rw [hxs, htail]
  · have := b.seen_le
    omega

theorem Ring.Consumed.moved (h : r.Inv n) (h' : r'.Inv n) (a : Ring.Consumed n r r') : Ring.Moved n r r' :=
  a.trans_moved h h' (.refl h')

theorem Ring.Inv.enq_moved (h : r.Inv n) (exact : Bool) (x : α) (he : r.enq n exact x = some r') :
    Ring.Moved n r r' := by
  have h' := h.enq exact x he
  have hlen := h.enq_len exact x he
  have hcontents := h.enq_contents exact x he
  obtain ⟨htail, hhead⟩ := h.enq_tail exact x he
  have hself := ptrSub_self n _ h.head_lt
  refine { inv := h', added := ⟨[x], ?_, htail.symm, le_rfl⟩, head_le := ?_, seen_le := ?_ }
  · rw [hcontents, hhead, hself, List.drop_zero]
  · rw [hhead, hself]
    exact Nat.zero_le _
  · rw [hhead, hself, Nat.add_zero]
    have hseen := h.seen_le
    have hlen' := h'.len_eq
    obtain ⟨-, rfl⟩ := Ring.enq_some _ _ he
    cases exact with
    | true =>
      have hz : ptrSub n (ptrNext n r.tail) (ptrNext n r.tail) = 0 := ptrSub_self n _ (ptrNext_lt n _ h.pos)
      simp only [if_true, hz] at *
      omega
    | false => exact le_rfl

/-- The consumer's copy moves towards the write pointer: it sees no less. -/
theorem Ring.Inv.syncTail_moved (h : r.Inv n) (v : Nat) (he : r.syncTail n v = some r') : Ring.Moved n r r' := by
  have h' := h.syncTail v he
  obtain ⟨hv, hle, rfl⟩ := Ring.syncTail_some v he
  refine .of_pointers h h' rfl rfl rfl ?_
  have h1 := h.tail_lt
  have h2 := h.head_lt
  have h3 := h.tailSync_lt
  have ho := h.order
  show ptrSub n r.tailSync r.head ≤ ptrSub n v r.head
  unfold Ring.seen at ho
  generalize ptrSub n r.head r.headSync = g at *
  rw [ptrSub_eq n _ _ hv h3, ptrSub_eq n _ _ h1 h3] at hle
  rw [ptrSub_eq n _ _ h3 h2, ptrSub_eq n _ _ h1 h3] at ho
  rw [ptrSub_eq n _ _ hv h2, ptrSub_eq n _ _ h3 h2]
  split_ifs at * <;> omega

theorem Ring.Inv.syncHead_moved (h : r.Inv n) (v : Nat) (he : r.syncHead n v = some r') : Ring.Moved n r r' := by
  have h' := h.syncHead v he
  obtain ⟨-, -, rfl⟩ := Ring.syncHead_some v he
  exact .of_pointers h h' rfl rfl rfl le_rfl

end
end Sys2Proof.Machine
end

section
/-! PROOFS. 20_memory.md R54 (O1 to O3): in every step but a reset each channel moves as a queue. A meaning leaves the
channels alone (`State.SameChannels`), only takes items from them (`State.Consumed`), or is an enqueue or a
synchroniser's step. -/

namespace Sys2Proof.Machine

/-! ## Answers -/

/-- What holds of the next state, where the answer is one. -/
def Result.Post (P : State → Prop) (o : Result) : Prop :=
  match o with
  | .next t => P t
  | .fault _ => True
  | .refused _ => True

theorem Result.Post.andThen {P Q : State → Prop} {o : Result} {f : State → Result} (h : Result.Post P o)
    (hf : ∀ t, P t → Result.Post Q (f t)) : Result.Post Q (andThen o f) := by
  cases o with
  | next t => exact hf t h
  | fault r => trivial
  | refused r => trivial

theorem Result.Post.and {P Q : State → Prop} {o : Result} (h : Result.Post P o) (h' : Result.Post Q o) :
    Result.Post (fun t => P t ∧ Q t) o := by
  cases o with
  | next t => exact ⟨h, h'⟩
  | fault r => trivial
  | refused r => trivial

theorem Result.Post.mono {P Q : State → Prop} {o : Result} (h : Result.Post P o) (hPQ : ∀ t, P t → Q t) :
    Result.Post Q o := by
  cases o with
  | next t => exact hPQ t h
  | fault r => trivial
  | refused r => trivial

theorem Result.Sound.post {o : Result} (h : Result.Sound o) : Result.Post State.Inv o := by
  cases o with
  | next t => exact h
  | fault r => trivial
  | refused r => trivial

theorem Result.ParserMoved.post {s : State} {o : Result} (h : Result.ParserMoved s o) :
    Result.Post s.ParserMoved o := by
  cases o with
  | next t => exact h
  | fault r => trivial
  | refused r => trivial

/-! ## Meanings that leave the channels alone -/

/-- The two channels and their depths are as before. -/
structure State.SameChannels (s t : State) : Prop where
  cfg : t.cfg = s.cfg
  bc : t.bc = s.bc
  cc : t.cc = s.cc

theorem State.SameChannels.refl (s : State) : s.SameChannels s := ⟨rfl, rfl, rfl⟩

theorem State.SameChannels.trans {s t u : State} (a : s.SameChannels t) (b : t.SameChannels u) : s.SameChannels u :=
  ⟨b.cfg.trans a.cfg, b.bc.trans a.bc, b.cc.trans a.cc⟩

theorem applyDirection_same (s : State) : s.SameChannels (applyDirection s) := by
  rw [applyDirection_eq]
  exact ⟨rfl, rfl, rfl⟩

theorem execAdvanceTick_same (s : State) : Result.Post s.SameChannels (execAdvanceTick s) := by
  unfold execAdvanceTick
  split
  · exact ⟨rfl, rfl, rfl⟩
  · split
    · exact applyDirection_same s
    · exact (applyDirection_same s).trans ⟨rfl, rfl, rfl⟩

theorem blockingPulse_same (half : U32) (s : State) : s.SameChannels (blockingPulse half s) := ⟨rfl, rfl, rfl⟩

theorem execAdvanceBlocking_same (s : State) : Result.Post s.SameChannels (execAdvanceBlocking s) := by
  unfold execAdvanceBlocking
  split
  · exact .refl s
  · split
    · exact applyDirection_same s
    · exact (applyDirection_same s).trans (blockingPulse_same _ _)

theorem runCommand_same (c : Command) (s : State) : Result.Post s.SameChannels (runCommand c s) := by
  cases c <;> exact ⟨rfl, rfl, rfl⟩

theorem execDispatch_same (w : CmdWord) (s : State) : Result.Post s.SameChannels (execDispatch w s) := by
  unfold execDispatch
  split
  · exact runCommand_same _ s
  · trivial

theorem execFlagTake_same (f : FlagId) (s : State) : Result.Post s.SameChannels (execFlagTake f s) :=
  ⟨rfl, rfl, rfl⟩

theorem takeAndAdvance_same (s : State) : Result.Post s.SameChannels (takeAndAdvance s) := by
  unfold takeAndAdvance
  split
  · exact (execFlagTake_same _ s).andThen fun t a => (execAdvanceTick_same t).mono fun _ => a.trans
  · exact execFlagTake_same _ s

theorem execPulse_same (s : State) : Result.Post s.SameChannels (execPulse s) := by
  unfold execPulse
  split
  · exact execAdvanceBlocking_same s
  · split
    · exact takeAndAdvance_same s
    · exact .refl s

theorem execTickEvent_same (s : State) : Result.Post s.SameChannels (execTickEvent s) := by
  unfold execTickEvent tickHandler
  split
  · split
    · exact ⟨rfl, rfl, rfl⟩
    · exact execAdvanceTick_same s
  · trivial

theorem execServoNew_same (dz ma : U16) (s : State) : Result.Post s.SameChannels (execServoNew dz ma s) := by
  unfold execServoNew
  split
  · split
    · exact ⟨rfl, rfl, rfl⟩
    · trivial
  · trivial

theorem withCtl_same (s : State) (x : CtlPos) : s.SameChannels (s.withCtl x) := ⟨rfl, rfl, rfl⟩

theorem echoByte_same (b : Byte) (s : State) : s.SameChannels (echoByte b s) := by
  unfold echoByte
  split <;> exact ⟨rfl, rfl, rfl⟩

/-- A byte raised where the event context rests is taken by its first line (60_exceptions.md R212). -/
theorem evtTurn_raiseByte (b : Byte) {s : State} (hevt : s.evt = .waiting) (hrx : s.rx = []) :
    ∃ u, evtTurn (raiseByte b s) = .next u ∧ u.evt = .enqueue b ∧ s.SameChannels u := by
  have hsame := echoByte_same b (raiseByte b s)
  refine ⟨((echoByte b (raiseByte b s)).withEvt (.enqueue b)).withRx [], ?_, rfl, hsame.cfg, hsame.bc, hsame.cc⟩
  rw [evtTurn, show (raiseByte b s).evt = .waiting from hevt, show (raiseByte b s).rx = [b] by rw [raiseByte, hrx]; rfl]

theorem evtTurn_enqueue {b : Byte} {s : State} (hevt : s.evt = .enqueue b) :
    evtTurn s = execBcEnq b (s.withEvt .setFlag) := by
  rw [evtTurn, hevt]

theorem evtTurn_setFlag {s : State} (hevt : s.evt = .setFlag) :
    evtTurn s = execFlagSet .dataReady (s.withEvt .waiting) := by
  rw [evtTurn, hevt]

theorem execBcEnq_evt (b : Byte) (s : State) : Result.Post (fun t => t.evt = s.evt) (execBcEnq b s) := by
  unfold execBcEnq
  split <;> exact rfl

/-! ## Meanings that only take items -/

/-- Only the consumers' sides of the channels moved. -/
structure State.Consumed (s t : State) : Prop where
  inv : t.Inv
  nBc : t.nBc = s.nBc
  nCc : t.nCc = s.nCc
  bc : Ring.Consumed s.nBc s.bc t.bc
  cc : Ring.Consumed s.nCc s.cc t.cc

/-- How one step moves the channels. -/
structure State.Moved (s t : State) : Prop where
  bc : Ring.Moved s.nBc s.bc t.bc
  cc : Ring.Moved s.nCc s.cc t.cc

section

variable {s t u : State} {o : Result} {f : State → Result}

theorem State.SameChannels.consumed (h : s.Inv) (ht : t.Inv) (a : s.SameChannels t) : s.Consumed t where
  inv := ht
  nBc := congrArg Config.byteDepth a.cfg
  nCc := congrArg Config.cmdDepth a.cfg
  bc := by
    rw [a.bc]
    exact .refl h.bc
  cc := by
    rw [a.cc]
    exact .refl h.cc

theorem State.SameChannels.moved (h : s.Inv) (a : s.SameChannels t) : s.Moved t where
  bc := by
    rw [a.bc]
    exact .refl h.bc
  cc := by
    rw [a.cc]
    exact .refl h.cc

theorem State.Moved.trans_same (m : s.Moved t) (a : t.SameChannels u) : s.Moved u where
  bc := a.bc ▸ m.bc
  cc := a.cc ▸ m.cc

theorem State.Moved.refl (h : s.Inv) : s.Moved s := (State.SameChannels.refl s).moved h

theorem State.Consumed.refl (h : s.Inv) : s.Consumed s := (State.SameChannels.refl s).consumed h h

theorem State.Consumed.bcInv (a : s.Consumed t) : t.bc.Inv s.nBc := a.nBc ▸ a.inv.bc

theorem State.Consumed.ccInv (a : s.Consumed t) : t.cc.Inv s.nCc := a.nCc ▸ a.inv.cc

theorem State.Consumed.trans (h : s.Inv) (a : s.Consumed t) (b : t.Consumed u) : s.Consumed u := by
  have hbc := b.bc
  have hcc := b.cc
  have hbc' := b.bcInv
  have hcc' := b.ccInv
  rw [a.nBc] at hbc hbc'
  rw [a.nCc] at hcc hcc'
  exact ⟨b.inv, b.nBc.trans a.nBc, b.nCc.trans a.nCc, a.bc.trans h.bc a.bcInv hbc' hbc,
    a.cc.trans h.cc a.ccInv hcc' hcc⟩

theorem State.Consumed.trans_moved (h : s.Inv) (a : s.Consumed t) (b : t.Moved u) : s.Moved u := by
  have hbc := b.bc
  have hcc := b.cc
  rw [a.nBc] at hbc
  rw [a.nCc] at hcc
  exact ⟨a.bc.trans_moved h.bc a.bcInv hbc, a.cc.trans_moved h.cc a.ccInv hcc⟩

theorem State.Consumed.moved (h : s.Inv) (a : s.Consumed t) : s.Moved t :=
  ⟨a.bc.moved h.bc a.bcInv, a.cc.moved h.cc a.ccInv⟩

theorem Result.Post.consumed (h : s.Inv) (hs : Result.Sound o) (ho : Result.Post s.SameChannels o) :
    Result.Post s.Consumed o :=
  (ho.and hs.post).mono fun _ a => a.1.consumed h a.2

theorem Result.Post.andThen_consumed (h : s.Inv) (ho : Result.Post s.Consumed o)
    (hf : ∀ t, t.Inv → Result.Post t.Consumed (f t)) : Result.Post s.Consumed (Machine.andThen o f) :=
  ho.andThen fun t a => (hf t a.inv).mono fun _ => a.trans h

/-- What follows only has to keep the invariant and leave the channels alone. -/
theorem Result.Post.andThen_same (h : s.Inv) (ho : Result.Post s.Consumed o) (hs : Result.Sound (Machine.andThen o f))
    (hf : ∀ t, Result.Post t.SameChannels (f t)) : Result.Post s.Consumed (Machine.andThen o f) := by
  cases o with
  | next t => exact (Result.Post.consumed ho.inv hs (hf t)).mono fun _ => ho.trans h
  | fault r => trivial
  | refused r => trivial

theorem Result.Post.andThen_moved (h : s.Inv) (ho : Result.Post s.Consumed o)
    (hf : ∀ t, t.Inv → Result.Post t.Moved (f t)) : Result.Post s.Moved (Machine.andThen o f) :=
  ho.andThen fun t a => (hf t a.inv).mono fun _ => a.trans_moved h

theorem Result.Post.moved (h : s.Inv) (ho : Result.Post s.Consumed o) : Result.Post s.Moved o :=
  ho.mono fun _ => State.Consumed.moved h

end

/-! The parser's steps take bytes (41_parser.md R121). -/

theorem parseOn_bc (r : Option Byte) (s : State) : Result.Post (fun t => t.bc = s.bc) (parseOn r s) := by
  unfold parseOn applyTransition
  split
  · split <;> exact rfl
  · trivial

theorem execParseStep_tailSync (s : State) :
    Result.Post (fun t => t.bc.tailSync = s.bc.tailSync) (execParseStep s) := by
  unfold execParseStep
  split
  · trivial
  · split
    · exact (parseOn_bc none s).mono fun _ => congrArg Ring.tailSync
    · rename_i b r hd
      obtain ⟨-, -, rfl⟩ := Ring.deq_item _ _ hd
      exact (parseOn_bc (some b) (s.withBc _)).mono fun _ => congrArg Ring.tailSync
    · trivial

theorem parseSteps_tailSync (k : Nat) :
    ∀ s : State, Result.Post (fun t => t.bc.tailSync = s.bc.tailSync) (parseSteps k s) := by
  induction k with
  | zero => exact fun _ => rfl
  | succ k ih => exact fun s => (execParseStep_tailSync s).andThen fun t a => (ih t).mono fun _ b => b.trans a

theorem parseLoop_tailSync (k : Nat) :
    ∀ s : State, Result.Post (fun t => t.bc.tailSync = s.bc.tailSync) (parseLoop k s) := by
  induction k with
  | zero => exact execParseStep_tailSync
  | succ k ih =>
    refine fun s => (execParseStep_tailSync s).andThen fun t a => ?_
    split
    · exact a
    · exact (ih t).mono fun _ b => b.trans a

section

variable {s : State} (h : s.Inv)

include h

theorem State.ParserMoved.consumed {t : State} (a : s.ParserMoved t) (hsync : t.bc.tailSync = s.bc.tailSync) :
    s.Consumed t := by
  refine ⟨a.inv, a.nBc, a.nCc, ⟨a.bc, hsync⟩, ?_⟩
  rw [a.cc]
  exact .refl h.cc

theorem execParseStep_consumed : Result.Post s.Consumed (execParseStep s) :=
  ((execParseStep_moved s h).post.and (execParseStep_tailSync s)).mono fun _ a => a.1.consumed h a.2

theorem parseSteps_consumed (k : Nat) : Result.Post s.Consumed (parseSteps k s) :=
  ((parseSteps_moved k s h).post.and (parseSteps_tailSync k s)).mono fun _ a => a.1.consumed h a.2

theorem parseLoop_consumed (k : Nat) : Result.Post s.Consumed (parseLoop k s) :=
  ((parseLoop_moved k s h).post.and (parseLoop_tailSync k s)).mono fun _ a => a.1.consumed h a.2

theorem startCall_consumed : s.Consumed (startCall s) :=
  State.SameChannels.consumed h (startCall_inv s h) ⟨rfl, rfl, rfl⟩

theorem parseCall_consumed : Result.Post s.Consumed (parseCall s) :=
  (parseLoop_consumed (startCall_inv s h) _).mono fun _ => (startCall_consumed h).trans h

theorem execParse_consumed : Result.Post s.Consumed (execParse s) := by
  have hs := execParse_sound s h
  unfold execParse at hs ⊢
  by_cases hp : s.p.pstate = .idle
  · rw [if_pos hp] at hs ⊢
    refine (parseCall_consumed h).andThen_same h hs fun t => ?_
    unfold reportParse
    split <;> exact ⟨rfl, rfl, rfl⟩
  · rw [if_neg hp]
    trivial

theorem wireCommand_consumed (bytes : List Byte) : Result.Post s.Consumed (wireCommand bytes s) := by
  unfold wireCommand
  split
  · trivial
  · split
    · exact parseSteps_consumed h _
    · trivial

theorem execIncomplete_consumed (p : Lead) (taken : List (BitVec 4)) :
    Result.Post s.Consumed (execIncomplete p taken s) := by
  unfold execIncomplete
  split
  · trivial
  · split
    · exact parseSteps_consumed h _
    · trivial

theorem execBcDeq_consumed : Result.Post s.Consumed (execBcDeq s) := by
  have hs := execBcDeq_sound s h
  unfold execBcDeq at hs ⊢
  rcases h.bc.deq_cases s.cfg.isExact with ⟨-, hd⟩ | ⟨b, -, -, hd⟩
  · rw [hd] at hs ⊢
    exact State.SameChannels.consumed h hs ⟨rfl, rfl, rfl⟩
  · rw [hd] at hs ⊢
    exact ⟨hs, rfl, rfl, h.bc.deq_consumed _ _ hd, .refl h.cc⟩

theorem execCcDeq_consumed : Result.Post s.Consumed (execCcDeq s) := by
  rcases execCcDeq_cases s h with ⟨-, e⟩ | ⟨w, r, -, hd, -, hi, e⟩
  · rw [e]
    exact State.SameChannels.consumed h (h.withRes _) ⟨rfl, rfl, rfl⟩
  · rw [e]
    exact ⟨hi.withRes _, rfl, rfl, .refl h.bc, h.cc.deq_consumed _ _ hd⟩

theorem ctlDequeue_consumed : Result.Post s.Consumed (ctlDequeue s) :=
  (execCcDeq_consumed h).andThen_same h (ctlDequeue_sound s h) fun t => by
    split <;> exact ⟨rfl, rfl, rfl⟩

theorem ctlTurn_consumed : Result.Post s.Consumed (ctlTurn s) := by
  have hs := ctlTurn_sound s h
  unfold ctlTurn at hs ⊢
  cases hc : s.ctl with
  | top => exact ctlDequeue_consumed h
  | dispatch w =>
    rw [hc] at hs
    exact .consumed h hs ((execDispatch_same w _).mono fun _ => (withCtl_same s _).trans)
  | pulse =>
    rw [hc] at hs
    exact .consumed h hs ((execPulse_same _).mono fun _ => (withCtl_same s _).trans)

theorem ctlFinish_consumed (k : Nat) : Result.Post s.Consumed (ctlFinish k s) := by
  induction k generalizing s with
  | zero => exact State.Consumed.refl h
  | succ k ih =>
    unfold ctlFinish
    split
    · exact State.Consumed.refl h
    · exact (ctlTurn_consumed h).andThen_consumed h fun _ ht => ih ht

theorem execControlIter_consumed : Result.Post s.Consumed (execControlIter s) := by
  unfold execControlIter
  split
  · exact (ctlTurn_consumed h).andThen_consumed h fun _ ht => ctlFinish_consumed ht 2
  · trivial

/-! ## Enqueues and the synchroniser's steps -/

theorem execBcEnq_moved (b : Byte) : Result.Post s.Moved (execBcEnq b s) := by
  unfold execBcEnq
  split
  · exact ⟨.refl h.bc, .refl h.cc⟩
  · rename_i r he
    exact ⟨h.bc.enq_moved _ _ he, .refl h.cc⟩

theorem execCcEnq_moved (w : CmdWord) : Result.Post s.Moved (execCcEnq w s) := by
  unfold execCcEnq
  split
  · exact ⟨.refl h.bc, .refl h.cc⟩
  · rename_i r he
    exact ⟨.refl h.bc, h.cc.enq_moved _ _ he⟩

theorem execSyncTail_moved (ch : ChannelId) (v : Nat) : Result.Post s.Moved (execSyncTail ch v s) := by
  cases ch with
  | bc =>
    simp only [execSyncTail]
    split
    · rename_i r he
      exact ⟨h.bc.syncTail_moved v he, .refl h.cc⟩
    · trivial
  | cc =>
    simp only [execSyncTail]
    split
    · rename_i r he
      exact ⟨.refl h.bc, h.cc.syncTail_moved v he⟩
    · trivial

theorem execSyncHead_moved (ch : ChannelId) (v : Nat) : Result.Post s.Moved (execSyncHead ch v s) := by
  cases ch with
  | bc =>
    simp only [execSyncHead]
    split
    · rename_i r he
      exact ⟨h.bc.syncHead_moved v he, .refl h.cc⟩
    · trivial
  | cc =>
    simp only [execSyncHead]
    split
    · rename_i r he
      exact ⟨.refl h.bc, h.cc.syncHead_moved v he⟩
    · trivial


theorem forward_moved (r : ParseResult) : Result.Post s.Moved (forward r s) := by
  cases r with
  | ok c => exact (execCcEnq_moved h.withParNone _).mono fun _ m => ⟨m.bc, m.cc⟩
  | err => exact State.SameChannels.moved h ⟨rfl, rfl, rfl⟩

theorem forwardHeld_moved : Result.Post s.Moved (forwardHeld s) := by
  unfold forwardHeld
  split
  · exact forward_moved h _
  · exact State.Moved.refl h

theorem execParseAndForward_moved : Result.Post s.Moved (execParseAndForward s) := by
  unfold execParseAndForward
  split
  · exact (parseCall_consumed h).andThen_moved h fun _ => forwardHeld_moved
  · trivial

theorem parTurn_moved : Result.Post s.Moved (parTurn s) := by
  unfold parTurn
  split
  · exact forward_moved h _
  · split
    · exact (startCall_consumed h).moved h
    · exact (execParseStep_consumed h).moved h

/-- One line of RX_EVENT at most enqueues a byte. -/
theorem evtTurn_moved : Result.Post s.Moved (evtTurn s) := by
  unfold evtTurn
  split
  · split
    · exact State.Moved.refl h
    · exact State.SameChannels.moved h ((echoByte_same _ s).trans ⟨rfl, rfl, rfl⟩)
  · exact (execBcEnq_moved (h.withEvt _) _).mono fun _ m => ⟨m.bc, m.cc⟩
  · exact State.SameChannels.moved h ⟨rfl, rfl, rfl⟩

/-- RX_EVENT: its three lines, of which the second alone moves a channel. -/
theorem execRxEvent_moved (b : Byte) : Result.Post s.Moved (execRxEvent b s) := by
  unfold execRxEvent
  split
  · rename_i hc
    obtain ⟨hevt, hrx⟩ := hc
    obtain ⟨u, hu, huEvt, hsame⟩ := evtTurn_raiseByte b hevt hrx
    have huInv : u.Inv := by
      have hs := evtTurn_sound _ (raiseByte_inv b s h)
      rwa [hu] at hs
    have henq := (evtTurn_moved huInv).mono fun _ => (hsame.consumed h huInv).trans_moved h
    have hpos : Result.Post (fun t => t.evt = .setFlag) (evtTurn u) := by
      rw [evtTurn_enqueue huEvt]
      exact execBcEnq_evt b _
    rw [hu, andThen_next]
    refine (henq.and hpos).andThen fun t ⟨m, ht⟩ => ?_
    rw [evtTurn_setFlag ht]
    exact m.trans_same ⟨rfl, rfl, rfl⟩
  · exact State.SameChannels.moved h ⟨rfl, rfl, rfl⟩

/-! ## Every step -/

/-- How every instruction but RESET moves the channels. -/
theorem exec_moved (i : Instr) (hi : i ≠ .reset) : Result.Post s.Moved (exec i s) := by
  have same {o : Result} (ho : Result.Post s.SameChannels o) : Result.Post s.Moved o :=
    ho.mono fun _ => State.SameChannels.moved h
  cases i with
  | a | s | df | db | ds | skip | malformed => exact (wireCommand_consumed h _).moved h
  | incomplete p taken => exact (execIncomplete_consumed h p taken).moved h
  | cmdSetSpeed v => exact same (runCommand_same (.setSpeed v) s)
  | cmdSetDirection d => exact same (runCommand_same (.setDirection d) s)
  | cmdSetServoAngle angle => exact same (runCommand_same (.setServoAngle angle) s)
  | cmdReserved => trivial
  | bcEnq b => exact execBcEnq_moved h b
  | bcDeq => exact (execBcDeq_consumed h).moved h
  | ccEnq w => exact execCcEnq_moved h w
  | ccDeq => exact (execCcDeq_consumed h).moved h
  | parse => exact (execParse_consumed h).moved h
  | setDir | setSpeed | setAngle | center | flagSet | flagTake => exact State.SameChannels.moved h ⟨rfl, rfl, rfl⟩
  | advanceTick => exact same (execAdvanceTick_same s)
  | advanceBlocking => exact same (execAdvanceBlocking_same s)
  | hold | setAccel | estop => trivial
  | syncTail ch v => exact execSyncTail_moved h ch v
  | syncHead ch v => exact execSyncHead_moved h ch v
  | parseStep => exact (execParseStep_consumed h).moved h
  | parseAndForward => exact execParseAndForward_moved h
  | dispatch w => exact same (execDispatch_same w s)
  | controlIter => exact (execControlIter_consumed h).moved h
  | pulse => exact same (execPulse_same s)
  | servoNew dz ma => exact same (execServoNew_same dz ma s)
  | rxEvent b => exact execRxEvent_moved h b
  | tickEvent => exact same (execTickEvent_same s)
  | reset => exact absurd rfl hi

theorem StepAnswer.moved {o : Result} (ha : StepAnswer s o)
    (hreset : ∀ rest, s.sched ≠ .issue (.step 10 []) :: rest) : Result.Post s.Moved o := by
  have of_withSched {o : Result} {rest : List Turn} (ho : Result.Post (s.withSched rest).Moved o) :
      Result.Post s.Moved o := ho.mono fun _ m => ⟨m.bc, m.cc⟩
  cases ha with
  | idle => exact State.Moved.refl h
  | instr rest i _ hr => exact of_withSched (exec_moved (h.withSched rest) i fun hi => hreset rest (hr hi))
  | evt rest => exact of_withSched (evtTurn_moved (h.withSched rest))
  | par rest => exact of_withSched (parTurn_moved (h.withSched rest))
  | ctl rest => exact of_withSched ((ctlTurn_consumed (h.withSched rest)).moved (h.withSched rest))
  | byteIn rest b => exact State.SameChannels.moved h ⟨rfl, rfl, rfl⟩
  | refused => trivial

/-- Every step but an issued RESET moves the two channels as queues. -/
theorem step_moved (hreset : ∀ rest, s.sched ≠ .issue (.step 10 []) :: rest) : Result.Post s.Moved (step s) :=
  (step_answer s).moved h hreset

end

/-- Settles O13: what a step answers is an instruction's or an agent's own step, and each of them reads only slots that
hold a value. -/
theorem onlyStubsFault : Obligations.OnlyStubsFault := by
  intro s f h hst
  have hs := step_sound s h
  rwa [hst] at hs

/-- Settles O18: an operation that moves a channel takes items from its front or enqueues one, and no step does both to
one channel. -/
theorem everyStepMovesChannelsAsQueues : Obligations.EveryStepMovesChannelsAsQueues := by
  intro s t h hst hreset
  have hm := step_moved h hreset
  rw [hst] at hm
  exact ⟨hm.bc.added, hm.cc.added⟩

end Sys2Proof.Machine
end

section
/-! PROOFS. One channel's enqueue, dequeue and synchroniser: lag is safe, `exact` mode sees the true occupancy, enqueue
and dequeue commute (20_memory.md R49 to R51, R55). -/

namespace Sys2Proof.Machine

section

variable {α : Type} {n : Nat} {r : Ring α}

/-! ## What the two sides see -/

/-- Not seen empty, the slot at the read pointer holds the oldest item. -/
theorem Ring.Inv.head_of_not_emptyC (h : r.Inv n) (he : r.emptyC = false) :
    0 < r.len n ∧ ∃ v, r.read n (r.head % n) = some v ∧ (r.contents n).head? = some v := by
  rcases h.deq_cases false with ⟨h0, -⟩ | ⟨v, h0, hread, hd⟩
  · rw [h.emptyC_iff.mpr h0] at he
    cases he
  · refine ⟨lt_of_lt_of_le h0 h.seen_le, v, hread, ?_⟩
    rw [h.deq_contents false v hd]
    rfl

/-- Where the producer's copy is the read pointer, it sees the true occupancy. -/
theorem Ring.Inv.fullP_iff_of_synced (h : r.Inv n) (hs : r.Synced) : r.fullP n = true ↔ (r.contents n).length = n := by
  rw [h.contents_length, Ring.fullP, hs.1, decide_eq_true_iff]
  exact Iff.rfl

/-- Where the consumer's copy is the write pointer, it sees the true occupancy. -/
theorem Ring.Inv.emptyC_iff_of_synced (h : r.Inv n) (hs : r.Synced) : r.emptyC = true ↔ r.contents n = [] := by
  have hseen : r.seen n = r.len n := by rw [Ring.seen, hs.2, Ring.len]
  rw [h.emptyC_iff, hseen, ← h.contents_length, List.length_eq_zero_iff]

/-! ## Enqueue and dequeue -/

theorem Ring.enq_of_not_full (exact : Bool) (x : α) (hf : r.fullP n = false) : ∃ r', r.enq n exact x = some r' := by
  rw [Ring.enq, hf]
  exact ⟨_, rfl⟩

theorem Ring.Inv.deq_of_not_emptyC (h : r.Inv n) (exact : Bool) (he : r.emptyC = false) :
    ∃ v r', r.deq n exact = .item v r' := by
  rcases h.deq_cases exact with ⟨h0, -⟩ | ⟨v, -, -, hd⟩
  · rw [h.emptyC_iff.mpr h0] at he
    cases he
  · exact ⟨v, _, hd⟩

/-- An accepted enqueue does not hide the items from the consumer. -/
theorem Ring.Inv.enq_not_emptyC {r' : Ring α} (h : r.Inv n) (exact : Bool) (x : α) (he : r.enq n exact x = some r')
    (hem : r.emptyC = false) : r'.emptyC = false := by
  have hm := h.enq_moved exact x he
  have hseen := hm.seen_le
  rw [(h.enq_tail exact x he).2, ptrSub_self n _ h.head_lt] at hseen
  rw [Bool.eq_false_iff, ne_eq, h.emptyC_iff] at hem
  rw [Bool.eq_false_iff, ne_eq, hm.inv.emptyC_iff]
  omega

/-- A dequeue does not take room from the producer. -/
theorem Ring.Inv.deq_not_full {r' : Ring α} (h : r.Inv n) (exact : Bool) (v : α) (he : r.deq n exact = .item v r')
    (hf : r.fullP n = false) : r'.fullP n = false := by
  have h' := h.deq exact v he
  have hroom := h.not_full hf
  have hlen := (h.deq_counts exact v he).1
  have hbelieved := h'.believed_eq
  obtain ⟨-, -, rfl⟩ := Ring.deq_item _ _ he
  cases exact with
  | true =>
    have hself : ptrSub n (ptrNext n r.head) (ptrNext n r.head) = 0 := ptrSub_self n _ (ptrNext_lt n _ h.pos)
    simp only [Ring.fullP, if_true, decide_eq_false_iff_not, hself] at hbelieved hlen ⊢
    omega
  | false => exact hf

/-- Where both succeed, an enqueue and a dequeue commute: one ring, one item (20_memory.md R55). -/
theorem Ring.Inv.enq_deq_comm (h : r.Inv n) (exact : Bool) (x : α) (hf : r.fullP n = false) (he : r.emptyC = false) :
    ∃ v r₁ r₂ r', r.enq n exact x = some r₁ ∧ r₁.deq n exact = .item v r' ∧ r.deq n exact = .item v r₂ ∧
      r₂.enq n exact x = some r' := by
  obtain ⟨r₁, h₁⟩ := Ring.enq_of_not_full exact x hf
  obtain ⟨v, r₂, h₂⟩ := h.deq_of_not_emptyC exact he
  have hInv₁ := h.enq exact x h₁
  obtain ⟨v', r', h₁'⟩ := hInv₁.deq_of_not_emptyC exact (h.enq_not_emptyC exact x h₁ he)
  obtain ⟨r'', h₂'⟩ := Ring.enq_of_not_full exact x (h.deq_not_full exact v h₂ hf)
  have hitem : v' = v := by
    have hcontents := hInv₁.deq_contents exact v' h₁'
    rw [h.enq_contents exact x h₁, h.deq_contents exact v h₂] at hcontents
    exact (List.cons.inj hcontents).1.symm
  have hring : r'' = r' := by
    obtain ⟨-, -, rfl⟩ := Ring.deq_item _ _ h₁'
    obtain ⟨-, rfl⟩ := Ring.enq_some _ _ h₂'
    obtain ⟨-, rfl⟩ := Ring.enq_some _ _ h₁
    obtain ⟨-, -, rfl⟩ := Ring.deq_item _ _ h₂
    rfl
  rw [hitem] at h₁'
  rw [hring] at h₂'
  exact ⟨v, r₁, r₂, r', h₁, h₁', h₂, h₂'⟩

/-! ## The synchroniser -/

/-- The values a copy may take: those between it and its pointer (20_memory.md R50). -/
theorem Ring.syncTail_of_between {v : Nat} (hv : v < 2 * n ∧ ptrSub n v r.tailSync ≤ ptrSub n r.tail r.tailSync) :
    r.syncTail n v = some { r with tailSync := v } := if_pos hv

theorem Ring.syncHead_of_between {v : Nat} (hv : v < 2 * n ∧ ptrSub n v r.headSync ≤ ptrSub n r.head r.headSync) :
    r.syncHead n v = some { r with headSync := v } := if_pos hv

theorem Ring.syncTail_of_outside {v : Nat} (hv : 2 * n ≤ v ∨ ptrSub n r.tail r.tailSync < ptrSub n v r.tailSync) :
    r.syncTail n v = none := if_neg (by omega)

theorem Ring.syncHead_of_outside {v : Nat} (hv : 2 * n ≤ v ∨ ptrSub n r.head r.headSync < ptrSub n v r.headSync) :
    r.syncHead n v = none := if_neg (by omega)

end

/-! ## The instructions -/

section

variable {s : State}

theorem execBcEnq_of_enq {b : Byte} {r : Ring Byte} (he : s.bc.enq s.nBc s.cfg.isExact b = some r) :
    execBcEnq b s = .next ((s.withBc r).withRes .accepted) := by
  rw [execBcEnq, he]

theorem execBcDeq_of_deq {b : Byte} {r : Ring Byte} (hd : s.bc.deq s.nBc s.cfg.isExact = .item b r) :
    execBcDeq s = .next ((s.withBc r).withRes (.byte (some b))) := by
  rw [execBcDeq, hd]

theorem execCcEnq_of_enq {w : CmdWord} {r : Ring CmdWord} (he : s.cc.enq s.nCc s.cfg.isExact w = some r) :
    execCcEnq w s = .next ((s.withCc r).withRes .accepted) := by
  rw [execCcEnq, he]

theorem execCcDeq_of_deq {w : CmdWord} {r : Ring CmdWord} (hd : s.cc.deq s.nCc s.cfg.isExact = .item w r) :
    execCcDeq s = .next ((s.withCc r).withRes (.command (some w))) := by
  rw [execCcDeq, hd]

end

/-- Settles O25. -/
theorem lagIsSafe : Obligations.LagIsSafe := fun _ _ _ h =>
  ⟨fun hf => lt_of_le_of_lt (Nat.le_add_left _ _) (h.not_full hf), h.head_of_not_emptyC⟩

/-- Settles O26: in `exact` mode each side's copy is the other side's pointer. -/
theorem exactModeSeesTrueOccupancy : Obligations.ExactModeSeesTrueOccupancy := by
  intro s h hmode
  obtain ⟨hbc, hcc⟩ := h.synced hmode
  exact ⟨h.bc.fullP_iff_of_synced hbc, h.bc.emptyC_iff_of_synced hbc, h.cc.fullP_iff_of_synced hcc,
    h.cc.emptyC_iff_of_synced hcc⟩

/-- Settles O27, from the ring's own commuting square. -/
theorem enqueueAndDequeueCommute : Obligations.EnqueueAndDequeueCommute := by
  constructor
  · intro b s h hf he
    obtain ⟨v, r₁, r₂, r', h₁, h₁', h₂, h₂'⟩ := h.bc.enq_deq_comm s.cfg.isExact b hf he
    exact ⟨_, _, _, _, execBcEnq_of_enq h₁, execBcDeq_of_deq (s := (s.withBc r₁).withRes _) h₁', execBcDeq_of_deq h₂,
      execBcEnq_of_enq (s := (s.withBc r₂).withRes _) h₂', rfl, rfl, rfl, rfl⟩
  · intro w s h hf he
    obtain ⟨v, r₁, r₂, r', h₁, h₁', h₂, h₂'⟩ := h.cc.enq_deq_comm s.cfg.isExact w hf he
    exact ⟨_, _, _, _, execCcEnq_of_enq h₁, execCcDeq_of_deq (s := (s.withCc r₁).withRes _) h₁', execCcDeq_of_deq h₂,
      execCcEnq_of_enq (s := (s.withCc r₂).withRes _) h₂', rfl, rfl, rfl, rfl⟩

/-- Settles O29: a choice of the synchroniser is taken where it lies between the copy and the pointer, else refused. -/
theorem synchroniserStepResult : Obligations.SynchroniserStepResult := by
  intro s v
  refine ⟨fun hv => ?_, fun hv => ?_, fun hv => ?_, fun hv => ?_, fun hv => ?_, fun hv => ?_, fun hv => ?_,
    fun hv => ?_⟩
  · simp only [exec, execSyncTail, Ring.syncTail_of_between hv, State.withBc]
  · simp only [exec, execSyncHead, Ring.syncHead_of_between hv, State.withBc]
  · simp only [exec, execSyncTail, Ring.syncTail_of_between hv, State.withCc]
  · simp only [exec, execSyncHead, Ring.syncHead_of_between hv, State.withCc]
  · simp only [exec, execSyncTail, Ring.syncTail_of_outside hv]
  · simp only [exec, execSyncHead, Ring.syncHead_of_outside hv]
  · simp only [exec, execSyncTail, Ring.syncTail_of_outside hv]
  · simp only [exec, execSyncHead, Ring.syncHead_of_outside hv]

end Sys2Proof.Machine
end

section
/-! PROOFS. The Gray-coded form of the pointer crossing (20_memory.md R52): the code is linear and invertible, so its
tests are equalities of binary values, and an increment changes one bit. -/

namespace Sys2Proof.Machine

/-! ## The code -/

theorem bin2gray_xor (a b : Nat) : bin2gray (a ^^^ b) = bin2gray a ^^^ bin2gray b := by
  unfold bin2gray
  rw [Nat.shiftRight_xor_distrib]
  ac_rfl

theorem bin2gray_shiftRight (b : Nat) : bin2gray b >>> 1 = bin2gray (b >>> 1) := Nat.shiftRight_xor_distrib

theorem gray2bin_bin2gray (w : Nat) : ∀ b, b < 2 ^ w → gray2bin w (bin2gray b) = b := by
  induction w with
  | zero =>
    intro b hb
    rw [pow_zero, Nat.lt_one_iff] at hb
    rw [gray2bin, hb]
  | succ w ih =>
    intro b hb
    have hhalf : b >>> 1 < 2 ^ w := by
      rw [Nat.shiftRight_one]
      rw [pow_succ] at hb
      omega
    rw [gray2bin, bin2gray_shiftRight, ih _ hhalf, bin2gray, Nat.xor_xor_cancel_right]

theorem bin2gray_inj {w a b : Nat} (ha : a < 2 ^ w) (hb : b < 2 ^ w) : bin2gray a = bin2gray b ↔ a = b := by
  refine ⟨fun h => ?_, congrArg bin2gray⟩
  rw [← gray2bin_bin2gray w a ha, h, gray2bin_bin2gray w b hb]

/-- All ones below bit `k + 1` have one Gray bit. -/
theorem bin2gray_two_pow_sub_one (k : Nat) : bin2gray (2 ^ (k + 1) - 1) = 2 ^ k := by
  refine Nat.eq_of_testBit_eq fun i => ?_
  rw [bin2gray, Nat.testBit_xor, Nat.testBit_shiftRight, Nat.testBit_two_pow_sub_one, Nat.testBit_two_pow_sub_one,
    Nat.testBit_two_pow]
  rcases lt_trichotomy i k with h | h | h
  · simp [show i < k + 1 by omega, show 1 + i < k + 1 by omega, show k ≠ i by omega]
  · simp [h, Nat.add_comm 1 k]
  · simp [show ¬i < k + 1 by omega, show ¬1 + i < k + 1 by omega, show k ≠ i by omega]

/-- The Gray code of the depth: the two top bits. -/
theorem bin2gray_two_pow (m : Nat) : bin2gray (2 ^ (m + 1)) = 0b11 <<< m := by
  have htop : 2 ^ (m + 1) = 0b10 <<< m := by rw [Nat.shiftLeft_eq, pow_succ']
  have hhalf : 2 ^ (m + 1) >>> 1 = 0b01 <<< m := by
    rw [Nat.shiftRight_one, pow_succ, Nat.mul_div_cancel _ two_pos, Nat.shiftLeft_eq, one_mul]
  rw [bin2gray, hhalf, htop, ← Nat.shiftLeft_xor_distrib]
  rfl

/-! ## The tests -/

theorem xor_two_pow_of_lt {c m : Nat} (hc : c < 2 ^ m) : c ^^^ 2 ^ m = c + 2 ^ m := by
  refine Nat.eq_of_testBit_eq fun i => ?_
  rw [Nat.testBit_xor, Nat.testBit_two_pow, Nat.add_comm]
  rcases lt_trichotomy i m with h | h | h
  · rw [Nat.testBit_two_pow_add_gt h, decide_eq_false (by omega), Bool.xor_false]
  · rw [h, Nat.testBit_two_pow_add_eq, decide_eq_true rfl, Bool.xor_true]
  · have hpow : 2 ^ (m + 1) ≤ 2 ^ i := Nat.pow_le_pow_right (by omega) h
    rw [pow_succ] at hpow
    rw [Nat.testBit_lt_two_pow (by omega), Nat.testBit_lt_two_pow (by omega), decide_eq_false (by omega)]
    rfl

/-- Two pointers differ by the depth: one is the other, `n` further. -/
theorem ptrSub_eq_depth_iff {n a b : Nat} (ha : a < 2 * n) (hb : b < 2 * n) :
    ptrSub n a b = n ↔ a = b + n ∨ b = a + n := by
  rw [ptrSub_eq n a b ha hb]
  split_ifs <;> omega

/-- Where the depth is a power of two, they differ in the top bit. -/
theorem eq_xor_two_pow_iff {m a b : Nat} (ha : a < 2 * 2 ^ m) (hb : b < 2 * 2 ^ m) :
    a = b ^^^ 2 ^ m ↔ a = b + 2 ^ m ∨ b = a + 2 ^ m := by
  rcases Nat.lt_or_ge b (2 ^ m) with h | h
  · rw [xor_two_pow_of_lt h]
    omega
  · obtain ⟨c, rfl⟩ := Nat.exists_eq_add_of_le' h
    rw [← xor_two_pow_of_lt (by omega), Nat.xor_xor_cancel_right, xor_two_pow_of_lt (by omega)]
    omega

/-- Settles O30: the two top bits are the Gray code of the depth, which the code's linearity takes out of the test. -/
theorem grayTestsAgreeWithBinary : Obligations.GrayTestsAgreeWithBinary := by
  intro w a b hw ha hb
  refine ⟨?_, by rw [grayEmpty, decide_eq_true_iff, bin2gray_inj ha hb]⟩
  obtain ⟨m, rfl⟩ := Nat.exists_eq_add_of_le' hw
  have ha' : a < 2 * 2 ^ m := by rwa [← pow_succ']
  have hb' : b < 2 * 2 ^ m := by rwa [← pow_succ']
  rw [Nat.add_sub_cancel, ptrSub_eq_depth_iff ha' hb', grayFull]
  cases m with
  | zero =>
    rw [if_pos rfl, decide_eq_true_iff]
    omega
  | succ m =>
    have hdepth : 2 ^ (m + 1) < 2 ^ (m + 1 + 1) := Nat.pow_lt_pow_right (by omega) (by omega)
    rw [if_neg (by omega), decide_eq_true_iff, ← eq_xor_two_pow_iff ha' hb',
      ← bin2gray_inj ha (Nat.xor_lt_two_pow hb hdepth), bin2gray_xor, bin2gray_two_pow]
    rfl

/-! ## The increment -/

/-- A number is its half and its last bit. -/
theorem xor_eq_half_add (a b : Nat) : a ^^^ b = 2 * (a / 2 ^^^ b / 2) + (a + b) % 2 := by
  rw [← Nat.xor_div_two, ← Nat.xor_mod_two_eq, Nat.div_add_mod]

/-- An increment flips the trailing ones and the zero above them; the wrap flips all bits. -/
theorem xor_succ_mod_two_pow (w : Nat) :
    ∀ b, b < 2 ^ (w + 1) → ∃ k, k ≤ w ∧ b ^^^ ((b + 1) % 2 ^ (w + 1)) = 2 ^ (k + 1) - 1 := by
  induction w with
  | zero =>
    intro b hb
    refine ⟨0, le_rfl, ?_⟩
    interval_cases b <;> rfl
  | succ w ih =>
    intro b hb
    have hpow : 2 ^ (w + 1 + 1) = 2 * 2 ^ (w + 1) := pow_succ' 2 (w + 1)
    rcases Nat.even_or_odd' b with ⟨c, rfl | rfl⟩
    · refine ⟨0, Nat.zero_le _, ?_⟩
      have hhalf : (2 * c + 1) / 2 = 2 * c / 2 := by omega
      rw [Nat.mod_eq_of_lt (by omega), xor_eq_half_add, hhalf, Nat.xor_self]
      omega
    · obtain ⟨k, hk, hc⟩ := ih c (by omega)
      refine ⟨k + 1, by omega, ?_⟩
      have hnext : (2 * c + 1 + 1) % 2 ^ (w + 1 + 1) = 2 * ((c + 1) % 2 ^ (w + 1)) := by
        rw [hpow, ← Nat.mul_mod_mul_left]
        rfl
      have hhalf : (2 * c + 1) / 2 = c := by omega
      have hhalf' : 2 * ((c + 1) % 2 ^ (w + 1)) / 2 = (c + 1) % 2 ^ (w + 1) := by omega
      have hone : 1 ≤ 2 ^ (k + 1) := Nat.one_le_two_pow
      have hpow' : 2 ^ (k + 1 + 1) = 2 * 2 ^ (k + 1) := pow_succ' 2 (k + 1)
      rw [hnext, xor_eq_half_add, hhalf, hhalf', hc]
      omega

/-- Settles O31: by linearity the two codes differ in the code of the flipped bits, which is one bit. -/
theorem grayIncrementChangesOneBit : Obligations.GrayIncrementChangesOneBit := by
  intro w b hw hb
  refine ⟨?_, gray2bin_bin2gray w b hb⟩
  obtain ⟨m, rfl⟩ := Nat.exists_eq_add_of_le' hw
  obtain ⟨k, hk, hflip⟩ := xor_succ_mod_two_pow m b hb
  exact ⟨k, by omega, by rw [← bin2gray_xor, hflip, bin2gray_two_pow_sub_one]⟩

end Sys2Proof.Machine
end

section
/-! PROOFS. 20_memory.md R54 (O5): a consumer's turn that sees an item takes one, so a fair run whose consumer keeps
dequeuing returns everything its channel holds (`Ring.eventually_returns`). -/

namespace Sys2Proof.Machine

/-! ## Taking an item -/

/-- How many items a channel holds. -/
def State.held (s : State) : ChannelId → Nat
  | .bc => s.bc.len s.nBc
  | .cc => s.cc.len s.nCc

/-- Only the consumers' sides moved, and at least one item left the channel. -/
structure State.TookFrom (ch : ChannelId) (s t : State) : Prop where
  consumed : s.Consumed t
  fewer : t.held ch < s.held ch

section

variable {s t u : State} {ch : ChannelId} {o : Result} {f : State → Result}

theorem State.Consumed.bc_len_eq (h : s.Inv) (a : s.Consumed t) :
    s.held .bc = t.held .bc + ptrSub s.nBc t.bc.head s.bc.head := by
  have hlen := a.bc.len_eq h.bc a.bcInv
  rwa [State.held, State.held, a.nBc]

theorem State.Consumed.cc_len_eq (h : s.Inv) (a : s.Consumed t) :
    s.held .cc = t.held .cc + ptrSub s.nCc t.cc.head s.cc.head := by
  have hlen := a.cc.len_eq h.cc a.ccInv
  rwa [State.held, State.held, a.nCc]

theorem State.Consumed.held_le (h : s.Inv) (a : s.Consumed t) (ch : ChannelId) : t.held ch ≤ s.held ch := by
  cases ch with
  | bc => exact Nat.le.intro (a.bc_len_eq h).symm
  | cc => exact Nat.le.intro (a.cc_len_eq h).symm

theorem State.TookFrom.bc_head_ne (h : s.Inv) (a : State.TookFrom .bc s t) :
    ptrSub s.nBc t.bc.head s.bc.head ≠ 0 := by
  have hlen := a.consumed.bc_len_eq h
  have hfewer := a.fewer
  omega

theorem State.TookFrom.cc_head_ne (h : s.Inv) (a : State.TookFrom .cc s t) :
    ptrSub s.nCc t.cc.head s.cc.head ≠ 0 := by
  have hlen := a.consumed.cc_len_eq h
  have hfewer := a.fewer
  omega

theorem State.Consumed.trans_tookFrom (h : s.Inv) (a : s.Consumed t) (b : State.TookFrom ch t u) :
    State.TookFrom ch s u :=
  ⟨a.trans h b.consumed, lt_of_lt_of_le b.fewer (a.held_le h ch)⟩

theorem State.TookFrom.trans_consumed (h : s.Inv) (a : State.TookFrom ch s t) (b : t.Consumed u) :
    State.TookFrom ch s u :=
  ⟨a.consumed.trans h b, lt_of_le_of_lt (b.held_le a.consumed.inv ch) a.fewer⟩

theorem Result.Post.andThen_tookFrom (h : s.Inv) (ho : Result.Post (State.TookFrom ch s) o)
    (hf : ∀ t, t.Inv → Result.Post t.Consumed (f t)) : Result.Post (State.TookFrom ch s) (Machine.andThen o f) :=
  ho.andThen fun t a => (hf t a.consumed.inv).mono fun _ => a.trans_consumed h

end

/-! ## The parsing side -/

section

variable {s : State} (h : s.Inv) (hseen : s.bc.seen s.nBc ≠ 0)

include h hseen

theorem execBcDeq_tookFrom : Result.Post (State.TookFrom .bc s) (execBcDeq s) := by
  refine ((execBcDeq_consumed h).and (Q := fun t => t.held .bc < s.held .bc) ?_).mono fun _ a => ⟨a.1, a.2⟩
  rcases h.bc.deq_cases s.cfg.isExact with ⟨h0, -⟩ | ⟨b, -, -, hd⟩
  · exact absurd h0 hseen
  · rw [execBcDeq_of_deq hd]
    have hcounts := h.bc.deq_counts _ b hd
    exact Nat.lt_of_lt_of_eq (Nat.lt_succ_self _) hcounts.1.symm

theorem execParseStep_tookFrom : Result.Post (State.TookFrom .bc s) (execParseStep s) := by
  by_cases hp : s.p.pstate = .idle
  · rw [execParseStep, if_pos hp]
    trivial
  · rcases execParseStep_cases s h hp with ⟨-, h0, -⟩ | ⟨b, r, hd, -, -, -, e⟩
    · exact absurd h0 hseen
    · have hbc := parseOn_bc (some b) (s.withBc r)
      rw [← e] at hbc
      refine ((execParseStep_consumed h).and hbc).mono fun t ⟨a, ht⟩ => ⟨a, ?_⟩
      have hlen := (h.bc.deq_counts _ b hd).1
      rw [State.held, State.held, a.nBc, ht, hlen]
      exact Nat.lt_succ_self _

theorem parseSteps_tookFrom (k : Nat) : Result.Post (State.TookFrom .bc s) (parseSteps (k + 1) s) :=
  (execParseStep_tookFrom h hseen).andThen_tookFrom h fun _ ht => parseSteps_consumed ht k

theorem parseLoop_tookFrom (k : Nat) : Result.Post (State.TookFrom .bc s) (parseLoop k s) := by
  cases k with
  | zero => exact execParseStep_tookFrom h hseen
  | succ k =>
    refine (execParseStep_tookFrom h hseen).andThen_tookFrom h fun t ht => ?_
    split
    · exact State.Consumed.refl ht
    · exact parseLoop_consumed ht k

theorem parseCall_tookFrom : Result.Post (State.TookFrom .bc s) (parseCall s) :=
  (parseLoop_tookFrom (startCall_inv s h) hseen _).mono fun _ => (startCall_consumed h).trans_tookFrom h

end

theorem reportParse_bc (held : Option ParseResult) (s : State) : (reportParse held s).bc = s.bc := by
  unfold reportParse
  split <;> rfl

theorem execCcEnq_bc (w : CmdWord) (s : State) : Result.Post (fun t => t.bc = s.bc) (execCcEnq w s) := by
  unfold execCcEnq
  split <;> exact rfl

theorem forwardHeld_bc (s : State) : Result.Post (fun t => t.bc = s.bc) (forwardHeld s) := by
  unfold forwardHeld
  split
  · rename_i r _
    cases r with
    | ok c => exact execCcEnq_bc _ (s.withPar none)
    | err => exact rfl
  · exact rfl

/-- What holds of an instruction's answer holds of the answer to its issued code, which may be refused. -/
theorem issueTurn_post {P : State → Prop} {c : Code} {i : Instr} {s : State} (hd : decode c = .ok i)
    (hi : Result.Post P (exec i s)) : Result.Post P (issueTurn c s) := by
  rw [issueTurn, hd]
  dsimp only
  split
  · trivial
  · exact hi

theorem wireCommand_post {P : State → Prop} {s : State} (hsteps : ∀ k, Result.Post P (parseSteps (k + 1) s)) (b : Byte)
    (bs : List Byte) : Result.Post P (wireCommand (b :: bs) s) := by
  unfold wireCommand
  split
  · trivial
  · split
    · exact hsteps _
    · trivial

/-- A wire command is at least one parser step (30_encoding.md R74, R75). -/
theorem exec_wire_post {P : State → Prop} {s : State} (hsteps : ∀ k, Result.Post P (parseSteps (k + 1) s)) {i : Instr}
    {bytes : List Byte} (hi : encode i = .wire bytes) : Result.Post P (exec i s) := by
  cases i with
  | a | s | df | db | ds | skip | malformed => exact wireCommand_post hsteps _ _
  | incomplete p taken =>
    show Result.Post P (execIncomplete p taken s)
    unfold execIncomplete
    split
    · trivial
    · split
      · exact hsteps _
      · trivial
  | _ => cases hi

/-- A turn in which the parsing side dequeues takes a byte, where it sees one. -/
theorem runTurn_bc_head_ne {s : State} (h : s.Inv) (hseen : s.bc.seen s.nBc ≠ 0) {t : Turn} (ht : s.dequeuesByte t) :
    Result.Post (fun u => ptrSub s.nBc u.bc.head s.bc.head ≠ 0) (runTurn t s) := by
  have hstep := (execParseStep_tookFrom h hseen).mono fun _ a => a.bc_head_ne h
  have hcall := (parseCall_tookFrom h hseen).mono fun _ a => a.bc_head_ne h
  have hpar (hp : s.p.pstate ≠ .idle) (hr : s.par = none) :
      Result.Post (fun u => ptrSub s.nBc u.bc.head s.bc.head ≠ 0) (parTurn s) := by
    rw [parTurn, hr]
    dsimp only
    rwa [if_neg hp]
  cases t with
  | issue c =>
    rcases ht with hd | hd | hd | hd
    · exact issueTurn_post hd ((execBcDeq_tookFrom h hseen).mono fun _ a => a.bc_head_ne h)
    · exact issueTurn_post hd hstep
    · refine issueTurn_post hd ?_
      show Result.Post _ (execParse s)
      unfold execParse
      split
      · refine hcall.andThen fun t a => ?_
        show ptrSub s.nBc (reportParse s.par t).bc.head s.bc.head ≠ 0
        rwa [reportParse_bc]
      · trivial
    · refine issueTurn_post hd ?_
      show Result.Post _ (execParseAndForward s)
      unfold execParseAndForward
      split
      · exact hcall.andThen fun t a => (forwardHeld_bc t).mono fun u hu => by rwa [hu]
      · trivial
  | wire =>
    obtain ⟨hp, hr⟩ := ht
    show Result.Post _ (wireTurn s)
    unfold wireTurn
    split
    · split
      · rename_i i _ hd
        obtain ⟨-, bytes, hi⟩ := decodeWire_ok hd
        exact exec_wire_post (fun k => (parseSteps_tookFrom h hseen k).mono fun _ a => a.bc_head_ne h) hi
      · exact hstep
    · exact hpar hp hr
  | par =>
    obtain ⟨hp, hr⟩ := ht
    exact hpar hp hr
  | byteIn | evt | ctl => exact ht.elim

/-! ## The control loop -/

section

variable {s : State} (h : s.Inv) (hseen : s.cc.seen s.nCc ≠ 0)

include h hseen

theorem execCcDeq_some : ∃ w r, s.cc.len s.nCc = r.len s.nCc + 1 ∧
    execCcDeq s = .next ((s.withCc r).withRes (.command (some w))) := by
  rcases execCcDeq_cases s h with ⟨h0, -⟩ | ⟨w, r, -, hd, -, -, e⟩
  · exact absurd h0 hseen
  · exact ⟨w, r, (h.cc.deq_counts _ w hd).1, e⟩

theorem execCcDeq_tookFrom : Result.Post (State.TookFrom .cc s) (execCcDeq s) := by
  obtain ⟨w, r, hlen, e⟩ := execCcDeq_some h hseen
  refine ((execCcDeq_consumed h).and (Q := fun t => t.held .cc < s.held .cc) ?_).mono fun _ a => ⟨a.1, a.2⟩
  rw [e]
  exact Nat.lt_of_lt_of_eq (Nat.lt_succ_self _) hlen.symm

theorem ctlDequeue_tookFrom : Result.Post (State.TookFrom .cc s) (ctlDequeue s) := by
  obtain ⟨w, r, hlen, e⟩ := execCcDeq_some h hseen
  refine ((ctlDequeue_consumed h).and (Q := fun t => t.held .cc < s.held .cc) ?_).mono fun _ a => ⟨a.1, a.2⟩
  rw [ctlDequeue, e]
  exact Nat.lt_of_lt_of_eq (Nat.lt_succ_self _) hlen.symm

theorem ctlTurn_top_tookFrom (htop : s.ctl = .top) : Result.Post (State.TookFrom .cc s) (ctlTurn s) := by
  rw [ctlTurn, htop]
  exact ctlDequeue_tookFrom h hseen

theorem execControlIter_tookFrom : Result.Post (State.TookFrom .cc s) (execControlIter s) := by
  unfold execControlIter
  split
  · exact (ctlTurn_top_tookFrom h hseen ‹_›).andThen_tookFrom h fun _ ht => ctlFinish_consumed ht 2
  · trivial

/-- A turn in which the control loop dequeues takes a word, where it sees one. -/
theorem runTurn_cc_head_ne {t : Turn} (ht : s.dequeuesCommand t) :
    Result.Post (fun u => ptrSub s.nCc u.cc.head s.cc.head ≠ 0) (runTurn t s) := by
  refine Result.Post.mono (P := State.TookFrom .cc s) ?_ fun _ a => a.cc_head_ne h
  cases t with
  | issue c =>
    rcases ht with hd | hd
    · exact issueTurn_post hd (execCcDeq_tookFrom h hseen)
    · exact issueTurn_post hd (execControlIter_tookFrom h hseen)
  | ctl =>
    rw [runTurn, ctlStep_eq_ctlTurn]
    exact ctlTurn_top_tookFrom h hseen ht
  | byteIn | evt | wire | par => exact ht.elim

end

/-! ## Runs -/

section

variable {turns : Nat → Turn} {run : Nat → State} (hrun : IsRun turns run)

include hrun

theorem IsRun.runTurn_eq (k : Nat) : runTurn (turns k) ((run k).withSched []) = .next (run (k + 1)) :=
  (hrun k).2

theorem IsRun.cfg (k : Nat) : (run k).cfg = (run 0).cfg := by
  induction k with
  | zero => rfl
  | succ k ih => exact (configurationNeverChanges _ _ (hrun k).2).1.trans ih

theorem IsRun.nBc (k : Nat) : (run k).nBc = (run 0).nBc := congrArg Config.byteDepth (hrun.cfg k)

theorem IsRun.nCc (k : Nat) : (run k).nCc = (run 0).nCc := congrArg Config.cmdDepth (hrun.cfg k)

variable (h : (run 0).Inv)

include h

theorem IsRun.inv (k : Nat) : (run k).Inv := by
  induction k with
  | zero => exact h
  | succ k ih => exact stepKeepsInvariant _ _ (ih.withSched _) (hrun k).2

theorem IsRun.moved (k : Nat) : (run k).Moved (run (k + 1)) := by
  have hm := step_moved ((hrun.inv h k).withSched [turns k]) fun _ hs => (hrun k).1 (List.cons.inj hs).1
  rw [(hrun k).2] at hm
  exact ⟨hm.bc, hm.cc⟩

theorem IsRun.bc_queueStep (k : Nat) : Ring.QueueStep (run 0).nBc (run k).bc (run (k + 1)).bc :=
  hrun.nBc k ▸ (hrun.moved h k).bc.queueStep

theorem IsRun.cc_queueStep (k : Nat) : Ring.QueueStep (run 0).nCc (run k).cc (run (k + 1)).cc :=
  hrun.nCc k ▸ (hrun.moved h k).cc.queueStep

/-- In `exact` mode every copy is its pointer at every moment (20_memory.md R49). -/
theorem IsRun.syncFair_of_exact (hmode : (run 0).cfg.syncMode = .exact) : SyncFair run := by
  have hsynced (k : Nat) : (run k).bc.Synced ∧ (run k).cc.Synced :=
    (hrun.inv h k).synced ((congrArg Config.syncMode (hrun.cfg k)).trans hmode)
  refine ⟨fun k => ?_, fun k => ?_⟩
  · obtain ⟨⟨hhead, htail⟩, -⟩ := hsynced k
    exact ⟨⟨k, le_rfl, htail⟩, k, le_rfl, hhead⟩
  · obtain ⟨-, hhead, htail⟩ := hsynced k
    exact ⟨⟨k, le_rfl, htail⟩, k, le_rfl, hhead⟩

theorem IsRun.bc_head_ne (m : Nat) (ht : (run m).dequeuesByte (turns m)) (hseen : (run m).bc.seen (run 0).nBc ≠ 0) :
    ptrSub (run 0).nBc (run (m + 1)).bc.head (run m).bc.head ≠ 0 := by
  rw [← hrun.nBc m] at hseen ⊢
  have hp := runTurn_bc_head_ne ((hrun.inv h m).withSched []) hseen ht
  rwa [hrun.runTurn_eq m] at hp

theorem IsRun.cc_head_ne (m : Nat) (ht : (run m).dequeuesCommand (turns m)) (hseen : (run m).cc.seen (run 0).nCc ≠ 0) :
    ptrSub (run 0).nCc (run (m + 1)).cc.head (run m).cc.head ≠ 0 := by
  rw [← hrun.nCc m] at hseen ⊢
  have hp := runTurn_cc_head_ne ((hrun.inv h m).withSched []) hseen ht
  rwa [hrun.runTurn_eq m] at hp

end

/-- Settles O52: each step of the run moves each channel as a queue, and each of the consumer's turns takes an item
where it sees one; the rest is `Ring.eventually_returns`. -/
theorem eventualDelivery : Obligations.EventualDelivery := by
  intro turns run hrun h
  refine ⟨hrun.syncFair_of_exact h, fun hfair hkeeps k => ?_, fun hfair hkeeps k => ?_⟩
  · exact Ring.eventually_returns h.bc (hrun.bc_queueStep h) hfair.1 _ hkeeps (hrun.bc_head_ne h) k
  · exact Ring.eventually_returns h.cc (hrun.cc_queueStep h) hfair.2 _ hkeeps (hrun.cc_head_ne h) k

end Sys2Proof.Machine
end

section
/-! PROOFS. 30_encoding.md R72, R74 to R76: the decoder on the bytes of a wire command, in both directions. -/

namespace Sys2Proof

/-- The payload decoder that a lead byte selects (30_encoding.md R74). -/
def decodePayload : Lead → List Byte → Instr × List Byte
  | .angle => decodeDigits .angle .a []
  | .speed => decodeDigits .speed .s []
  | .direction => decodeDirection

theorem decodeWire_leadByte (p : Lead) (bs : List Byte) : decodeWire (leadByte p :: bs) = .ok (decodePayload p bs) := by
  cases p <;> rfl

theorem decodeWire_of_leadOf_none {b : Byte} (h : leadOf b = none) (bs : List Byte) :
    decodeWire (b :: bs) = .ok (.skip b, bs) := by
  rw [decodeWire, h]

/-- A whole list that is one wire command decodes to it. -/
theorem decode_wire_of_decodeWire {bytes : List Byte} {i : Instr} (h : decodeWire bytes = .ok (i, [])) :
    decode (.wire bytes) = .ok i := by
  rw [decode, h]

theorem decode_wire_eq_ok {bytes : List Byte} {i : Instr} (h : decode (.wire bytes) = .ok i) :
    decodeWire bytes = .ok (i, []) := by
  rw [decode] at h
  split at h
  · rename_i hd
    rw [hd, Except.ok.inj h]
  · cases h
  · cases h

/-! ## From the instruction to its bytes and back -/

section

variable {p : Lead} {whole : BitVec 4 → BitVec 4 → BitVec 4 → Instr} {taken more : List (BitVec 4)}

/-- A digit before the third is taken. -/
theorem decodeDigits_digit (hl : taken.length < 2) {b : Byte} (hb : isDigit b = true) (bs : List Byte) :
    decodeDigits p whole taken (b :: bs) = decodeDigits p whole (taken ++ [digitNibble b]) bs := by
  rw [decodeDigits.eq_def]
  dsimp only
  rw [if_pos hb]
  split
  · exact absurd hl (lt_irrefl 2)
  · rfl

theorem decodeDigits_bad {b : Byte} (hb : isDigit b = false) (bs : List Byte) :
    decodeDigits p whole taken (b :: bs) = (.malformed p taken b, bs) := by
  rw [decodeDigits.eq_def]
  dsimp only
  rw [hb, if_neg Bool.false_ne_true]

/-- The digits of a failed attempt are all taken. -/
theorem decodeDigits_digits (hl : taken.length + more.length ≤ 2) (hd : more.all digitOk = true) (bs : List Byte) :
    decodeDigits p whole taken (more.map digitByte ++ bs) = decodeDigits p whole (taken ++ more) bs := by
  induction more generalizing taken with
  | nil => rw [List.map_nil, List.nil_append, List.append_nil]
  | cons d more ih =>
    rw [List.length_cons] at hl
    rw [List.all_cons, Bool.and_eq_true] at hd
    obtain ⟨hdig, hmore⟩ := hd
    rw [List.map_cons, List.cons_append, decodeDigits_digit (by omega) (isDigit_digitByte d hdig),
      digitNibble_digitByte, ih (by rw [List.length_append, List.length_singleton]; omega) hmore, List.append_assoc,
      List.singleton_append]

theorem decodeDigits_incomplete (hl : taken.length ≤ 2) (hd : taken.all digitOk = true) :
    decodeDigits p whole [] (taken.map digitByte) = (.incomplete p taken, []) := by
  have := decodeDigits_digits (p := p) (whole := whole) (taken := []) (by simpa using hl) hd []
  rwa [List.append_nil] at this

theorem decodeDigits_malformed (hl : taken.length ≤ 2) (hd : taken.all digitOk = true) {bad : Byte}
    (hbad : isDigit bad = false) :
    decodeDigits p whole [] (taken.map digitByte ++ [bad]) = (.malformed p taken bad, []) := by
  rw [decodeDigits_digits (by simpa using hl) hd, decodeDigits_bad hbad, List.nil_append]

end

theorem takenOk_iff {p : Lead} {taken : List (BitVec 4)} :
    takenOk p taken = true ↔ taken.length ≤ takenMax p ∧ taken.all digitOk = true := by
  rw [takenOk, Bool.and_eq_true, decide_eq_true_iff]

/-- The digits of an attempt with nothing after them are read as an incomplete attempt (41_parser.md R132). -/
theorem decodePayload_incomplete {p : Lead} {taken : List (BitVec 4)} (h : takenOk p taken = true) :
    decodePayload p (taken.map digitByte) = (.incomplete p taken, []) := by
  obtain ⟨hl, hd⟩ := takenOk_iff.mp h
  cases p with
  | angle => exact decodeDigits_incomplete hl hd
  | speed => exact decodeDigits_incomplete hl hd
  | direction =>
    obtain rfl := List.eq_nil_of_length_eq_zero (Nat.le_zero.mp hl)
    rfl

/-- A byte that does not fit after them makes the attempt malformed (41_parser.md R131). -/
theorem decodePayload_malformed {p : Lead} {taken : List (BitVec 4)} (h : takenOk p taken = true) {bad : Byte}
    (hbad : fitsPayload p bad = false) :
    decodePayload p (taken.map digitByte ++ [bad]) = (.malformed p taken bad, []) := by
  obtain ⟨hl, hd⟩ := takenOk_iff.mp h
  cases p with
  | angle => exact decodeDigits_malformed hl hd hbad
  | speed => exact decodeDigits_malformed hl hd hbad
  | direction =>
    obtain rfl := List.eq_nil_of_length_eq_zero (Nat.le_zero.mp hl)
    have hn : directionOf bad = none := Option.isNone_iff_eq_none.mp (Option.isSome_eq_false_iff.mp hbad)
    show decodeDirection [bad] = _
    rw [decodeDirection, hn]

/-! ## From the bytes to the instruction and back -/

/-- The bytes the payload decoder of `A` and `S` took are those of its answer, after the lead byte. -/
theorem DigitsAnswer.encode_eq {p : Lead} {whole : BitVec 4 → BitVec 4 → BitVec 4 → Instr} {bs : List Byte}
    {o : Instr × List Byte} (h : DigitsAnswer p whole [] bs o)
    (hwhole : ∀ d0 d1 d2, encode (whole d0 d1 d2) = .wire (attemptBytes p [d0, d1, d2])) :
    ∃ more, encode o.1 = .wire (leadByte p :: more) ∧ more ++ o.2 = bs := by
  cases h with
  | incomplete more _ _ hb => exact ⟨more.map digitByte, rfl, by rw [hb, List.append_nil]⟩
  | malformed more b rest _ _ _ hb =>
    exact ⟨more.map digitByte ++ [b], rfl, by rw [hb, List.append_assoc, List.singleton_append]⟩
  | whole d0 d1 d2 more rest ht _ hb =>
    rw [List.nil_append] at ht
    exact ⟨more.map digitByte, by rw [hwhole, ← ht]; rfl, hb.symm⟩

theorem decodeDirection_encode_eq (bs : List Byte) :
    ∃ more, encode (decodeDirection bs).1 = .wire (leadByte .direction :: more) ∧
      more ++ (decodeDirection bs).2 = bs := by
  cases bs with
  | nil => exact ⟨[], rfl, rfl⟩
  | cons b rest =>
    refine ⟨[b], ?_⟩
    rw [decodeDirection]
    cases hd : directionOf b with
    | none => exact ⟨rfl, rfl⟩
    | some d =>
      obtain rfl := eq_directionByte hd
      cases d <;> exact ⟨rfl, rfl⟩

theorem decodePayload_encode_eq (p : Lead) (bs : List Byte) :
    ∃ more, encode (decodePayload p bs).1 = .wire (leadByte p :: more) ∧ more ++ (decodePayload p bs).2 = bs := by
  cases p with
  | angle => exact (decodeDigits_answer .angle .a bs [] (Nat.zero_le _)).encode_eq fun _ _ _ => rfl
  | speed => exact (decodeDigits_answer .speed .s bs [] (Nat.zero_le _)).encode_eq fun _ _ _ => rfl
  | direction => exact decodeDirection_encode_eq bs

/-- The wire decoder answers every list that is not empty. -/
theorem decodeWire_cons (b : Byte) (bs : List Byte) : ∃ i rest, decodeWire (b :: bs) = .ok (i, rest) := by
  cases hl : leadOf b with
  | none => exact ⟨_, _, decodeWire_of_leadOf_none hl bs⟩
  | some p => exact ⟨_, _, eq_leadByte hl ▸ decodeWire_leadByte p bs⟩

/-- The first wire command of a list is encoded as the bytes taken for it. -/
theorem decodeWire_encode_eq {bs rest : List Byte} {i : Instr} (h : decodeWire bs = .ok (i, rest)) :
    ∃ used, encode i = .wire used ∧ used ++ rest = bs := by
  cases bs with
  | nil => cases h
  | cons b bs =>
    cases hl : leadOf b with
    | none =>
      rw [decodeWire_of_leadOf_none hl] at h
      cases h
      exact ⟨[b], rfl, rfl⟩
    | some p =>
      obtain rfl := eq_leadByte hl
      have hmore := decodePayload_encode_eq p bs
      rw [Except.ok.inj ((decodeWire_leadByte p bs).symm.trans h)] at hmore
      obtain ⟨more, he, hb⟩ := hmore
      exact ⟨leadByte p :: more, he, congrArg (leadByte p :: ·) hb⟩

/-- 30_encoding.md R74, R75, for every instruction: the law of each constructor, assembled. -/
theorem wireLength (i : Instr) : Laws.WireLength.Statement i := by
  cases i with
  | a d0 d1 d2 => exact Laws.WireLength.a d0 d1 d2
  | s d0 d1 d2 => exact Laws.WireLength.s d0 d1 d2
  | df => exact Laws.WireLength.df
  | db => exact Laws.WireLength.db
  | ds => exact Laws.WireLength.ds
  | skip b => exact Laws.WireLength.skip b
  | malformed p taken bad => exact Laws.WireLength.malformed p taken bad
  | incomplete p taken => exact Laws.WireLength.incomplete p taken
  | _ => exact Laws.WireLength.of_not_wire fun _ => nofun

/-- Settles O4: the decoder answers, what it answers is encoded as the bytes it took, and a well-formed wire command has
1 to 4 of them. -/
theorem everyByteListStartsWithOneCommand : Obligations.EveryByteListStartsWithOneCommand := by
  intro b bs
  obtain ⟨i, rest, hd⟩ := decodeWire_cons b bs
  obtain ⟨used, he, hb⟩ := decodeWire_encode_eq hd
  obtain ⟨hmin, hmax, -⟩ := wireLength i (decodeWire_ok hd).1 used he
  exact ⟨i, used, rest, hd, he, hb, hmin, hmax⟩

end Sys2Proof
end

section
/-! PROOFS. 30_encoding.md R80 to R82: the layout of a Command word, and the words that have no Command. -/

namespace Sys2Proof

theorem wordOfCommand_injective : Function.Injective wordOfCommand := fun c c' h =>
  Option.some.inj (by rw [← commandOfWord_wordOfCommand c, h, commandOfWord_wordOfCommand])

/-- Settles O5: the fields of a word put together, and that its Command is read back from it. -/
theorem commandWordLayout : Obligations.CommandWordLayout := by
  refine ⟨fun v => ⟨wordTag_mkWord 0 v, wordPayload_mkWord 0 v⟩, fun d => ⟨wordTag_mkWord 1 _, ?_⟩,
    fun a => ⟨wordTag_mkWord 2 _, ?_⟩, fun c c' => wordOfCommand_injective.eq_iff⟩
  · rw [wordOfCommand, wordPayload_mkWord]
    cases d <;> rfl
  · rw [wordOfCommand, wordPayload_mkWord, setWidth_16_32]

/-- Only direction code `0b11` names no direction (30_encoding.md R81). -/
theorem directionOfCode_eq_none_iff : ∀ c : BitVec 2, directionOfCode c = none ↔ c.toNat = 3 := by
  decide

section

variable {w : CmdWord}

theorem commandOfWord_ne_none_of_speed (h : wordTag w = 0) : commandOfWord w ≠ none := by
  simp [commandOfWord, h]

theorem commandOfWord_eq_none_iff_of_direction (h : wordTag w = 1) :
    commandOfWord w = none ↔ (wordPayload w).toNat % 4 = 3 ∨ (wordPayload w).toNat / 4 ≠ 0 := by
  rw [commandOfWord, if_neg (by rw [h]; decide), if_pos h]
  split
  · rw [Option.map_eq_none_iff, directionOfCode_eq_none_iff, BitVec.toNat_setWidth]
    omega
  · exact iff_of_true rfl (by omega)

theorem commandOfWord_eq_none_iff_of_angle (h : wordTag w = 2) :
    commandOfWord w = none ↔ (wordPayload w).toNat / 65536 ≠ 0 := by
  rw [commandOfWord, if_neg (by rw [h]; decide), if_neg (by rw [h]; decide), if_pos h]
  split
  · exact iff_of_false nofun (by omega)
  · exact iff_of_true rfl (by omega)

theorem commandOfWord_eq_none_of_reserved (h : wordTag w = 3) : commandOfWord w = none := by
  simp [commandOfWord, h]

end

theorem two_bit_cases : ∀ g : BitVec 2, g = 0 ∨ g = 1 ∨ g = 2 ∨ g = 3 := by
  decide

end Sys2Proof

namespace Sys2Proof.Machine

theorem execDispatch_of_ill_formed {w : CmdWord} (h : commandOfWord w = none) (s : State) :
    execDispatch w s = .refused (.illFormedCommand w) := by
  rw [execDispatch, h]

/-- Settles O6: the ill-formed words tag by tag, and what the machine answers to one. -/
theorem illFormedWordsAreRefused : Obligations.IllFormedWordsAreRefused := by
  refine ⟨fun w => ?_, fun w s h => execDispatch_of_ill_formed h s, fun payload s => rfl⟩
  rcases two_bit_cases (wordTag w) with h | h | h | h
  · simp [h, commandOfWord_ne_none_of_speed h]
  · simp [h, commandOfWord_eq_none_iff_of_direction h]
  · simp [h, commandOfWord_eq_none_iff_of_angle h]
  · simp [h, commandOfWord_eq_none_of_reserved h]

end Sys2Proof.Machine
end

section
/-! PROOFS. 30_encoding.md R72, R80, R85: the decoder and the encoder undo each other at every code level. -/

namespace Sys2Proof

/-! ## Operand fields (logs 10 and 11) -/

theorem opField_opWord (c : BitVec 4) {k : Nat} (hk : k ≤ 34) (v : BitVec k) :
    opField k (opWord c v.toNat) = .ok v := by
  have hlt : v.toNat < 2 ^ 34 := v.isLt.trans_le (Nat.pow_le_pow_right (by decide) hk)
  rw [opField, opOperand_opWord, BitVec.toNat_ofNat, Nat.mod_eq_of_lt hlt, if_pos v.isLt, BitVec.ofNat_toNat,
    BitVec.setWidth_eq]

theorem opBare_opWord (c : BitVec 4) (i : Instr) : opBare i (opWord c 0) = .ok i := by
  exact if_pos (opOperand_opWord c 0)

theorem opField_eq_ok {k : Nat} {w : BitVec 38} {v : BitVec k} (h : opField k w = .ok v) :
    (opOperand w).toNat = v.toNat := by
  unfold opField at h
  split at h
  · rename_i hlt
    rw [← Except.ok.inj h, BitVec.toNat_ofNat, Nat.mod_eq_of_lt hlt]
  · cases h

theorem opField_map_eq_ok {k : Nat} {w : BitVec 38} {f : BitVec k → Instr} {i : Instr}
    (h : (opField k w).map f = .ok i) : ∃ v, i = f v ∧ (opOperand w).toNat = v.toNat := by
  cases ho : opField k w with
  | error e =>
    rw [ho] at h
    cases h
  | ok v =>
    rw [ho] at h
    exact ⟨v, (Except.ok.inj h).symm, opField_eq_ok ho⟩

theorem opBare_eq_ok {j i : Instr} {w : BitVec 38} (h : opBare j w = .ok i) : i = j ∧ (opOperand w).toNat = 0 := by
  unfold opBare at h
  split at h
  · rename_i hz
    exact ⟨(Except.ok.inj h).symm, congrArg BitVec.toNat hz⟩
  · cases h

/-- A port operation's word is known by its two fields. -/
theorem opWord_eq_of_fields {c : BitVec 4} {n : Nat} {w : BitVec 38} (hc : (opCode w).toNat = c.toNat)
    (hn : (opOperand w).toNat = n) : opWord c n = w := by
  rw [← BitVec.eq_of_toNat_eq hc, ← hn, opWord_fields]

theorem flagOfBit_flagBit (f : FlagId) : flagOfBit (flagBit f) = f := by
  cases f <;> rfl

theorem flagBit_flagOfBit : ∀ b : BitVec 1, flagBit (flagOfBit b) = b := by
  decide

theorem stepField_toNat {k : Nat} (v : BitVec k) : stepField k v.toNat = some v := by
  rw [stepField, if_pos v.isLt, BitVec.ofNat_toNat, BitVec.setWidth_eq]

theorem stepField_eq_some {k n : Nat} {v : BitVec k} (h : stepField k n = some v) : v.toNat = n := by
  unfold stepField at h
  split at h
  · rename_i hlt
    rw [← Option.some.inj h, BitVec.toNat_ofNat, Nat.mod_eq_of_lt hlt]
  · cases h

theorem channelOfNumber_channelNumber (ch : ChannelId) : channelOfNumber (channelNumber ch) = some ch := by
  cases ch <;> rfl

theorem channelNumber_of {n : Nat} {ch : ChannelId} (h : channelOfNumber n = some ch) : channelNumber ch = n := by
  unfold channelOfNumber at h
  split_ifs at h <;> cases h <;> symm <;> assumption

/-! ## Decoding an encoding -/

theorem decode_step_of_stepOf {k : Nat} {operands : List Nat} {i : Instr} (h : stepOf k operands = some i) :
    decode (.step k operands) = .ok i := by
  rw [decode, decodeStep, h]

/-- The word of a Command is decoded as the instruction of that Command. -/
theorem decodeCommand_wordOfCommand (c : Command) :
    decodeCommand (wordOfCommand c) = .ok (match c with
      | .setSpeed v => .cmdSetSpeed v
      | .setDirection d => .cmdSetDirection d
      | .setServoAngle a => .cmdSetServoAngle a) := by
  have htag : wordTag (wordOfCommand c) ≠ 3 := by cases c <;> rw [wordOfCommand, wordTag_mkWord] <;> decide
  rw [decodeCommand, if_neg htag, commandOfWord_wordOfCommand]
  cases c <;> rfl

/-- Settles O1: the round trip, code level by code level. -/
theorem decodeEncodeRoundTrip : Obligations.DecodeEncodeRoundTrip := by
  intro i hw
  cases i with
  | a d0 d1 d2 | s d0 d1 d2 =>
    simp only [Instr.wellFormed, Bool.and_eq_true] at hw
    obtain ⟨⟨h0, h1⟩, h2⟩ := hw
    exact decode_wire_of_decodeWire ((decodeWire_leadByte _ _).trans
      (congrArg Except.ok (decodeDigits_whole _ _ d0 d1 d2 [] h0 h1 h2)))
  | df | db | ds => rfl
  | skip b => exact decode_wire_of_decodeWire (decodeWire_of_leadOf_none (Option.isNone_iff_eq_none.mp hw) [])
  | malformed p taken bad =>
    simp only [Instr.wellFormed, Bool.and_eq_true, Bool.not_eq_true'] at hw
    exact decode_wire_of_decodeWire ((decodeWire_leadByte p _).trans
      (congrArg Except.ok (decodePayload_malformed hw.1 hw.2)))
  | incomplete p taken =>
    exact decode_wire_of_decodeWire ((decodeWire_leadByte p _).trans
      (congrArg Except.ok (decodePayload_incomplete hw)))
  | cmdSetSpeed | cmdSetDirection | cmdSetServoAngle => exact decodeCommand_wordOfCommand _
  | cmdReserved payload => simp [encode, decode, decodeCommand]
  | ccEnq w =>
    have hok : wordOk w = true := hw
    simp [encode, decode, decodeOp, hok]
  | bcEnq | setSpeed | setAngle | setAccel => simp [encode, decode, decodeOp, opField_opWord, Except.map]
  | flagSet | flagTake => simp [encode, decode, decodeOp, opField_opWord, Except.map, flagOfBit_flagBit]
  | setDir d => simp [encode, decode, decodeOp, opField_opWord, directionOfCode_directionCode]
  | bcDeq | ccDeq | parse | advanceTick | advanceBlocking | center | hold | estop =>
    simp [encode, decode, decodeOp, opBare_opWord]
  | syncTail ch v | syncHead ch v =>
    exact decode_step_of_stepOf (by rw [stepOf, channelOfNumber_channelNumber]; rfl)
  | dispatch w =>
    have hok : wordOk w = true := hw
    exact decode_step_of_stepOf (by rw [stepOf, stepField_toNat, Option.bind_some, if_pos hok])
  | servoNew dz ma => exact decode_step_of_stepOf (by rw [stepOf, stepField_toNat, stepField_toNat]; rfl)
  | rxEvent b => exact decode_step_of_stepOf (by rw [stepOf, stepField_toNat]; rfl)
  | parseStep | parseAndForward | controlIter | pulse | tickEvent | reset => rfl

/-- Settles O3: the words written out are the encodings of those instructions. -/
theorem writtenWordsDecode : Obligations.WrittenWordsDecode :=
  ⟨decodeEncodeRoundTrip (.a 0 9 0) rfl, decodeEncodeRoundTrip (.s 0 0 5) rfl, decodeEncodeRoundTrip .df rfl,
    decodeEncodeRoundTrip .db rfl, decodeEncodeRoundTrip .ds rfl, decodeEncodeRoundTrip (.cmdSetSpeed 5) rfl,
    decodeEncodeRoundTrip (.cmdSetServoAngle 90) rfl, decodeEncodeRoundTrip .parse rfl⟩

/-! ## Encoding what was decoded -/

theorem decode_wire_encode_eq {bytes : List Byte} {i : Instr} (h : decode (.wire bytes) = .ok i) :
    encode i = .wire bytes := by
  obtain ⟨used, he, hb⟩ := decodeWire_encode_eq (decode_wire_eq_ok h)
  rw [he, ← hb, List.append_nil]

theorem decodeCommand_encode_eq {w : CmdWord} {i : Instr} (h : decodeCommand w = .ok i) : encode i = .command w := by
  unfold decodeCommand at h
  split at h
  · rename_i htag
    cases h
    show Code.command (mkWord 3 (wordPayload w)) = .command w
    rw [← htag, mkWord_fields]
  · split at h <;> cases h
    all_goals
      rename_i hc
      exact congrArg Code.command (wordOfCommand_of hc)

theorem decodeOp_encode_eq {w : BitVec 38} {i : Instr} (h : decodeOp w = .ok i) : encode i = .op w := by
  unfold decodeOp at h
  split at h
  case h_3 hc =>
    split at h
    · cases h
      exact congrArg Code.op (opWord_eq_of_fields hc rfl)
    · cases h
  case h_6 hc =>
    split at h
    · rename_i ho
      split at h
      · rename_i hd
        cases h
        refine congrArg Code.op (opWord_eq_of_fields hc ?_)
        rw [directionCode_of hd]
        exact opField_eq_ok ho
      · cases h
    · cases h
  case h_1 hc | h_7 hc | h_10 hc | h_15 hc =>
    obtain ⟨v, rfl, hv⟩ := opField_map_eq_ok h
    exact congrArg Code.op (opWord_eq_of_fields hc hv)
  case h_12 hc | h_13 hc =>
    obtain ⟨v, rfl, hv⟩ := opField_map_eq_ok h
    refine congrArg Code.op (opWord_eq_of_fields hc ?_)
    rw [flagBit_flagOfBit, hv]
  case h_2 hc | h_4 hc | h_5 hc | h_8 hc | h_9 hc | h_11 hc | h_14 hc =>
    obtain ⟨rfl, hz⟩ := opBare_eq_ok h
    exact congrArg Code.op (opWord_eq_of_fields hc hz)
  case h_16 =>
    obtain ⟨rfl, hz⟩ := opBare_eq_ok h
    refine congrArg Code.op (opWord_eq_of_fields (c := 0xF) ?_ hz)
    show (opCode w).toNat = 15
    have hlt : (opCode w).toNat < 16 := (opCode w).isLt
    simp only [imp_false] at *
    omega

theorem stepOf_encode_eq {k : Nat} {operands : List Nat} {i : Instr} (h : stepOf k operands = some i) :
    encode i = .step k operands := by
  unfold stepOf at h
  split at h
  case h_1 | h_2 =>
    obtain ⟨ch, hch, rfl⟩ := Option.map_eq_some_iff.mp h
    rw [encode, channelNumber_of hch]
  case h_5 =>
    obtain ⟨w, hw, h⟩ := Option.bind_eq_some_iff.mp h
    split at h
    · cases h
      rw [encode, stepField_eq_some hw]
    · cases h
  case h_8 =>
    obtain ⟨d, hd, h⟩ := Option.bind_eq_some_iff.mp h
    obtain ⟨m, hm, rfl⟩ := Option.map_eq_some_iff.mp h
    rw [encode, stepField_eq_some hd, stepField_eq_some hm]
  case h_9 =>
    obtain ⟨b, hb, rfl⟩ := Option.map_eq_some_iff.mp h
    rw [encode, stepField_eq_some hb]
  case h_12 => cases h
  all_goals
    cases h
    rfl

theorem decodeStep_encode_eq {k : Nat} {operands : List Nat} {i : Instr} (h : decodeStep k operands = .ok i) :
    encode i = .step k operands := by
  unfold decodeStep at h
  split at h
  · rename_i hs
    cases h
    exact stepOf_encode_eq hs
  · split at h <;> cases h

/-- Settles O2: the decoder answers well-formed instructions only (`decode_ok`), and at each code level the code is
rebuilt from the fields the decoder read. -/
theorem everyDecodedCodeIsItsEncoding : Obligations.EveryDecodedCodeIsItsEncoding := by
  intro c i h
  refine ⟨(decode_ok h).1, ?_⟩
  cases c with
  | wire bytes => exact decode_wire_encode_eq h
  | command w => exact decodeCommand_encode_eq h
  | op w => exact decodeOp_encode_eq h
  | step k operands => exact decodeStep_encode_eq h

end Sys2Proof
end

section
/-! PROOFS. Tier 1: the step of an issued code (30_encoding.md R85, 70_reset_and_hazards.md R255). -/

namespace Sys2Proof.Machine

theorem issueTurn_of_ok {c : Code} {i : Instr} (hd : decode c = .ok i) (s : State) :
    issueTurn c s = if s.endInUse i then .refused .endInUse else exec i s := by
  rw [issueTurn, hd]

theorem issueTurn_of_error {c : Code} {e : DecodeError} (hd : decode c = .error e) (s : State) :
    issueTurn c s = .refused (.undecodable e) := by
  rw [issueTurn, hd]

/-- Who is inside its program does not depend on the schedule. -/
theorem endInUse_withSched (s : State) (x : List Turn) (i : Instr) : (s.withSched x).endInUse i = s.endInUse i := by
  cases i <;> rfl

/-- Settles O7: the step is the issued code's turn, run or refused as the channel end it drives is free or not. -/
theorem stepRunsIssuedInstruction : Obligations.StepRunsIssuedInstruction := by
  refine ⟨fun s c rest i hs hd => ?_, fun s c rest e hs hd => ?_, fun s hs => ?_⟩
  · have hstep : step s = if s.endInUse i then .refused .endInUse else exec i (s.withSched rest) := by
      rw [step_cons hs, runTurn, issueTurn_of_ok hd, endInUse_withSched]
    exact ⟨fun hfree => hstep.trans (if_neg (by rw [hfree]; decide)), fun hbusy => hstep.trans (if_pos hbusy)⟩
  · rw [step_cons hs, runTurn, issueTurn_of_error hd]
  · rw [step, hs]

end Sys2Proof.Machine
end

section
/-! PROOFS. The channel and flag operations (40_channel_ops.md R101 to R109): what an enqueue and a dequeue answer and
leave, and how many items an empty channel takes. -/

namespace Sys2Proof.Machine

section

variable {α : Type} {n : Nat} {r : Ring α}

/-! ## One channel -/

theorem Ring.enq_of_seen_full (exact : Bool) (x : α) (hf : ptrSub n r.tail r.headSync = n) : r.enq n exact x = none :=
  if_pos (decide_eq_true hf)

/-- Not seen full, the item goes to slot `tail mod N` and the write pointer moves on (40_channel_ops.md R101). -/
theorem Ring.enq_of_not_seen_full (exact : Bool) (x : α) (hf : ptrSub n r.tail r.headSync ≠ n) :
    r.enq n exact x = some
      { r with
        mem := r.mem.set (r.tail % n) x
        tail := ptrNext n r.tail
        tailSync := if exact then ptrNext n r.tail else r.tailSync } :=
  if_neg (by simpa [Ring.fullP] using hf)

theorem Ring.deq_of_seen_empty (exact : Bool) (he : r.tailSync = r.head) : r.deq n exact = .nothing :=
  if_pos (decide_eq_true he)

/-- Not seen empty, a dequeue takes the first item of the contents, which is also the first its consumer sees
(40_channel_ops.md R102). -/
theorem Ring.Inv.deq_takes_oldest (h : r.Inv n) (exact : Bool) (he : r.tailSync ≠ r.head) :
    ∃ v r', r.deq n exact = .item v r' ∧ (r.contents n).head? = some v ∧ (r.visible n).head? = some v ∧
      r'.contents n = (r.contents n).tail := by
  obtain ⟨v, r', hd⟩ := h.deq_of_not_emptyC exact (decide_eq_false he)
  refine ⟨v, r', hd, ?_, ?_, ?_⟩
  · rw [h.deq_contents exact v hd, List.head?_cons]
  · rw [h.deq_visible exact v hd, List.head?_cons]
  · rw [h.deq_contents exact v hd, List.tail_cons]

/-- In `exact` mode the next dequeue of an empty channel takes what was just enqueued, and leaves it empty. -/
theorem Ring.Inv.enq_deq_of_empty (h : r.Inv n) (hs : r.Synced) (hc : r.contents n = []) (x : α) :
    ∃ r₁ r₂, r.enq n true x = some r₁ ∧ r₁.deq n true = .item x r₂ ∧ r₂.contents n = [] := by
  have hroom : r.fullP n = false := by
    rw [Bool.eq_false_iff, ne_eq, h.fullP_iff_of_synced hs, hc]
    exact h.pos.ne
  obtain ⟨r₁, he⟩ := Ring.enq_of_not_full true x hroom
  have h₁ : r₁.Inv n := h.enq true x he
  have hc₁ : r₁.contents n = [x] := by rw [h.enq_contents true x he, hc, List.nil_append]
  have hsees : r₁.emptyC = false := by
    rw [Bool.eq_false_iff, ne_eq, h₁.emptyC_iff_of_synced (Ring.enq_synced x hs he), hc₁]
    exact List.cons_ne_nil _ _
  obtain ⟨v, r₂, hd⟩ := h₁.deq_of_not_emptyC true hsees
  have hitems : [x] = v :: r₂.contents n := hc₁.symm.trans (h₁.deq_contents true v hd)
  obtain ⟨rfl, hnil⟩ := List.cons.inj hitems
  exact ⟨r₁, r₂, he, hd, hnil.symm⟩

/-! ## Enqueues in a row -/

/-- Where the producer's copy is the read pointer, what it believes to be occupied is so. -/
theorem Ring.believed_eq_len (hs : r.headSync = r.head) : ptrSub n r.tail r.headSync = r.len n := by
  rw [hs, Ring.len]

/-- While nothing is dequeued, the producer's copy of the read pointer is right in either SYNC_MODE, so that every item
there is room for is accepted, in order. -/
theorem Ring.Inv.foldlM_enq (exact : Bool) (xs : List α) : ∀ {r : Ring α}, r.Inv n → r.headSync = r.head →
    r.len n + xs.length ≤ n → ∃ r', xs.foldlM (fun r x => r.enq n exact x) r = some r' ∧ r'.Inv n ∧
      r'.headSync = r'.head ∧ r'.contents n = r.contents n ++ xs := by
  induction xs with
  | nil => exact fun {r} h hs _ => ⟨r, rfl, h, hs, (List.append_nil _).symm⟩
  | cons x xs ih =>
    intro r h hs hroom
    rw [List.length_cons] at hroom
    have hfree : ptrSub n r.tail r.headSync ≠ n := by
      rw [Ring.believed_eq_len hs]
      omega
    have he := Ring.enq_of_not_seen_full exact x hfree
    have hlen := h.enq_len exact x he
    obtain ⟨r', hfold, h', hs', hc'⟩ := ih (h.enq exact x he) hs (by omega)
    refine ⟨r', ?_, h', hs', ?_⟩
    · rw [List.foldlM_cons, he]
      exact hfold
    · rw [hc', h.enq_contents exact x he, List.append_assoc, List.singleton_append]

theorem Ring.empty_len (n : Nat) : (Ring.empty : Ring α).len n = 0 := by
  simp [Ring.len, Ring.empty, ptrSub]

theorem Ring.empty_contents (n : Nat) : (Ring.empty : Ring α).contents n = [] := by
  rw [Ring.contents, Ring.empty_len]
  rfl

end

/-! ## The instructions -/

section

variable {s : State}

theorem execBcEnq_of_seen_full {b : Byte} (hf : ptrSub s.nBc s.bc.tail s.bc.headSync = s.nBc) :
    execBcEnq b s = .next (raiseFullBc b s) := by
  rw [execBcEnq, Ring.enq_of_seen_full _ _ hf]

theorem execCcEnq_of_seen_full {w : CmdWord} (hf : ptrSub s.nCc s.cc.tail s.cc.headSync = s.nCc) :
    execCcEnq w s = .next (raiseFullCc w s) := by
  rw [execCcEnq, Ring.enq_of_seen_full _ _ hf]

theorem execBcDeq_of_seen_empty (he : s.bc.tailSync = s.bc.head) : execBcDeq s = .next (s.withRes (.byte none)) := by
  rw [execBcDeq, Ring.deq_of_seen_empty _ he]

theorem execCcDeq_of_seen_empty (he : s.cc.tailSync = s.cc.head) :
    execCcDeq s = .next (s.withRes (.command none)) := by
  rw [execCcDeq, Ring.deq_of_seen_empty _ he]

/-- An accepted byte leaves ByteChannel as `bcWith` says. -/
theorem enq_bcWith {b : Byte} (hf : ptrSub s.nBc s.bc.tail s.bc.headSync ≠ s.nBc) :
    s.bc.enq s.nBc s.cfg.isExact b = some (s.bcWith b) := by
  rw [Ring.enq_of_not_seen_full _ _ hf]
  simp only [State.bcWith, Config.isExact, ptrNext, decide_eq_true_eq]

/-- An accepted word leaves CommandChannel as `ccWith` says. -/
theorem enq_ccWith {w : CmdWord} (hf : ptrSub s.nCc s.cc.tail s.cc.headSync ≠ s.nCc) :
    s.cc.enq s.nCc s.cfg.isExact w = some (s.ccWith w) := by
  rw [Ring.enq_of_not_seen_full _ _ hf]
  simp only [State.ccWith, Config.isExact, ptrNext, decide_eq_true_eq]

/-- A dequeue of CommandChannel leaves it one word further. -/
theorem deq_ccAfter {w : CmdWord} {r : Ring CmdWord} (hd : s.cc.deq s.nCc s.cfg.isExact = .item w r) :
    r = s.ccAfter 1 := by
  obtain ⟨-, -, rfl⟩ := Ring.deq_item _ _ hd
  simp only [State.ccAfter, Config.isExact, ptrNext, decide_eq_true_eq]

end

/-- Settles O28: N enqueues fill the channel, whose contents then say that it is seen full. -/
theorem capacityIsTheDepth : Obligations.CapacityIsTheDepth := by
  intro α n exact xs y hn hxs
  have hroom : (Ring.empty : Ring α).len n + xs.length ≤ n := by rw [Ring.empty_len, hxs, Nat.zero_add]
  obtain ⟨r, hfold, h, hs, hc⟩ := Ring.Inv.foldlM_enq exact xs (Ring.empty_inv hn) rfl hroom
  rw [Ring.empty_contents, List.nil_append] at hc
  have hfull : ptrSub n r.tail r.headSync = n := by
    rw [Ring.believed_eq_len hs, ← h.contents_length, hc, hxs]
  exact ⟨r, hfold, Ring.enq_of_seen_full exact y hfull, hc⟩

/-- Settles O22: the dequeue of one channel, which leaves ByteChannel one byte further. -/
theorem byteDequeueTakesOldest : Obligations.ByteDequeueTakesOldest := by
  refine fun s h => ⟨execBcDeq_of_seen_empty, fun he => ?_⟩
  obtain ⟨b, r, hd, holdest, hvisible, hrest⟩ := h.bc.deq_takes_oldest s.cfg.isExact he
  obtain rfl := deq_bcAfter hd
  exact ⟨b, holdest, hvisible, execBcDeq_of_deq hd, hrest⟩

/-- Settles O23, as O22 for CommandChannel. -/
theorem commandDequeueTakesOldest : Obligations.CommandDequeueTakesOldest := by
  refine fun s h => ⟨execCcDeq_of_seen_empty, fun he => ?_⟩
  obtain ⟨w, r, hd, holdest, -, hrest⟩ := h.cc.deq_takes_oldest s.cfg.isExact he
  obtain rfl := deq_ccAfter hd
  exact ⟨w, holdest, execCcDeq_of_deq hd, hrest⟩

/-- Settles O24: the round trip of the channel around that of the Command word. -/
theorem commandRoundTrip : Obligations.CommandRoundTrip := by
  intro c s h hmode hc
  obtain ⟨r₁, r₂, henq, hdeq, hempty⟩ := h.cc.enq_deq_of_empty (h.synced hmode).2 hc (wordOfCommand c)
  rw [← (State.isExact_iff s).mpr hmode] at henq hdeq
  exact ⟨_, _, execCcEnq_of_enq henq, execCcDeq_of_deq (s := (s.withCc r₁).withRes _) hdeq, rfl,
    commandOfWord_wordOfCommand c, hempty⟩

/-- Settles O20: the enqueue of one channel, and a read after its one write to storage. -/
theorem byteEnqueueResult : Obligations.ByteEnqueueResult := fun _ s =>
  ⟨execBcEnq_of_seen_full, fun hf => execBcEnq_of_enq (enq_bcWith hf), fun i => Memory.get_set s.bc.mem _ i _⟩

/-- Settles O21, as O20 for CommandChannel. -/
theorem commandEnqueueResult : Obligations.CommandEnqueueResult := fun _ s =>
  ⟨execCcEnq_of_seen_full, fun hf => execCcEnq_of_enq (enq_ccWith hf), fun i => Memory.get_set s.cc.mem _ i _⟩

/-- Settles O32: each flag operation is one assignment, to its own flag. -/
theorem flagOperationsResult : Obligations.FlagOperationsResult := fun _ => ⟨rfl, rfl, rfl, rfl⟩

end Sys2Proof.Machine
end

section
/-! PROOFS. The parser's tables on one byte (41_parser.md R123): which bytes are prefixes, arguments and digits, and
what the commands with a digit payload, `A` and `S`, have in common. -/

namespace Sys2Proof

theorem leadOf_eq_none {b : Byte} (ha : b ≠ 0x41) (hs : b ≠ 0x53) (hd : b ≠ 0x44) : leadOf b = none := by
  rw [leadOf, if_neg ha, if_neg hs, if_neg hd]

theorem directionOf_eq_none {b : Byte} (hf : b ≠ 0x46) (hb : b ≠ 0x42) (hs : b ≠ 0x53) : directionOf b = none := by
  rw [directionOf, if_neg hf, if_neg hb, if_neg hs]

theorem isDigit_eq_false {b : Byte} (h : b.toNat < 0x30 ∨ 0x39 < b.toNat) : isDigit b = false := by
  rw [Bool.eq_false_iff, ne_eq, isDigit_iff]
  omega

end Sys2Proof

namespace Sys2Proof.Machine

/-! ## Rows of the table -/

theorem onDigit_of_digit (acc : BitVec 10) {b : Byte} (hb : isDigit b = true) (t : Transition) :
    onDigit acc b t = t := if_pos hb

theorem onDigit_of_not_digit (acc : BitVec 10) {b : Byte} (hb : isDigit b = false) (t : Transition) :
    onDigit acc b t = ⟨.scan, acc, .continue⟩ := if_neg (Bool.eq_false_iff.mp hb)

theorem ptrans_none {st : PState} (hst : st ≠ .idle) (acc : BitVec 10) :
    ptrans st acc none = some ⟨.idle, acc, .done .err⟩ := by
  cases st with
  | idle => exact absurd rfl hst
  | scan | aD0 | aD1 | aD2 | sD0 | sD1 | sD2 | dArg => rfl

theorem ptrans_scan_of_no_lead {b : Byte} (hb : leadOf b = none) (acc : BitVec 10) :
    ptrans .scan acc (some b) = some ⟨.scan, acc, .continue⟩ := by
  rw [ptrans, scanByte, hb]

theorem ptrans_dArg_of_direction {b : Byte} {d : Direction} (hb : directionOf b = some d) (acc : BitVec 10) :
    ptrans .dArg acc (some b) = some ⟨.idle, acc, .done (.ok (.setDirection d))⟩ := by
  rw [ptrans, argByte, hb]

theorem ptrans_dArg_of_no_direction {b : Byte} (hb : directionOf b = none) (acc : BitVec 10) :
    ptrans .dArg acc (some b) = some ⟨.scan, acc, .continue⟩ := by
  rw [ptrans, argByte, hb]

/-- Settles O33: each row by the range its byte lies in. -/
theorem transitionTable : Obligations.TransitionTable := by
  refine fun acc b => ⟨fun _ hst => ptrans_none hst acc, fun _ => rfl, rfl, rfl, rfl, ?skipped, ?digit, ?noDigit, rfl,
    rfl, rfl, ?noArgument⟩
  case skipped => exact fun ⟨ha, hs, hd⟩ => ptrans_scan_of_no_lead (leadOf_eq_none ha hs hd) acc
  case digit =>
    intro hb
    have hdigit := onDigit_of_digit acc ((isDigit_iff b).mpr hb)
    refine ⟨?_, ?_, ?_, ?_, ?_, ?_⟩ <;> exact congrArg some (hdigit _)
  case noDigit =>
    intro hb st hst
    have hscan := onDigit_of_not_digit acc (isDigit_eq_false hb)
    rcases hst with rfl | rfl | rfl | rfl | rfl | rfl <;> exact congrArg some (hscan _)
  case noArgument => exact fun ⟨hf, hb, hs⟩ => ptrans_dArg_of_no_direction (directionOf_eq_none hf hb hs) acc

/-! ## Digit payloads -/

/-- The commands whose payload is three digits (30_encoding.md R71). -/
inductive DigitCommand where
  | angle
  | speed

namespace DigitCommand

def lead : DigitCommand → Lead
  | .angle => .angle
  | .speed => .speed

/-- The Command of the payload's value (30_encoding.md R73). -/
def command : DigitCommand → Nat → Command
  | .angle => angleCommand
  | .speed => speedCommand

/-- The payload state with the given number of digits still to take, 1 to 3 (41_parser.md R123). -/
def awaiting : DigitCommand → Nat → PState
  | .angle, 1 => .aD2
  | .angle, 2 => .aD1
  | .angle, _ => .aD0
  | .speed, 1 => .sD2
  | .speed, 2 => .sD1
  | .speed, _ => .sD0

end DigitCommand

/-- The value of a payload whose digits so far gave `v`, with the digits `ds` after them (41_parser.md R133). -/
def decimal (v : Nat) (ds : List (BitVec 4)) : Nat := ds.foldl (fun v d => v * 10 + d.toNat) v

/-- The bound of the value `v` that a payload has with `left` digits still to take: whatever they are, the whole value
is at most 999 (41_parser.md R133). -/
def PayloadFits (left v : Nat) : Prop := (v + 1) * 10 ^ left ≤ 1000

theorem payloadFits_start : PayloadFits 3 0 := by
  unfold PayloadFits
  decide

theorem PayloadFits.le_999 {left v : Nat} (h : PayloadFits left v) : v ≤ 999 := by
  have : v + 1 ≤ (v + 1) * 10 ^ left := Nat.le_mul_of_pos_right _ (Nat.pow_pos (by decide))
  unfold PayloadFits at h
  omega

theorem PayloadFits.digit {left v d : Nat} (h : PayloadFits (left + 1) v) (hd : d ≤ 9) :
    PayloadFits left (v * 10 + d) :=
  calc (v * 10 + d + 1) * 10 ^ left ≤ ((v + 1) * 10) * 10 ^ left := Nat.mul_le_mul_right _ (by omega)
    _ = (v + 1) * 10 ^ (left + 1) := by rw [Nat.pow_succ', Nat.mul_assoc]
    _ ≤ 1000 := h

/-- At least two digits are to be taken only where at most one was. -/
theorem PayloadFits.cases {left v : Nat} (h : PayloadFits (left + 2) v) : left = 0 ∨ left = 1 ∧ v = 0 := by
  unfold PayloadFits at h
  have hpow : 10 ^ (left + 2) ≤ 1000 := le_trans (Nat.le_mul_of_pos_left _ v.succ_pos) h
  have hleft : left + 2 < 4 := (Nat.pow_lt_pow_iff_right (by decide : 1 < 10)).mp (lt_of_le_of_lt hpow (by decide))
  rcases Nat.lt_or_ge left 1 with h0 | h1
  · exact .inl (by omega)
  · obtain rfl : left = 1 := by omega
    exact .inr ⟨rfl, by omega⟩

theorem accNext_ofNat {v : Nat} (hv : v ≤ 999) (b : Byte) : accNext (BitVec.ofNat 10 v) b = v * 10 + digitVal b := by
  rw [accNext, ofNat10_toNat v hv]

variable {c : DigitCommand} {left v : Nat} {b : Byte}

/-- A digit that is not the payload's last. -/
theorem ptrans_awaiting (hv : PayloadFits (left + 2) v) (hb : isDigit b = true) :
    ptrans (c.awaiting (left + 2)) (BitVec.ofNat 10 v) (some b) =
      some ⟨c.awaiting (left + 1), BitVec.ofNat 10 (v * 10 + digitVal b), .continue⟩ := by
  rcases hv.cases with rfl | ⟨rfl, rfl⟩
  · rw [← accNext_ofNat hv.le_999]
    cases c <;> exact congrArg some (onDigit_of_digit _ hb _)
  · rw [Nat.zero_mul, Nat.zero_add]
    cases c <;> exact congrArg some (onDigit_of_digit _ hb _)

/-- The payload's last digit. -/
theorem ptrans_awaiting_last (hv : PayloadFits 1 v) (hb : isDigit b = true) :
    ptrans (c.awaiting 1) (BitVec.ofNat 10 v) (some b) =
      some ⟨.idle, BitVec.ofNat 10 (v * 10 + digitVal b), .done (.ok (c.command (v * 10 + digitVal b)))⟩ := by
  rw [← accNext_ofNat hv.le_999]
  cases c <;> exact congrArg some (onDigit_of_digit _ hb _)

/-- A payload byte that is no digit. -/
theorem ptrans_awaiting_bad (c : DigitCommand) (left : Nat) (acc : BitVec 10) (hb : isDigit b = false) :
    ptrans (c.awaiting left) acc (some b) = some ⟨.scan, acc, .continue⟩ := by
  unfold DigitCommand.awaiting
  split <;> exact congrArg some (onDigit_of_not_digit acc hb _)

theorem ptrans_scan_lead (c : DigitCommand) (acc : BitVec 10) :
    ptrans .scan acc (some (leadByte c.lead)) = some ⟨c.awaiting 3, 0, .continue⟩ := by
  cases c <;> rfl

theorem awaiting_ne_idle (c : DigitCommand) (left : Nat) : c.awaiting left ≠ .idle := by
  unfold DigitCommand.awaiting
  split <;> decide

end Sys2Proof.Machine
end

section
/-! PROOFS. `parse_list` (41_parser.md R137): its equations, said once by what the first byte is, and that a call
(41_parser.md R120) computes it. -/

namespace Sys2Proof.Machine

theorem digitsList_digit {b : Byte} (hb : isDigit b = true) (left v : Nat) (r : List Byte) :
    digitsList (left + 1) v (b :: r) = digitsList left (v * 10 + digitVal b) r := by
  rw [digitsList, if_pos hb]

theorem digitsList_bad {b : Byte} (hb : isDigit b = false) (left v : Nat) (r : List Byte) :
    digitsList (left + 1) v (b :: r) = .bad r := by
  rw [digitsList, hb, if_neg Bool.false_ne_true]

/-- What `parse_list` makes of the answer of `digits`; `scanOn` is the scan of the bytes after a failed attempt. -/
def Digits.answer (command : Nat → Command) (scanOn : List Byte → ParseResult × List Byte) :
    Digits → ParseResult × List Byte
  | .done v rest => (.ok (command v), rest)
  | .bad rest => scanOn rest
  | .short => (.err, [])

/-! ## The equations of `parse_list` -/

/-- The bound on the attempts is never reached. -/
theorem parseListFuel_eq_parseList {k : Nat} {r : List Byte} (h : r.length < k) : parseListFuel k r = parseList r :=
  parseListFuel_eq k _ r h (Nat.lt_succ_self _)

theorem parseList_no_lead {b : Byte} (hb : leadOf b = none) (r : List Byte) : parseList (b :: r) = parseList r := by
  have hrest : parseList (b :: r) = parseListFuel (r.length + 1) r := by
    simp only [parseList, List.length_cons, parseListFuel, hb]
  exact hrest.trans (parseListFuel_eq_parseList (Nat.lt_succ_self _))

theorem parseList_digits (c : DigitCommand) (r : List Byte) :
    parseList (leadByte c.lead :: r) = (digitsList 3 0 r).answer c.command parseList := by
  have hrest : parseList (leadByte c.lead :: r) =
      (digitsList 3 0 r).answer c.command (parseListFuel (r.length + 1)) := by
    cases c <;> simp only [parseList, parseListFuel, DigitCommand.lead, leadOf_leadByte] <;>
      cases digitsList 3 0 r <;> rfl
  rw [hrest]
  cases hd : digitsList 3 0 r with
  | done v rest => rfl
  | bad rest => exact parseListFuel_eq_parseList (Nat.lt_succ_of_lt (digitsList_bad_length _ _ _ _ hd))
  | short => rfl

theorem parseList_direction {b : Byte} {d : Direction} (hb : directionOf b = some d) (r : List Byte) :
    parseList (leadByte .direction :: b :: r) = (.ok (.setDirection d), r) := by
  simp only [parseList, parseListFuel, leadOf_leadByte, hb]

theorem parseList_no_direction {b : Byte} (hb : directionOf b = none) (r : List Byte) :
    parseList (leadByte .direction :: b :: r) = parseList r := by
  have hrest : parseList (leadByte .direction :: b :: r) = parseListFuel (r.length + 2) r := by
    simp only [parseList, parseListFuel, leadOf_leadByte, hb, List.length_cons]
  exact hrest.trans (parseListFuel_eq_parseList (by omega))

/-- Settles O36: an equation for each kind of first byte, and for each step of `digits`. -/
theorem parseListEquations : Obligations.ParseListEquations := by
  refine ⟨rfl, fun r => ?_, fun r => ?_, rfl, fun b r => ?_,
    fun b r ha hs hd => parseList_no_lead (leadOf_eq_none ha hs hd) r, fun _ _ => rfl, fun _ _ => rfl,
    fun left acc b r => ?_⟩
  · refine (parseList_digits .angle r).trans ?_
    cases digitsList 3 0 r <;> rfl
  · refine (parseList_digits .speed r).trans ?_
    cases digitsList 3 0 r <;> rfl
  · split_ifs with hf hb hs
    · exact parseList_direction (by rw [hf]; rfl) r
    · exact parseList_direction (by rw [hb]; rfl) r
    · exact parseList_direction (by rw [hs]; rfl) r
    · exact parseList_no_direction (directionOf_eq_none hf hb hs) r
  · split_ifs with hb
    · exact digitsList_digit ((isDigit_iff b).mpr hb) left acc r
    · exact digitsList_bad (isDigit_eq_false (by omega)) left acc r

/-! ## A call computes `parse_list` -/

theorem callBytes_continue {p : Parser} {b : Byte} {st : PState} {acc : BitVec 10}
    (ht : ptrans p.pstate p.acc (some b) = some ⟨st, acc, .continue⟩) (bs : List Byte) :
    callBytes p (b :: bs) = callBytes ⟨st, acc⟩ bs := by
  rw [callBytes, ht]

theorem callBytes_done {p : Parser} {b : Byte} {st : PState} {acc : BitVec 10} {r : ParseResult}
    (ht : ptrans p.pstate p.acc (some b) = some ⟨st, acc, .done r⟩) (bs : List Byte) :
    callBytes p (b :: bs) = (r, bs) := by
  rw [callBytes, ht]

/-- The steps of a digit payload are `digits`, then the scan after a byte that is none. -/
theorem callBytes_digits (c : DigitCommand) (bs : List Byte) : ∀ (left v : Nat), PayloadFits (left + 1) v →
    (∀ (acc : BitVec 10) (rest : List Byte), rest.length < bs.length → callBytes ⟨.scan, acc⟩ rest = parseList rest) →
    callBytes ⟨c.awaiting (left + 1), BitVec.ofNat 10 v⟩ bs = (digitsList (left + 1) v bs).answer c.command parseList := by
  induction bs with
  | nil => exact fun _ _ _ _ => rfl
  | cons b bs ih =>
    intro left v hv hscan
    by_cases hb : isDigit b = true
    · rw [digitsList_digit hb]
      cases left with
      | zero => exact callBytes_done (ptrans_awaiting_last hv hb) bs
      | succ left =>
        rw [callBytes_continue (ptrans_awaiting hv hb)]
        exact ih left _ (hv.digit (digitVal_le b hb)) fun acc rest h => hscan acc rest (Nat.lt_succ_of_lt h)
    · have hb := Bool.eq_false_iff.mpr hb
      rw [digitsList_bad hb, callBytes_continue (ptrans_awaiting_bad c _ _ hb)]
      exact hscan _ _ (Nat.lt_succ_self _)

/-- From a scan position the steps of a call are `parse_list`, whatever `P.acc` holds. -/
theorem callBytes_scan_eq_parseList (bs : List Byte) (acc : BitVec 10) : callBytes ⟨.scan, acc⟩ bs = parseList bs := by
  match bs with
  | [] => rfl
  | b :: r =>
    have hscan (acc : BitVec 10) (rest : List Byte) (_ : rest.length < r.length) :
        callBytes ⟨.scan, acc⟩ rest = parseList rest := callBytes_scan_eq_parseList rest acc
    have hdigits (c : DigitCommand) :
        callBytes ⟨.scan, acc⟩ (leadByte c.lead :: r) = parseList (leadByte c.lead :: r) := by
      rw [callBytes_continue (ptrans_scan_lead c acc), parseList_digits]
      exact callBytes_digits c r 2 0 payloadFits_start hscan
    cases hb : leadOf b with
    | none =>
      rw [callBytes_continue (ptrans_scan_of_no_lead hb acc), parseList_no_lead hb]
      exact callBytes_scan_eq_parseList r acc
    | some p =>
      obtain rfl := eq_leadByte hb
      cases p with
      | angle => exact hdigits .angle
      | speed => exact hdigits .speed
      | direction =>
        rw [callBytes_continue (st := .dArg) (acc := acc) rfl]
        cases r with
        | nil => rfl
        | cons b' r =>
          cases hb' : directionOf b' with
          | some d => rw [callBytes_done (ptrans_dArg_of_direction hb' acc), parseList_direction hb']
          | none =>
            rw [callBytes_continue (ptrans_dArg_of_no_direction hb' acc), parseList_no_direction hb']
            exact callBytes_scan_eq_parseList r acc
termination_by bs.length

/-- A whole call is `parse_list` on the bytes the parser sees. -/
theorem parseCall_eq_parseList {s : State} (h : s.Inv) : ∃ k acc,
    k = s.visibleBytes.length - (parseList s.visibleBytes).2.length ∧
    parseCall s = .next (s.took k ⟨.idle, acc⟩ (some (parseList s.visibleBytes).1)) ∧
    (s.took k ⟨.idle, acc⟩ (some (parseList s.visibleBytes).1)).visibleBytes = (parseList s.visibleBytes).2 := by
  obtain ⟨acc, hcall, hleft⟩ := parseCall_eq h
  rw [callBytes_scan_eq_parseList] at hcall hleft
  exact ⟨_, acc, rfl, hcall, hleft⟩

theorem execParse_of_call {s : State} {k : Nat} {p : Parser} {r : ParseResult} (hp : s.p.pstate = .idle)
    (hcall : parseCall s = .next (s.took k p (some r))) :
    execParse s = .next { s with bc := s.bcAfter k, p := p, res := .parsed r } := by
  rw [execParse, if_pos hp, hcall]
  rfl

theorem execParseAndForward_of_call {s : State} {k : Nat} {p : Parser} {r : ParseResult} (hp : s.p.pstate = .idle)
    (hpar : s.par = none) (hcall : parseCall s = .next (s.took k p (some r))) :
    execParseAndForward s = forward r (s.took k p (some r)) := by
  rw [execParseAndForward, if_pos ⟨hp, hpar⟩, hcall]
  rfl

theorem execCcEnq_next (w : CmdWord) (s : State) : ∃ t, execCcEnq w s = .next t := by
  unfold execCcEnq
  split <;> exact ⟨_, rfl⟩

/-- A result in hand is always forwarded: an enqueue answers in every state (40_channel_ops.md R101). -/
theorem forward_next (r : ParseResult) (s : State) : ∃ t, forward r s = .next t := by
  cases r with
  | ok c => exact execCcEnq_next _ _
  | err => exact ⟨_, rfl⟩

/-- Settles O35: the call computes `parse_list`, and PARSE hands its result over. -/
theorem parseComputesParseList : Obligations.ParseComputesParseList := by
  intro s h hp
  obtain ⟨k, acc, hk, hcall, hleft⟩ := parseCall_eq_parseList h
  refine ⟨_, execParse_of_call hp hcall, rfl, hleft, rfl, ?_, rfl⟩
  have hvis : State.visibleBytes { s with
    bc := s.bcAfter k, p := ⟨.idle, acc⟩, res := .parsed (parseList s.visibleBytes).1 } = _ := hleft
  rw [hvis, ← hk]

/-- Settles O43: PARSE and PARSE_AND_FORWARD run one call, whose result the second forwards. -/
theorem parseAndForwardResult : Obligations.ParseAndForwardResult := by
  intro s h hp hpar
  obtain ⟨k, acc, -, hcall, -⟩ := parseCall_eq_parseList h
  have hforward := execParseAndForward_of_call hp hpar hcall
  obtain ⟨u, hu⟩ := forward_next (parseList s.visibleBytes).1
    (s.took k ⟨.idle, acc⟩ (some (parseList s.visibleBytes).1))
  refine ⟨_, u, execParse_of_call hp hcall, hforward.trans hu, fun c hc => ?_, fun herr => ?_⟩
  · rw [hc] at hu
    exact hu
  · rw [herr] at hu
    exact (Host.Outcome.next.inj hu).symm

end Sys2Proof.Machine
end

section
/-! PROOFS. PARSE_STEP, and the wire commands as its runs (41_parser.md R121, R125 to R132): what the parser makes of a
wire command's bytes is computed on the byte list (`runBytes`), and the steps follow it. -/

namespace Sys2Proof.Machine

/-! ## The parser on the bytes of a wire command -/

section

variable {p : Parser} {b : Byte} {st : PState} {acc : BitVec 10}

theorem runBytes_continue (ht : ptrans p.pstate p.acc (some b) = some ⟨st, acc, .continue⟩) (bs : List Byte) :
    runBytes p (b :: bs) = runBytes ⟨st, acc⟩ bs := by
  rw [runBytes, ht]

theorem runBytes_done {res : ParseResult} (ht : ptrans p.pstate p.acc (some b) = some ⟨st, acc, .done res⟩) :
    runBytes p [b] = some (⟨st, acc⟩, some res) := by
  rw [runBytes, ht]
  rfl

theorem runBytes_nil (hp : p.pstate ≠ .idle) : runBytes p [] = some (p, none) := by
  rw [runBytes, if_neg hp]

/-- A byte that ends the attempt, not the call. -/
theorem runBytes_scan_on (ht : ptrans p.pstate p.acc (some b) = some ⟨.scan, acc, .continue⟩) :
    runBytes p [b] = some (⟨.scan, acc⟩, none) := by
  rw [runBytes_continue ht, runBytes_nil PState.noConfusion]

end

/-- The digits of an attempt that is not over. -/
theorem runBytes_digits (c : DigitCommand) (ds : List (BitVec 4)) (more : List Byte) : ∀ (left v : Nat),
    PayloadFits (ds.length + (left + 1)) v → (∀ d ∈ ds, d.toNat ≤ 9) →
    runBytes ⟨c.awaiting (ds.length + (left + 1)), BitVec.ofNat 10 v⟩ (ds.map digitByte ++ more) =
      runBytes ⟨c.awaiting (left + 1), BitVec.ofNat 10 (decimal v ds)⟩ more := by
  induction ds with
  | nil =>
    intro left v _ _
    rw [List.length_nil, Nat.zero_add]
    rfl
  | cons d ds ih =>
    intro left v hv hds
    have hd := hds d List.mem_cons_self
    have hlen : (d :: ds).length + (left + 1) = ds.length + left + 2 := by
      rw [List.length_cons]
      omega
    rw [hlen] at hv ⊢
    have ht := ptrans_awaiting (c := c) hv (isDigit_digitByte d ((digitOk_iff d).mpr hd))
    rw [digitVal_digitByte] at ht
    exact (runBytes_continue ht _).trans (ih left _ (hv.digit hd) fun e he => hds e (List.mem_cons_of_mem _ he))

/-- A prefix and the digits after it, fewer than the payload needs. -/
theorem runBytes_attempt (c : DigitCommand) (acc : BitVec 10) {taken : List (BitVec 4)} (hlen : taken.length ≤ 2)
    (hdigits : ∀ d ∈ taken, d.toNat ≤ 9) (more : List Byte) :
    runBytes ⟨.scan, acc⟩ (attemptBytes c.lead taken ++ more) =
      runBytes ⟨c.awaiting (3 - taken.length), BitVec.ofNat 10 (decimal 0 taken)⟩ more := by
  have h3 : taken.length + (2 - taken.length + 1) = 3 := by omega
  have hrun := runBytes_digits c taken more (2 - taken.length) 0 (by rw [h3]; exact payloadFits_start) hdigits
  rw [h3, show 2 - taken.length + 1 = 3 - taken.length by omega] at hrun
  exact (runBytes_continue (ptrans_scan_lead c acc) _).trans hrun

/-- A whole digit payload (41_parser.md R126, R127). -/
theorem runBytes_whole (c : DigitCommand) (acc : BitVec 10) {d0 d1 d2 : BitVec 4} (h0 : d0.toNat ≤ 9)
    (h1 : d1.toNat ≤ 9) (h2 : d2.toNat ≤ 9) :
    runBytes ⟨.scan, acc⟩ (attemptBytes c.lead [d0, d1, d2]) =
      some (⟨.idle, BitVec.ofNat 10 (digitsValue d0 d1 d2)⟩, some (.ok (c.command (digitsValue d0 d1 d2)))) := by
  have hvalue : digitsValue d0 d1 d2 = decimal 0 [d0, d1] * 10 + digitVal (digitByte d2) := by
    simp only [digitsValue, decimal, List.foldl_cons, List.foldl_nil, digitVal_digitByte]
    omega
  have hv : PayloadFits 1 (decimal 0 [d0, d1]) := (payloadFits_start.digit h0).digit h1
  rw [hvalue]
  exact (runBytes_attempt c acc (taken := [d0, d1]) le_rfl (by simp [h0, h1]) [digitByte d2]).trans
    (runBytes_done (ptrans_awaiting_last hv (isDigit_digitByte d2 ((digitOk_iff d2).mpr h2))))

/-- A digit payload that a byte breaks off (41_parser.md R131). -/
theorem runBytes_malformed (c : DigitCommand) (acc : BitVec 10) {taken : List (BitVec 4)} (hlen : taken.length ≤ 2)
    (hdigits : ∀ d ∈ taken, d.toNat ≤ 9) {bad : Byte} (hbad : isDigit bad = false) :
    runBytes ⟨.scan, acc⟩ (attemptBytes c.lead taken ++ [bad]) =
      some (⟨.scan, BitVec.ofNat 10 (decimal 0 taken)⟩, none) :=
  (runBytes_attempt c acc hlen hdigits [bad]).trans (runBytes_scan_on (ptrans_awaiting_bad c _ _ hbad))

/-- A digit payload that has not ended where the bytes end (41_parser.md R132). -/
theorem runBytes_incomplete (c : DigitCommand) (acc : BitVec 10) {taken : List (BitVec 4)} (hlen : taken.length ≤ 2)
    (hdigits : ∀ d ∈ taken, d.toNat ≤ 9) :
    runBytes ⟨.scan, acc⟩ (attemptBytes c.lead taken) =
      some (⟨c.awaiting (3 - taken.length), BitVec.ofNat 10 (decimal 0 taken)⟩, none) := by
  have hrun := runBytes_attempt c acc hlen hdigits []
  rwa [List.append_nil, runBytes_nil (awaiting_ne_idle c _)] at hrun

/-- `D` waits for its argument; `P.acc` stays. -/
theorem runBytes_dArg (acc : BitVec 10) (bs : List Byte) :
    runBytes ⟨.scan, acc⟩ (leadByte .direction :: bs) = runBytes ⟨.dArg, acc⟩ bs := runBytes_continue rfl bs

/-- A whole direction command (41_parser.md R128 to R130). -/
theorem runBytes_direction (d : Direction) (acc : BitVec 10) :
    runBytes ⟨.scan, acc⟩ [leadByte .direction, directionByte d] =
      some (⟨.idle, acc⟩, some (.ok (.setDirection d))) :=
  (runBytes_dArg acc _).trans (runBytes_done (ptrans_dArg_of_direction (directionOf_directionByte d) acc))

theorem attemptBytes_length (l : Lead) (taken : List (BitVec 4)) : (attemptBytes l taken).length = taken.length + 1 := by
  rw [attemptBytes, List.length_cons, List.length_map]

/-! ## Steps of the block -/

theorem parseSteps_succ_last (k : Nat) (s : State) :
    parseSteps (k + 1) s = andThen (parseSteps k s) execParseStep := by
  induction k generalizing s with
  | zero =>
    show andThen (execParseStep s) Host.Outcome.next = execParseStep s
    cases execParseStep s <;> rfl
  | succ k ih =>
    show andThen (execParseStep s) (parseSteps (k + 1)) = andThen (andThen (execParseStep s) (parseSteps k)) _
    cases execParseStep s with
    | next t => exact ih t
    | fault r => rfl
    | refused r => rfl

section

variable {s : State} (h : s.Inv)

include h

/-- Where a call goes on, no result is in hand. -/
theorem took_none (hp : s.p.pstate = .scan) (k : Nat) (q : Parser) :
    s.took k q none = { s with bc := s.bcAfter k, p := q } := by
  rw [State.took, ← h.resting (by rw [hp]; decide)]

/-- Where the registers are back, only ByteChannel's read side moved. -/
theorem took_scan (hp : s.p.pstate = .scan) (k : Nat) :
    s.took k ⟨.scan, s.p.acc⟩ none = { s with bc := s.bcAfter k } := by
  rw [took_none h hp, ← hp]

/-- A wire command's result, from what the parser makes of its bytes. -/
theorem wireCommand_of_runBytes (hp : s.p.pstate = .scan) {bs rest : List Byte} (hv : s.visibleBytes = bs ++ rest)
    {q : Parser} {r : Option ParseResult} (hr : runBytes ⟨.scan, s.p.acc⟩ bs = some (q, r)) :
    wireCommand bs s = .next (s.took bs.length q r) :=
  wireCommand_run bs rest h hp hv q r (by rw [← hr, ← hp])

/-- An incomplete payload: none of the bytes seen ends the call, and the step after them finds no byte. -/
theorem execIncomplete_of_runBytes (hp : s.p.pstate = .scan) {l : Lead} {taken : List (BitVec 4)}
    (hv : s.visibleBytes = attemptBytes l taken) {q : Parser} (hq : q.pstate ≠ .idle)
    (hr : runBytes ⟨.scan, s.p.acc⟩ (attemptBytes l taken) = some (q, none)) :
    execIncomplete l taken s = .next (s.took (taken.length + 1) ⟨.idle, q.acc⟩ (some .err)) := by
  obtain ⟨hsteps, hinv, hempty⟩ := parseSteps_run (attemptBytes l taken) [] s h (by rw [hv, List.append_nil]) q none
    (by rw [← hr, ← hp])
  rw [execIncomplete, if_neg (not_not.mpr hp), if_pos hv, parseSteps_succ_last, hsteps, andThen_next,
    parseStep_none hinv hq hempty, took_took, attemptBytes_length]
  rfl

section

variable (c : DigitCommand) (hp : s.p.pstate = .scan) {taken : List (BitVec 4)} (hlen : taken.length ≤ 2)
  (hdigits : ∀ d ∈ taken, d.toNat ≤ 9)

include hp hlen hdigits

/-- A digit payload that a byte breaks off: its digits stay in `P.acc`. -/
theorem execMalformed_digits {bad : Byte} {rest : List Byte} (hbad : isDigit bad = false)
    (hv : s.visibleBytes = attemptBytes c.lead taken ++ [bad] ++ rest) :
    execMalformed c.lead taken bad s =
      .next { s with bc := s.bcAfter (taken.length + 2), p := ⟨.scan, BitVec.ofNat 10 (decimal 0 taken)⟩ } := by
  rw [execMalformed, wireCommand_of_runBytes h hp hv (runBytes_malformed c _ hlen hdigits hbad), took_none h hp,
    List.length_append, attemptBytes_length]
  rfl

/-- A digit payload that has not ended where the bytes end. -/
theorem execIncomplete_digits (hv : s.visibleBytes = attemptBytes c.lead taken) :
    execIncomplete c.lead taken s =
      .next (s.took (taken.length + 1) ⟨.idle, BitVec.ofNat 10 (decimal 0 taken)⟩ (some .err)) :=
  execIncomplete_of_runBytes h hp hv (awaiting_ne_idle c _) (runBytes_incomplete c _ hlen hdigits)

end

end

/-- Settles O34: the step on no byte and on a byte. -/
theorem parseStepResult : Obligations.ParseStepResult := by
  refine ⟨fun s hp => if_pos hp, fun s h hp hv => ?_, fun s b bs h hp hv => ?_⟩
  · have hstep := parseStep_none h hp hv
    rwa [State.took, bcAfter_zero h] at hstep
  · obtain ⟨⟨st, acc, out⟩, ht⟩ := ptrans_some s.p.pstate s.p.acc (some b) hp
    obtain ⟨hstep, -, -⟩ := parseStep_some h hv ht
    refine ⟨_, ht, hstep.trans ?_⟩
    cases out <;> rfl

/-- Settles O37: the digit payload of `A`. -/
theorem angleCommandResult : Obligations.AngleCommandResult := fun _ _ _ s _ h hp h0 h1 h2 hv =>
  wireCommand_of_runBytes h hp hv (runBytes_whole .angle s.p.acc h0 h1 h2)

/-- Settles O38: the digit payload of `S`. -/
theorem speedCommandResult : Obligations.SpeedCommandResult := fun _ _ _ s _ h hp h0 h1 h2 hv =>
  wireCommand_of_runBytes h hp hv (runBytes_whole .speed s.p.acc h0 h1 h2)

/-- Settles O39: one run of two bytes for each direction. -/
theorem directionCommandsResult : Obligations.DirectionCommandsResult := fun s _ h hp =>
  ⟨fun hv => wireCommand_of_runBytes h hp hv (runBytes_direction .forward s.p.acc),
    fun hv => wireCommand_of_runBytes h hp hv (runBytes_direction .backward s.p.acc),
    fun hv => wireCommand_of_runBytes h hp hv (runBytes_direction .stop s.p.acc)⟩

/-- Settles O40: the byte's row of the table leaves the registers as they are. -/
theorem skippedByteResult : Obligations.SkippedByteResult := by
  intro b s rest h hp ha hd hs hv
  have hrun := runBytes_scan_on (p := ⟨.scan, s.p.acc⟩) (ptrans_scan_of_no_lead (leadOf_eq_none ha hs hd) s.p.acc)
  exact (wireCommand_of_runBytes h hp (bs := [b]) hv hrun).trans (congrArg Host.Outcome.next (took_scan h hp 1))

/-- Settles O41: a digit payload leaves its digits in `P.acc`, a direction's leaves the registers as they are. -/
theorem malformedPayloadResult : Obligations.MalformedPayloadResult := by
  refine ⟨fun p taken bad s rest h hp hlead hlen hdigits hbad hv => ?_, fun bad s rest h hp hf hb hs hv => ?_⟩
  · have hbad := isDigit_eq_false hbad
    rcases hlead with rfl | rfl
    · exact ⟨_, execMalformed_digits h .angle hp hlen hdigits hbad hv, rfl⟩
    · exact ⟨_, execMalformed_digits h .speed hp hlen hdigits hbad hv, rfl⟩
  · have hrun := (runBytes_dArg s.p.acc [bad]).trans
      (runBytes_scan_on (ptrans_dArg_of_no_direction (directionOf_eq_none hf hb hs) s.p.acc))
    exact (wireCommand_of_runBytes h hp (bs := [leadByte .direction, bad]) hv hrun).trans
      (congrArg Host.Outcome.next (took_scan h hp 2))

/-- Settles O42: the bytes end in a payload state of each prefix. -/
theorem incompletePayloadResult : Obligations.IncompletePayloadResult := by
  intro p taken s h hp hdirection hlen hdigits hv
  cases p with
  | angle => exact ⟨_, execIncomplete_digits h .angle hp hlen hdigits hv, rfl⟩
  | speed => exact ⟨_, execIncomplete_digits h .speed hp hlen hdigits hv, rfl⟩
  | direction =>
    obtain rfl := hdirection rfl
    exact ⟨_, execIncomplete_of_runBytes h hp hv (q := ⟨.dArg, s.p.acc⟩) PState.noConfusion
      ((runBytes_dArg s.p.acc []).trans (runBytes_nil PState.noConfusion)), rfl⟩

end Sys2Proof.Machine
end

section
/-! PROOFS. The step-pulse generator (42_step_pulse.md R150 to R168): what each advance does, by the direction and the
speed, and what a run of ADVANCE_TICK does to the count. -/

namespace Sys2Proof.Machine

/-! ## The direction line -/

/-- The two directions that turn the motor, with the direction pin's level for each (42_step_pulse.md R168). -/
theorem directionLevel_eq_some {d : Direction} {l : Level} :
    directionLevel d = some l ↔ (d = .forward ∧ l = .high) ∨ (d = .backward ∧ l = .low) := by
  cases d <;> cases l <;> decide

theorem exists_directionLevel {d : Direction} (h : d ≠ .stop) : ∃ l, directionLevel d = some l := by
  cases d with
  | forward => exact ⟨.high, rfl⟩
  | backward => exact ⟨.low, rfl⟩
  | stop => exact absurd rfl h

theorem ne_stop_of_directionLevel {d : Direction} {l : Level} (h : directionLevel d = some l) : d ≠ .stop := by
  rintro rfl
  cases h

theorem applyDirection_of_level {s : State} {l : Level} (h : directionLevel s.stp.direction = some l) :
    applyDirection s = s.driveDir l := by
  rw [applyDirection, h]

/-! ## The count and the phase -/

theorem phaseLevel_not (b : Bool) : phaseLevel (!b) = if b then .low else .high := by
  cases b <;> rfl

section

variable {f : U32} {x : Stepper}

theorem tickStepper_of_threshold_le (h : f.toNat / x.speed.toNat ≤ x.elapsedTicks.toNat) :
    tickStepper f x = { x with elapsedTicks := 0, clockLevel := !x.clockLevel } := by
  have hge : x.elapsedTicks ≥ tickThreshold f x.speed := by
    rwa [ge_iff_le, BitVec.le_def, tickThreshold, BitVec.toNat_udiv]
  rw [tickStepper, if_pos hge]

theorem tickStepper_of_lt_threshold (h : x.elapsedTicks.toNat < f.toNat / x.speed.toNat) :
    tickStepper f x = { x with elapsedTicks := x.elapsedTicks + 1 } := by
  have hlt : ¬ x.elapsedTicks ≥ tickThreshold f x.speed := by
    rwa [ge_iff_le, BitVec.le_def, tickThreshold, BitVec.toNat_udiv, not_le]
  rw [tickStepper, if_neg hlt]

/-- The threshold is a number of 32 bits, so a count below it can grow by one (42_step_pulse.md R160). -/
theorem tickStepper_elapsedTicks (f : U32) (x : Stepper) :
    (tickStepper f x).elapsedTicks = 0 ∨ (tickStepper f x).elapsedTicks.toNat = x.elapsedTicks.toNat + 1 := by
  rcases le_or_gt (f.toNat / x.speed.toNat) x.elapsedTicks.toNat with hge | hlt
  · rw [tickStepper_of_threshold_le hge]
    exact .inl rfl
  · rw [tickStepper_of_lt_threshold hlt]
    have hdiv := Nat.div_le_self f.toNat x.speed.toNat
    have hf := f.isLt
    right
    rw [BitVec.toNat_add, Nat.mod_eq_of_lt]
    · rfl
    · show x.elapsedTicks.toNat + 1 < _
      omega

/-- The count of `k` calls, below the threshold. -/
theorem tickStepper_count {k : Nat} (hk : k < f.toNat / x.speed.toNat) :
    tickStepper f { x with elapsedTicks := BitVec.ofNat 32 k } =
      { x with elapsedTicks := BitVec.ofNat 32 (k + 1) } := by
  rw [BitVec.ofNat_add]
  exact tickStepper_of_lt_threshold (lt_of_le_of_lt (Nat.mod_le k _) hk)

/-- The count of as many calls as the threshold says. -/
theorem tickStepper_count_threshold :
    tickStepper f { x with elapsedTicks := BitVec.ofNat 32 (f.toNat / x.speed.toNat) } =
      { x with elapsedTicks := 0, clockLevel := !x.clockLevel } := by
  have hfits : f.toNat / x.speed.toNat < 2 ^ 32 := lt_of_le_of_lt (Nat.div_le_self _ _) f.isLt
  exact tickStepper_of_threshold_le (Nat.mod_eq_of_lt hfits).ge

end

theorem blockingPulse_eq (half : U32) (s : State) :
    blockingPulse half s = { s with
      pin := { s.pin with step := some .low }
      trace := s.trace ++ [.pinWrite .step .high, .wait half, .pinWrite .step .low, .wait half] } := by
  have htrace : (blockingPulse half s).trace =
      s.trace ++ [.pinWrite .step .high, .wait half, .pinWrite .step .low, .wait half] := by
    simp [blockingPulse]
  rw [← htrace]
  rfl

/-! ## The two advances, by direction and speed (42_step_pulse.md R156) -/

section

variable {s : State}

theorem advanceTick_stop (hd : s.stp.direction = .stop) : exec .advanceTick s = .next (s.driveStep .low) := if_pos hd

theorem advanceBlocking_stop (hd : s.stp.direction = .stop) : exec .advanceBlocking s = .next s := if_pos hd

variable {l : Level} (hd : directionLevel s.stp.direction = some l)

include hd

theorem advanceTick_speed_zero (hv : s.stp.speed = 0) : exec .advanceTick s = .next (s.driveDir l) := by
  show execAdvanceTick s = _
  rw [execAdvanceTick, if_neg (ne_stop_of_directionLevel hd), if_pos hv, applyDirection_of_level hd]

theorem advanceTick_moving (hv : s.stp.speed ≠ 0) :
    exec .advanceTick s = .next (((s.driveDir l).withStp (tickStepper s.cfg.tickFrequency s.stp)).driveStep
      (phaseLevel (tickStepper s.cfg.tickFrequency s.stp).clockLevel)) := by
  show execAdvanceTick s = _
  rw [execAdvanceTick, if_neg (ne_stop_of_directionLevel hd), if_neg hv, applyDirection_of_level hd]

theorem advanceBlocking_speed_zero (hv : s.stp.speed = 0) : exec .advanceBlocking s = .next (s.driveDir l) := by
  show execAdvanceBlocking s = _
  rw [execAdvanceBlocking, if_neg (ne_stop_of_directionLevel hd), if_pos hv, applyDirection_of_level hd]

theorem advanceBlocking_moving (hv : s.stp.speed ≠ 0) :
    exec .advanceBlocking s =
      .next (blockingPulse (halfPeriod s.cfg.basePeriod s.stp.speed) (s.driveDir l)) := by
  show execAdvanceBlocking s = _
  rw [execAdvanceBlocking, if_neg (ne_stop_of_directionLevel hd), if_neg hv, applyDirection_of_level hd]

end

/-- What ADVANCE_TICK can do to the registers of STP. -/
theorem advanceTick_stp {s t : State} (h : exec .advanceTick s = .next t) :
    t.stp = s.stp ∨ t.stp = tickStepper s.cfg.tickFrequency s.stp := by
  by_cases hd : s.stp.direction = .stop
  · cases (advanceTick_stop hd).symm.trans h
    exact .inl rfl
  · obtain ⟨l, hl⟩ := exists_directionLevel hd
    by_cases hv : s.stp.speed = 0
    · cases (advanceTick_speed_zero hl hv).symm.trans h
      exact .inl rfl
    · cases (advanceTick_moving hl hv).symm.trans h
      exact .inr rfl

/-! ## A run of ADVANCE_TICK -/

theorem advanceTimes_succ_of_next {k : Nat} {s t : State} (h : advanceTimes k s = .next t) :
    advanceTimes (k + 1) s = exec .advanceTick t := by
  induction k generalizing s with
  | zero =>
    obtain rfl : t = s := (Host.Outcome.next.inj h).symm
    show andThen (exec .advanceTick t) Host.Outcome.next = exec .advanceTick t
    cases exec .advanceTick t <;> rfl
  | succ k ih =>
    obtain ⟨u, hu, hk⟩ := andThen_eq_next h
    rw [advanceTimes, hu, andThen_next, ih hk]

section

variable {s : State} (hd : s.stp.direction ≠ .stop) (hv : s.stp.speed ≠ 0)

include hd hv

/-- A call at non-zero speed: the count and the phase move, the step pin shows the phase. -/
theorem exists_advanceTick_moving :
    ∃ t, exec .advanceTick s = .next t ∧ t.cfg = s.cfg ∧ t.stp = tickStepper s.cfg.tickFrequency s.stp ∧
      t.pin.step = some (phaseLevel t.stp.clockLevel) := by
  obtain ⟨l, hl⟩ := exists_directionLevel hd
  exact ⟨_, advanceTick_moving hl hv, rfl, rfl, rfl⟩

variable (h0 : s.stp.elapsedTicks = 0)

include h0

/-- Up to the threshold the calls only count (42_step_pulse.md R159 (a)). -/
theorem advanceTimes_counts {k : Nat} (hk : k ≤ s.cfg.tickFrequency.toNat / s.stp.speed.toNat) :
    ∃ t, advanceTimes k s = .next t ∧ t.cfg = s.cfg ∧ t.stp = { s.stp with elapsedTicks := BitVec.ofNat 32 k } ∧
      (0 < k → t.pin.step = some (phaseLevel s.stp.clockLevel)) := by
  induction k with
  | zero =>
    exact ⟨s, rfl, rfl, congrArg (fun n => { s.stp with elapsedTicks := n }) h0, fun h => absurd h (lt_irrefl 0)⟩
  | succ k ih =>
    obtain ⟨t, hrun, hcfg, hstp, -⟩ := ih (Nat.le_of_succ_le hk)
    obtain ⟨u, hu, hucfg, hustp, hpin⟩ := exists_advanceTick_moving (s := t) (by rwa [hstp]) (by rwa [hstp])
    have hcount : u.stp = { s.stp with elapsedTicks := BitVec.ofNat 32 (k + 1) } := by
      rw [hustp, hcfg, hstp]
      exact tickStepper_count hk
    exact ⟨u, (advanceTimes_succ_of_next hrun).trans hu, hucfg.trans hcfg, hcount, fun _ => by rw [hpin, hcount]⟩

/-- The call after that resets the count and flips the phase (42_step_pulse.md R159 (b), (d)). -/
theorem advanceTimes_flips :
    ∃ t, advanceTimes (s.cfg.tickFrequency.toNat / s.stp.speed.toNat + 1) s = .next t ∧
      t.stp = { s.stp with clockLevel := !s.stp.clockLevel } ∧
      t.pin.step = some (phaseLevel (!s.stp.clockLevel)) := by
  obtain ⟨t, hrun, hcfg, hstp, -⟩ := advanceTimes_counts hd hv h0 le_rfl
  obtain ⟨u, hu, -, hustp, hpin⟩ := exists_advanceTick_moving (s := t) (by rwa [hstp]) (by rwa [hstp])
  have hflip : u.stp = { s.stp with clockLevel := !s.stp.clockLevel } := by
    rw [hustp, hcfg, hstp]
    exact tickStepper_count_threshold.trans
      (congrArg (fun n => { s.stp with elapsedTicks := n, clockLevel := !s.stp.clockLevel }) h0.symm)
  exact ⟨u, (advanceTimes_succ_of_next hrun).trans hu, hflip, by rw [hpin, hflip]⟩

end

/-! ## The statements -/

/-- Settles O47: the calls up to the threshold count, the next one flips. -/
theorem halfPeriodIsThresholdPlusOne : Obligations.HalfPeriodIsThresholdPlusOne := by
  refine fun s hd hv h0 => ⟨fun k hk => ?_, advanceTimes_flips hd hv h0⟩
  obtain ⟨t, hrun, -, hstp, hpin⟩ := advanceTimes_counts hd hv h0 hk
  exact ⟨t, hrun, hstp, hpin⟩

/-- Settles O49: the count stays, or moves as at non-zero speed. -/
theorem tickCounterNeverWraps : Obligations.TickCounterNeverWraps := by
  intro s t hbound h
  rcases advanceTick_stp h with hstp | hstp
  · rw [hstp]
    exact ⟨hbound, .inr (.inl rfl)⟩
  · rw [hstp]
    exact ⟨tickStepper_bound _ _ hbound, (tickStepper_elapsedTicks _ _).imp_right .inr⟩

/-- Settles O44: both setters write the one register by definition. -/
theorem settersResult : Obligations.SettersResult := fun _ _ _ => ⟨rfl, rfl⟩

/-- Settles O45: by direction, speed, and the count against the threshold. -/
theorem advanceTickResult : Obligations.AdvanceTickResult := by
  refine fun s => ⟨advanceTick_stop, fun l hl => ?_⟩
  have hd := directionLevel_eq_some.mpr hl
  refine ⟨advanceTick_speed_zero hd, fun hv => ⟨fun hge => ?_, fun hlt => ?_⟩⟩
  · rw [advanceTick_moving hd hv, tickStepper_of_threshold_le hge, phaseLevel_not]
    rfl
  · rw [advanceTick_moving hd hv, tickStepper_of_lt_threshold hlt]
    rfl

/-- Settles O46: by direction and speed. -/
theorem advanceBlockingResult : Obligations.AdvanceBlockingResult := by
  refine fun s => ⟨advanceBlocking_stop, fun l hl => ?_⟩
  have hd := directionLevel_eq_some.mpr hl
  refine ⟨advanceBlocking_speed_zero hd, fun hv => ⟨_, BitVec.toNat_udiv, ?_⟩⟩
  rw [advanceBlocking_moving hd hv, blockingPulse_eq, State.driveDir_trace, List.append_assoc]
  rfl

/-- Settles O48: with Stop the tick variant drives the step pin low, with another direction both variants drive the
direction pin only. -/
theorem speedZeroNeverToggles : Obligations.SpeedZeroNeverToggles := by
  intro s hv
  by_cases hd : s.stp.direction = .stop
  · refine ⟨_, _, advanceTick_stop hd, advanceBlocking_stop hd, rfl, rfl, rfl, fun h => absurd hd h,
      fun _ => ⟨rfl, rfl, rfl⟩, fun l hl => ?_⟩
    exact absurd hd (ne_stop_of_directionLevel (directionLevel_eq_some.mpr hl))
  · obtain ⟨l, hl⟩ := exists_directionLevel hd
    refine ⟨_, _, advanceTick_speed_zero hl hv, advanceBlocking_speed_zero hl hv, rfl, rfl, rfl, fun _ => rfl,
      fun h => absurd h hd, fun m hm => ?_⟩
    obtain rfl : l = m := Option.some.inj (hl.symm.trans (directionLevel_eq_some.mpr hm))
    exact ⟨rfl, rfl⟩

/-- Settles O50: each stub's meaning is its fault. -/
theorem stubsFault : Obligations.StubsFault := fun _ _ => ⟨rfl, rfl, rfl⟩

end Sys2Proof.Machine
end

section
/-! PROOFS. The servo angle mapper (43_servo.md R180 to R183): the numbers its 16-bit arithmetic stands for where R181's
inequalities hold, and what its three operations do with them. -/

namespace Sys2Proof.Machine

/-! ## The arithmetic as exact numbers -/

theorem servoFits_iff {dz ma : U16} :
    servoFits dz ma = true ↔ 3 * dz.toNat ≤ 65535 ∧ 2 * dz.toNat / 90 * ma.toNat + dz.toNat ≤ 65535 := by
  rw [servoFits, Bool.and_eq_true, decide_eq_true_iff, decide_eq_true_iff]

theorem servoDutyAt90_toNat {dz : U16} (h : 3 * dz.toNat ≤ 65535) : (servoDutyAt90 dz).toNat = 3 * dz.toNat := by
  rw [servoDutyAt90, BitVec.toNat_ofNat, Nat.mod_eq_of_lt (Nat.lt_succ_of_le h)]

/-- The division by 90 makes the constant fit 16 bits for every pair, valid or not. -/
theorem servoDutyPerDegree_toNat (dz : U16) : (servoDutyPerDegree dz).toNat = 2 * dz.toNat / 90 := by
  have hdz := dz.isLt
  have hsub : 3 * dz.toNat - dz.toNat = 2 * dz.toNat := by omega
  rw [servoDutyPerDegree, hsub, BitVec.toNat_ofNat, Nat.mod_eq_of_lt (by omega)]

theorem clampAngle_of_le {m a : U16} (h : m ≤ a) : clampAngle m a = m := by
  unfold clampAngle
  split
  · rfl
  · next hle => exact BitVec.le_antisymm (BitVec.not_lt.mp hle) h

theorem clampAngle_toNat (m a : U16) : (clampAngle m a).toNat = min a.toNat m.toNat := by
  unfold clampAngle
  split
  · next hlt => exact (Nat.min_eq_right (Nat.le_of_lt hlt)).symm
  · next hle => exact (Nat.min_eq_left (Nat.le_of_not_lt hle)).symm

theorem servoDuty_toNat {k a dz : U16} (h : k.toNat * a.toNat + dz.toNat ≤ 65535) :
    (servoDuty k a dz).toNat = k.toNat * a.toNat + dz.toNat := by
  rw [servoDuty, if_pos h, BitVec.toNat_ofNat, Nat.mod_eq_of_lt (Nat.lt_succ_of_le h)]

/-! ## The duty of an angle -/

/-- Where the duty of the largest angle fits 16 bits, that of every angle does, by the clamp (43_servo.md R181). -/
theorem Servo.duty_toNat {x : Servo} (h : x.dutyPerDegree.toNat * x.maxAngle.toNat + x.dutyAtZero.toNat ≤ 65535)
    (a : U16) :
    (x.duty a).toNat = x.dutyPerDegree.toNat * min a.toNat x.maxAngle.toNat + x.dutyAtZero.toNat := by
  have hclamp : x.dutyPerDegree.toNat * (clampAngle x.maxAngle a).toNat + x.dutyAtZero.toNat ≤ 65535 := by
    rw [clampAngle_toNat]
    exact (Nat.add_le_add_right (Nat.mul_le_mul_left _ (Nat.min_le_right ..)) _).trans h
  rw [Servo.duty, servoDuty_toNat hclamp, clampAngle_toNat]

/-- Every angle from the maximum on has the maximum's duty (43_servo.md R182). -/
theorem Servo.duty_of_maxAngle_le {x : Servo} {a : U16} (h : x.maxAngle ≤ a) : x.duty a = x.duty x.maxAngle := by
  rw [Servo.duty, Servo.duty, clampAngle_of_le h, clampAngle_of_le (BitVec.le_refl _)]

/-! ## The registers under the invariant -/

section

variable {s : State} (h : s.Inv)

include h

theorem State.Inv.dutyPerDegree_toNat : s.srv.dutyPerDegree.toNat = 2 * s.srv.dutyAtZero.toNat / 90 := by
  rw [show s.srv = _ from h.servo]
  exact servoDutyPerDegree_toNat _

theorem State.Inv.dutyAt90_toNat : s.srv.dutyAt90.toNat = 3 * s.srv.dutyAtZero.toNat := by
  rw [show s.srv = _ from h.servo]
  exact servoDutyAt90_toNat (servoFits_iff.mp s.cfg.servo_ok).1

/-- The duty of an angle is exact: the configuration's pair meets R181, and the registers are built from it. -/
theorem State.Inv.duty_toNat (a : U16) :
    (s.srv.duty a).toNat =
      s.srv.dutyPerDegree.toNat * min a.toNat s.srv.maxAngle.toNat + s.srv.dutyAtZero.toNat := by
  refine Servo.duty_toNat ?_ a
  rw [h.dutyPerDegree_toNat, show s.srv = _ from h.servo]
  exact (servoFits_iff.mp s.cfg.servo_ok).2

end

/-! ## SERVO_NEW -/

theorem execServoNew_of_fits {dz ma : U16} {s : State} (hfit : servoFits dz ma = true)
    (hne : ¬(dz = s.cfg.dutyAtZero ∧ ma = s.cfg.maxAngle)) : execServoNew dz ma s = .refused .servoImmutable := by
  rw [execServoNew, if_pos hfit, if_neg hne]

theorem execServoNew_of_not_fits {dz ma : U16} {s : State} (h : ¬servoFits dz ma = true) :
    execServoNew dz ma s = .refused .servoConfigInvalid := by
  rw [execServoNew, if_neg h]

/-! ## The statements -/

/-- Settles O51: the duty is exact under the invariant, and the clamp makes it the maximum's from there on. -/
theorem setAngleResult : Obligations.SetAngleResult := by
  refine ⟨fun a s h => ⟨s.srv.duty a, h.duty_toNat a, rfl⟩, fun a s hle => ?_⟩
  exact congrArg (fun d => Host.Outcome.next (s.driveDuty d)) (Servo.duty_of_maxAngle_le hle)

/-- Settles O53: what the division by 90 in `dutyPerDegree` discards, `dutyAt90` keeps. -/
theorem centerResult : Obligations.CenterResult := by
  refine ⟨fun s => rfl, fun s h => ⟨h.dutyAt90_toNat, fun hmax => ?_⟩⟩
  have hmin : min (90 : U16).toNat s.srv.maxAngle.toNat = 90 := Nat.min_eq_left hmax
  rw [h.dutyAt90_toNat, h.duty_toNat, hmin, h.dutyPerDegree_toNat]
  omega

/-- Settles O54: by whether the operands are the configuration's pair, which fits, and whether other ones fit. -/
theorem servoNewResult : Obligations.ServoNewResult := by
  refine fun dz ma s => ⟨?_, fun ⟨h90, hmax, hne⟩ => ?_, fun hbig => ?_⟩
  · rintro ⟨rfl, rfl⟩
    exact ⟨_, execServoNew_config s, rfl, rfl, servoDutyAt90_toNat (servoFits_iff.mp s.cfg.servo_ok).1,
      servoDutyPerDegree_toNat _⟩
  · exact execServoNew_of_fits (servoFits_iff.mpr ⟨h90, hmax⟩) (not_and_or.mpr hne)
  · refine execServoNew_of_not_fits fun hfit => ?_
    obtain ⟨h90, hmax⟩ := servoFits_iff.mp hfit
    omega

end Sys2Proof.Machine
end

section
/-! PROOFS. Dispatch and the control loop (44_control_loop.md R190 to R192): what the Command word in the loop's hand
does, PULSE by configuration, and that an iteration is its three lines. -/

namespace Sys2Proof.Machine

/-! ## The Command word in the loop's hand -/

theorem commandTurn_of_ok {w : CmdWord} {i : Instr} (hd : decode (.command w) = .ok i) (s : State) :
    commandTurn w s = exec i (s.withCtl .pulse) := by
  rw [commandTurn, hd]

theorem ctlStep_of_dispatch {s : State} {w : CmdWord} (hc : s.ctl = .dispatch w) : ctlStep s = commandTurn w s := by
  rw [ctlStep, hc]

theorem execDispatch_of_command {w : CmdWord} {c : Command} (hc : commandOfWord w = some c) (s : State) :
    execDispatch w s = runCommand c s := by
  rw [execDispatch, hc]

/-- A Command always completes, and does not move the loop. -/
theorem exists_runCommand (c : Command) (s : State) : ∃ t, runCommand c s = .next t ∧ t.ctl = s.ctl := by
  cases c <;> exact ⟨_, rfl, rfl⟩

/-! ## PULSE -/

theorem exists_advanceTick (s : State) : ∃ t, exec .advanceTick s = .next t ∧ t.ctl = s.ctl := by
  by_cases hd : s.stp.direction = .stop
  · exact ⟨_, advanceTick_stop hd, rfl⟩
  · obtain ⟨l, hl⟩ := exists_directionLevel hd
    by_cases hv : s.stp.speed = 0
    · exact ⟨_, advanceTick_speed_zero hl hv, rfl⟩
    · exact ⟨_, advanceTick_moving hl hv, rfl⟩

theorem exists_advanceBlocking (s : State) : ∃ t, exec .advanceBlocking s = .next t ∧ t.ctl = s.ctl := by
  by_cases hd : s.stp.direction = .stop
  · exact ⟨_, advanceBlocking_stop hd, rfl⟩
  · obtain ⟨l, hl⟩ := exists_directionLevel hd
    by_cases hv : s.stp.speed = 0
    · exact ⟨_, advanceBlocking_speed_zero hl hv, rfl⟩
    · exact ⟨_, advanceBlocking_moving hl hv, by rw [blockingPulse_eq]; rfl⟩

section

variable {s : State}

theorem pulse_blocking (hp : s.cfg.pulseVariant = .blocking) : exec .pulse s = exec .advanceBlocking s := by
  show execPulse s = _
  rw [execPulse, hp]
  rfl

variable (hp : s.cfg.pulseVariant = .tick)

include hp

theorem pulse_direct (hd : s.cfg.tickDelivery = .direct) : exec .pulse s = .next s := by
  show execPulse s = _
  rw [execPulse, hp, hd]

variable (hd : s.cfg.tickDelivery = .flag)

include hd

theorem pulse_flag : exec .pulse s = takeAndAdvance s := by
  show execPulse s = _
  rw [execPulse, hp, hd]

theorem pulse_flag_clear (hf : s.flg.tickReady = false) : exec .pulse s = .next { s with res := .flag false } := by
  have hflg : s.flg.put .tickReady false = s.flg := by
    rw [Flags.put, ← hf]
  rw [pulse_flag hp hd, takeAndAdvance, hf, if_neg Bool.false_ne_true, execFlagTake, hflg, Flags.get, hf]
  rfl

theorem pulse_flag_set (hf : s.flg.tickReady = true) :
    exec .pulse s =
      exec .advanceTick { s with flg := { s.flg with tickReady := false }, res := .flag true } := by
  rw [pulse_flag hp hd, takeAndAdvance, hf, if_pos rfl, execFlagTake, andThen_next, Flags.get, hf]
  rfl

end

/-- PULSE always completes, and does not move the loop. -/
theorem exists_pulse (s : State) : ∃ t, exec .pulse s = .next t ∧ t.ctl = s.ctl := by
  cases hp : s.cfg.pulseVariant with
  | blocking => exact pulse_blocking hp ▸ exists_advanceBlocking s
  | tick =>
    cases hd : s.cfg.tickDelivery with
    | direct => exact ⟨s, pulse_direct hp hd, rfl⟩
    | flag =>
      cases hf : s.flg.tickReady with
      | false => exact ⟨_, pulse_flag_clear hp hd hf, rfl⟩
      | true => exact pulse_flag_set hp hd hf ▸ exists_advanceTick _

/-! ## The lines of an iteration -/

theorem State.withCtl_eq_self {s : State} {c : CtlPos} (h : s.ctl = c) : s.withCtl c = s := by
  rw [← h]
  rfl

theorem ctlFinish_of_top (k : Nat) {s : State} (h : s.ctl = .top) : ctlFinish k s = .next s := by
  cases k with
  | zero => rfl
  | succ k => exact if_pos h

section

variable {s t v : State} {w : CmdWord}

/-- With PULSE next, PULSE is all that is left of the iteration. -/
theorem ctlFinish_pulse (k : Nat) (ht : t.ctl = .top) : ctlFinish (k + 1) (t.withCtl .pulse) = exec .pulse t := by
  obtain ⟨u, hu, huctl⟩ := exists_pulse t
  calc ctlFinish (k + 1) (t.withCtl .pulse)
      = andThen (execPulse (t.withCtl .top)) (ctlFinish k) := rfl
    _ = andThen (exec .pulse t) (ctlFinish k) := by rw [State.withCtl_eq_self ht]; rfl
    _ = .next u := by rw [hu, andThen_next, ctlFinish_of_top k (huctl.trans ht)]
    _ = exec .pulse t := hu.symm

/-- With a Command's word in hand, the Command and PULSE are left. -/
theorem ctlFinish_dispatch {c : Command} (k : Nat) (hc : commandOfWord w = some c) (hv : runCommand c t = .next v)
    (htop : v.ctl = .top) : ctlFinish (k + 2) (t.withCtl (.dispatch w)) = exec .pulse v := by
  calc ctlFinish (k + 2) (t.withCtl (.dispatch w))
      = andThen (execDispatch w (t.withCtl .pulse)) (ctlFinish (k + 1)) := rfl
    _ = ctlFinish (k + 1) (v.withCtl .pulse) := by
      rw [execDispatch_of_command hc, runCommand_withCtl, hv]
      rfl
    _ = exec .pulse v := ctlFinish_pulse k htop

theorem ctlDequeue_of_none (hdeq : execCcDeq s = .next t) (hres : t.res = .command none) :
    ctlDequeue s = .next (t.withCtl .pulse) := by
  rw [ctlDequeue, hdeq, andThen_next, hres]

theorem ctlDequeue_of_some (hdeq : execCcDeq s = .next t) (hres : t.res = .command (some w)) :
    ctlDequeue s = .next (t.withCtl (.dispatch w)) := by
  rw [ctlDequeue, hdeq, andThen_next, hres]

/-- From the top an iteration is its dequeue line and what that leaves to do. -/
theorem controlIter_of_ctlDequeue (htop : s.ctl = .top) (hdeq : ctlDequeue s = .next t) :
    exec .controlIter s = ctlFinish 2 t := by
  show execControlIter s = _
  rw [execControlIter, if_pos htop, ctlTurn, htop]
  show andThen (ctlDequeue s) _ = _
  rw [hdeq, andThen_next]

end

/-! ## The statements -/

/-- Settles O9: the step is the control loop's turn, with a word in hand. -/
theorem stepRunsCommandWordInHand : Obligations.StepRunsCommandWordInHand := by
  intro s rest w i hs hc hd
  have hstep : ctlStep (s.withSched rest) = commandTurn w (s.withSched rest) := ctlStep_of_dispatch hc
  exact (step_cons hs).trans (hstep.trans (commandTurn_of_ok hd _))

/-- Settles O55: each word decodes to its Command, whose effect is its setter's. -/
theorem dispatchResult : Obligations.DispatchResult := by
  have hdispatch : ∀ (c : Command) (s : State), exec (.dispatch (wordOfCommand c)) s = runCommand c s :=
    fun c => execDispatch_of_command (commandOfWord_wordOfCommand c)
  exact fun v d a s => ⟨hdispatch (.setSpeed v) s, rfl, hdispatch (.setDirection d) s, rfl,
    hdispatch (.setServoAngle a) s, rfl⟩

/-- Settles O56: by variant, delivery and flag. -/
theorem pulseResult : Obligations.PulseResult := fun s =>
  ⟨pulse_blocking, pulse_direct, pulse_flag_clear, pulse_flag_set, (exists_pulse s).imp fun _ h => h.1⟩

/-- Settles O57: by what the dequeue line took; a word it took is well-formed under the invariant. -/
theorem controlIterResult : Obligations.ControlIterResult := by
  intro s h htop
  rcases execCcDeq_cases s h with ⟨-, hdeq⟩ | ⟨w, r, -, -, hw, -, hdeq⟩
  · obtain ⟨u, hu, -⟩ := exists_pulse (s.withRes (.command none))
    have hiter := (controlIter_of_ctlDequeue htop (ctlDequeue_of_none hdeq rfl)).trans (ctlFinish_pulse 1 htop)
    exact ⟨_, u, hdeq, hiter.trans hu, fun _ => hu, nofun⟩
  · obtain ⟨c, hc⟩ := Option.isSome_iff_exists.mp hw
    obtain ⟨v, hv, hvctl⟩ := exists_runCommand c ((s.withCc r).withRes (.command (some w)))
    obtain ⟨u, hu, -⟩ := exists_pulse v
    have hiter := (controlIter_of_ctlDequeue htop (ctlDequeue_of_some hdeq rfl)).trans
      (ctlFinish_dispatch 0 hc hv (hvctl.trans htop))
    refine ⟨_, u, hdeq, hiter.trans hu, nofun, ?_⟩
    rintro w' ⟨⟩
    exact ⟨v, (execDispatch_of_command hc _).trans hv, hu⟩

end Sys2Proof.Machine
end

section
/-! PROOFS. The event context (60_exceptions.md R208 to R213): each line of RX_EVENT, the event run whole, and
TICK_EVENT by configuration. -/

namespace Sys2Proof.Machine

variable {s : State}

theorem State.withEvt_withRx_eq_self (hevt : s.evt = .waiting) (hrx : s.rx = []) :
    { s with evt := .waiting, rx := [] } = s := by
  rw [← hevt, ← hrx]

/-! ## The lines of RX_EVENT -/

theorem echoByte_eq (b : Byte) (s : State) :
    echoByte b s = { s with trace := s.trace ++ (if s.cfg.echo then [.serialWrite [b]] else []) } := by
  unfold echoByte
  split
  · rfl
  · rw [List.append_nil]

theorem evtTurn_waiting_nil (hevt : s.evt = .waiting) (hrx : s.rx = []) : evtTurn s = .next s := by
  rw [evtTurn, hevt, hrx]

theorem evtTurn_waiting_cons {b : Byte} {bs : List Byte} (hevt : s.evt = .waiting) (hrx : s.rx = b :: bs) :
    evtTurn s = .next { s with
      rx := bs
      evt := .enqueue b
      trace := s.trace ++ (if s.cfg.echo then [.serialWrite [b]] else []) } := by
  rw [evtTurn, hevt, hrx]
  dsimp only
  rw [echoByte_eq]
  rfl

/-! ## RX_EVENT run whole -/

theorem rxEvent_busy (b : Byte) (hbusy : s.evt ≠ .waiting ∨ s.rx ≠ []) :
    exec (.rxEvent b) s = .next (raiseByte b s) :=
  if_neg fun ⟨hevt, hrx⟩ => hbusy.elim (absurd hevt) (absurd hrx)

/-- Where the event context rests, RX_EVENT is its three lines. -/
theorem rxEvent_resting (b : Byte) (hevt : s.evt = .waiting) (hrx : s.rx = []) :
    exec (.rxEvent b) s = andThen (andThen (evtTurn (raiseByte b s)) evtTurn) evtTurn :=
  if_pos ⟨hevt, hrx⟩

/-- The flag line follows the enqueue line, whatever this answers; the event context rests again. -/
theorem rxEvent_of_enqueue {b : Byte} {t : State} (hevt : s.evt = .waiting) (hrx : s.rx = [])
    (henq : execBcEnq b { s with
      rx := []
      evt := .setFlag
      trace := s.trace ++ (if s.cfg.echo then [.serialWrite [b]] else []) } = .next t) (ht : t.evt = .setFlag) :
    exec (.rxEvent b) s = .next { t with evt := .waiting, flg := { t.flg with dataReady := true } } := by
  have hecho := evtTurn_waiting_cons (s := raiseByte b s) (b := b) (bs := []) hevt (congrArg (· ++ [b]) hrx)
  rw [rxEvent_resting b hevt hrx, hecho, andThen_next, evtTurn_enqueue rfl]
  refine Eq.trans (congrArg (andThen · evtTurn) henq) ?_
  rw [andThen_next, evtTurn_setFlag ht]
  rfl

theorem rxEvent_seen_full {b : Byte} (hevt : s.evt = .waiting) (hrx : s.rx = [])
    (hf : ptrSub s.nBc s.bc.tail s.bc.headSync = s.nBc) :
    exec (.rxEvent b) s = .next { s with
      trace := s.trace ++ (if s.cfg.echo then [.serialWrite [b]] else []) ++ [.dropByte b]
      res := .rejectedByte b
      flg := { s.flg with dataReady := true } } := by
  rw [rxEvent_of_enqueue hevt hrx (execBcEnq_of_seen_full hf) rfl]
  conv_rhs => rw [← State.withEvt_withRx_eq_self hevt hrx]
  rfl

theorem rxEvent_not_seen_full {b : Byte} (hevt : s.evt = .waiting) (hrx : s.rx = [])
    (hf : ptrSub s.nBc s.bc.tail s.bc.headSync ≠ s.nBc) :
    exec (.rxEvent b) s = .next { s with
      bc := s.bcWith b
      trace := s.trace ++ (if s.cfg.echo then [.serialWrite [b]] else [])
      res := .accepted
      flg := { s.flg with dataReady := true } } := by
  rw [rxEvent_of_enqueue hevt hrx (execBcEnq_of_enq (enq_bcWith hf)) rfl]
  conv_rhs => rw [← State.withEvt_withRx_eq_self hevt hrx]
  rfl

/-! ## TICK_EVENT -/

theorem tickEvent_tick (hp : s.cfg.pulseVariant = .tick) : exec .tickEvent s = tickHandler s := by
  show execTickEvent s = _
  rw [execTickEvent, hp]

theorem tickEvent_blocking (hp : s.cfg.pulseVariant = .blocking) : exec .tickEvent s = .refused .noTickSource := by
  show execTickEvent s = _
  rw [execTickEvent, hp]

theorem tickHandler_flag (hd : s.cfg.tickDelivery = .flag) :
    tickHandler s = .next { s with flg := { s.flg with tickReady := true } } := by
  rw [tickHandler, hd]
  rfl

theorem tickHandler_direct (hd : s.cfg.tickDelivery = .direct) : tickHandler s = exec .advanceTick s := by
  rw [tickHandler, hd]
  rfl

/-! ## The statements -/

/-- Settles O58: by whether the event context rests and ByteChannel is seen full, and by the line it stands at. -/
theorem rxEventResult : Obligations.RxEventResult := fun b _ =>
  ⟨fun ⟨hevt, hrx⟩ => ⟨rxEvent_seen_full hevt hrx, rxEvent_not_seen_full hevt hrx⟩, rxEvent_busy b,
    fun _ hs => step_cons hs, fun _ => evtTurn_waiting_cons, evtTurn_enqueue, evtTurn_setFlag,
    fun ⟨hevt, hrx⟩ => evtTurn_waiting_nil hevt hrx⟩

/-- Settles O59: by variant and delivery. -/
theorem tickEventResult : Obligations.TickEventResult := by
  refine fun s => ⟨fun hp hd => (tickEvent_tick hp).trans (tickHandler_flag hd), fun hp hd => ?_, tickEvent_blocking⟩
  have hadvance := (tickEvent_tick hp).trans (tickHandler_direct hd)
  exact ⟨hadvance, (exists_advanceTick s).imp fun _ h => hadvance.trans h.1⟩

end Sys2Proof.Machine
end

section
/-! PROOFS. The agents' own atomic steps (60_exceptions.md R221) complete from every state with the invariant: the
dequeues find a value in their slot, the parser's table has a row, and the word in the loop's hand is a Command's. -/

namespace Sys2Proof.Machine

theorem exists_execBcEnq (b : Byte) (s : State) : ∃ t, execBcEnq b s = .next t := by
  unfold execBcEnq
  split <;> exact ⟨_, rfl⟩

theorem exists_evtTurn (s : State) : ∃ t, evtTurn s = .next t := by
  cases hevt : s.evt with
  | waiting =>
    cases hrx : s.rx with
    | nil => exact ⟨_, evtTurn_waiting_nil hevt hrx⟩
    | cons b bs => exact ⟨_, evtTurn_waiting_cons hevt hrx⟩
  | enqueue b => exact evtTurn_enqueue hevt ▸ exists_execBcEnq b _
  | setFlag => exact ⟨_, evtTurn_setFlag hevt⟩

theorem exists_parseOn (r : Option Byte) {s : State} (hp : s.p.pstate ≠ .idle) : ∃ t, parseOn r s = .next t := by
  obtain ⟨row, hrow⟩ := ptrans_some s.p.pstate s.p.acc r hp
  exact ⟨_, by rw [parseOn, hrow]⟩

section

variable {s : State}

theorem parTurn_of_result {r : ParseResult} (hr : s.par = some r) : parTurn s = forward r s := by
  rw [parTurn, hr]

theorem parTurn_idle (hr : s.par = none) (hp : s.p.pstate = .idle) : parTurn s = .next (startCall s) := by
  rw [parTurn, hr]
  exact if_pos hp

theorem parTurn_in_call (hr : s.par = none) (hp : s.p.pstate ≠ .idle) : parTurn s = execParseStep s := by
  rw [parTurn, hr]
  exact if_neg hp

variable (h : s.Inv)

include h

theorem exists_execParseStep (hp : s.p.pstate ≠ .idle) : ∃ t, execParseStep s = .next t := by
  rcases execParseStep_cases s h hp with ⟨-, -, e⟩ | ⟨b, r, -, -, -, -, e⟩
  · exact e ▸ exists_parseOn none hp
  · exact e ▸ exists_parseOn (some b) (s := s.withBc r) hp

theorem exists_parTurn : ∃ t, parTurn s = .next t := by
  cases hr : s.par with
  | some r => exact parTurn_of_result hr ▸ forward_next r s
  | none =>
    by_cases hp : s.p.pstate = .idle
    · exact ⟨_, parTurn_idle hr hp⟩
    · exact parTurn_in_call hr hp ▸ exists_execParseStep h hp

theorem exists_ctlDequeue : ∃ t, ctlDequeue s = .next t := by
  rcases execCcDeq_cases s h with ⟨-, hdeq⟩ | ⟨w, r, -, -, -, -, hdeq⟩
  · exact ⟨_, ctlDequeue_of_none hdeq rfl⟩
  · exact ⟨_, ctlDequeue_of_some hdeq rfl⟩

theorem exists_ctlTurn : ∃ t, ctlTurn s = .next t := by
  unfold ctlTurn
  split
  · exact exists_ctlDequeue h
  · rename_i w hw
    obtain ⟨c, hc⟩ := Option.isSome_iff_exists.mp (h.ctlWord w hw)
    exact execDispatch_of_command hc _ ▸ (exists_runCommand c _).imp fun _ hrun => hrun.1
  · exact (exists_pulse _).imp fun _ hpulse => hpulse.1

end

/-- Settles O14: each agent by the line it stands at. -/
theorem agentStepsAlwaysComplete : Obligations.AgentStepsAlwaysComplete := fun s h =>
  ⟨exists_evtTurn s, exists_parTurn h, ctlStep_eq_ctlTurn s ▸ exists_ctlTurn h⟩

end Sys2Proof.Machine
end

section
/-! PROOFS. The ownership table of 60_exceptions.md R220: what one atomic step of each agent can write, said once for
each meaning that the agents' steps share. -/

namespace Sys2Proof.Machine

theorem isExact_of_lagged {c : Config} (hc : c.syncMode = .lagged) : c.isExact = false := by
  rw [Config.isExact, hc]
  rfl

/-! ## The ends of a channel -/

section

variable {α : Type} {n : Nat} {exact : Bool} {x : α} {r r' : Ring α}

/-- An enqueue writes the producer's side (20_memory.md R41); the tail's copy, in `exact` mode only (R49). -/
theorem Ring.enq_writes (he : r.enq n exact x = some r') :
    r' = { r with mem := r'.mem, tail := r'.tail, tailSync := r'.tailSync } ∧
      (exact = false → r'.tailSync = r.tailSync) := by
  obtain ⟨-, rfl⟩ := Ring.enq_some exact x he
  exact ⟨rfl, fun hx => by rw [hx]; rfl⟩

/-- A dequeue writes the consumer's side (20_memory.md R41); the head's copy, in `exact` mode only (R49). -/
theorem Ring.deq_writes (hd : r.deq n exact = .item x r') :
    r' = { r with head := r'.head, headSync := r'.headSync } ∧ (exact = false → r'.headSync = r.headSync) := by
  obtain ⟨-, -, rfl⟩ := Ring.deq_item exact x hd
  exact ⟨rfl, fun hx => by rw [hx]; rfl⟩

end

section

variable {s t : State}

/-! ## The enqueues and the loop's dequeue -/

theorem execBcEnq_writes {b : Byte} (h : execBcEnq b s = .next t) :
    t = { s with
      bc := { s.bc with mem := t.bc.mem, tail := t.bc.tail, tailSync := t.bc.tailSync }
      trace := t.trace
      res := t.res } ∧
    (s.cfg.syncMode = .lagged → t.bc.tailSync = s.bc.tailSync) := by
  unfold execBcEnq at h
  split at h
  · cases h
    exact ⟨rfl, fun _ => rfl⟩
  · rename_i r he
    obtain ⟨hr, hlag⟩ := Ring.enq_writes he
    cases h
    exact ⟨congrArg (fun q => (s.withBc q).withRes .accepted) hr, fun hm => hlag (isExact_of_lagged hm)⟩

theorem execCcEnq_writes {w : CmdWord} (h : execCcEnq w s = .next t) :
    t = { s with
      cc := { s.cc with mem := t.cc.mem, tail := t.cc.tail, tailSync := t.cc.tailSync }
      trace := t.trace
      res := t.res } ∧
    (s.cfg.syncMode = .lagged → t.cc.tailSync = s.cc.tailSync) := by
  unfold execCcEnq at h
  split at h
  · cases h
    exact ⟨rfl, fun _ => rfl⟩
  · rename_i r he
    obtain ⟨hr, hlag⟩ := Ring.enq_writes he
    cases h
    exact ⟨congrArg (fun q => (s.withCc q).withRes .accepted) hr, fun hm => hlag (isExact_of_lagged hm)⟩

theorem execCcDeq_writes (h : execCcDeq s = .next t) :
    t = { s with cc := { s.cc with head := t.cc.head, headSync := t.cc.headSync }, res := t.res } ∧
      (s.cfg.syncMode = .lagged → t.cc.headSync = s.cc.headSync) := by
  unfold execCcDeq at h
  split at h
  · cases h
    exact ⟨rfl, fun _ => rfl⟩
  · rename_i w r hd
    obtain ⟨hr, hlag⟩ := Ring.deq_writes hd
    cases h
    exact ⟨congrArg (fun q => (s.withCc q).withRes (.command (some w))) hr, fun hm => hlag (isExact_of_lagged hm)⟩
  · cases h

/-! ## The parsing side -/

theorem parseOn_writes {r : Option Byte} (h : parseOn r s = .next t) : t = { s with p := t.p, par := t.par } := by
  unfold parseOn applyTransition at h
  split at h
  · cases h
    split <;> rfl
  · cases h

theorem execParseStep_writes (h : execParseStep s = .next t) :
    t = { s with
      bc := { s.bc with head := t.bc.head, headSync := t.bc.headSync }
      p := t.p
      par := t.par } ∧
    (s.cfg.syncMode = .lagged → t.bc.headSync = s.bc.headSync) := by
  unfold execParseStep at h
  split at h
  · cases h
  · split at h
    · have ht := parseOn_writes h
      rw [ht]
      exact ⟨rfl, fun _ => rfl⟩
    · rename_i b r hd
      obtain ⟨hr, hlag⟩ := Ring.deq_writes hd
      have ht := parseOn_writes h
      rw [ht]
      exact ⟨congrArg (fun q => { s with bc := q, p := t.p, par := t.par }) hr, fun hm => hlag (isExact_of_lagged hm)⟩
    · cases h

/-- What a step of the parsing side can write. -/
structure State.ParserWrites (s t : State) : Prop where
  frame : t = { s with
    bc := { s.bc with head := t.bc.head, headSync := t.bc.headSync }
    p := t.p
    cc := { s.cc with mem := t.cc.mem, tail := t.cc.tail, tailSync := t.cc.tailSync }
    trace := t.trace
    par := t.par
    res := t.res }
  copies : s.cfg.syncMode = .lagged → t.bc.headSync = s.bc.headSync ∧ t.cc.tailSync = s.cc.tailSync

theorem forward_writes {r : ParseResult} (h : forward r s = .next t) : s.ParserWrites t := by
  cases r with
  | ok c =>
    obtain ⟨ht, hlag⟩ := execCcEnq_writes (s := s.withPar none) h
    exact ⟨by rw [ht]; rfl, fun hm => ⟨by rw [ht]; rfl, hlag hm⟩⟩
  | err =>
    cases h
    exact ⟨rfl, fun _ => ⟨rfl, rfl⟩⟩

theorem parTurn_writes (h : parTurn s = .next t) : s.ParserWrites t := by
  unfold parTurn at h
  split at h
  · exact forward_writes h
  · split at h
    · cases h
      exact ⟨rfl, fun _ => ⟨rfl, rfl⟩⟩
    · obtain ⟨ht, hlag⟩ := execParseStep_writes h
      exact ⟨by rw [ht], fun hm => ⟨hlag hm, by rw [ht]⟩⟩


/-! ## The event context and the tick -/

/-- What a step of the event context can write. -/
structure State.EventWrites (s t : State) : Prop where
  frame : t = { s with
    bc := { s.bc with mem := t.bc.mem, tail := t.bc.tail, tailSync := t.bc.tailSync }
    flg := { s.flg with dataReady := t.flg.dataReady }
    trace := t.trace
    evt := t.evt
    rx := t.rx
    res := t.res }
  flagStays : s.flg.dataReady = true → t.flg.dataReady = true
  takesOldest : t.rx = s.rx ∨ ∃ b, s.rx = b :: t.rx
  copies : s.cfg.syncMode = .lagged → t.bc.tailSync = s.bc.tailSync

theorem evtTurn_writes (h : evtTurn s = .next t) : s.EventWrites t := by
  cases hevt : s.evt with
  | waiting =>
    cases hrx : s.rx with
    | nil =>
      cases (evtTurn_waiting_nil hevt hrx).symm.trans h
      exact ⟨rfl, id, .inl rfl, fun _ => rfl⟩
    | cons b bs =>
      cases (evtTurn_waiting_cons hevt hrx).symm.trans h
      exact ⟨rfl, id, .inr ⟨b, hrx⟩, fun _ => rfl⟩
  | enqueue b =>
    obtain ⟨ht, hlag⟩ := execBcEnq_writes ((evtTurn_enqueue hevt).symm.trans h)
    rw [ht]
    exact ⟨rfl, id, .inl rfl, hlag⟩
  | setFlag =>
    cases (evtTurn_setFlag hevt).symm.trans h
    exact ⟨rfl, fun _ => rfl, .inl rfl, fun _ => rfl⟩

theorem advanceTick_writes (h : exec .advanceTick s = .next t) :
    t = { s with
      stp := { s.stp with clockLevel := t.stp.clockLevel, elapsedTicks := t.stp.elapsedTicks }
      pin := t.pin
      trace := t.trace } := by
  by_cases hd : s.stp.direction = .stop
  · cases (advanceTick_stop hd).symm.trans h
    rfl
  · obtain ⟨l, hl⟩ := exists_directionLevel hd
    by_cases hv : s.stp.speed = 0
    · cases (advanceTick_speed_zero hl hv).symm.trans h
      rfl
    · cases (advanceTick_moving hl hv).symm.trans h
      unfold tickStepper
      split <;> rfl

theorem tickEvent_writes (h : exec .tickEvent s = .next t) :
    (s.cfg.tickDelivery = .flag → t = { s with flg := { s.flg with tickReady := true } }) ∧
      (s.cfg.tickDelivery = .direct → exec .advanceTick s = .next t) := by
  cases hp : s.cfg.pulseVariant with
  | blocking => cases (tickEvent_blocking hp).symm.trans h
  | tick =>
    rw [tickEvent_tick hp] at h
    exact ⟨fun hd => Host.Outcome.next.inj (h.symm.trans (tickHandler_flag hd)),
      fun hd => (tickHandler_direct hd).symm.trans h⟩

/-! ## The control loop -/

theorem advanceBlocking_writes (h : exec .advanceBlocking s = .next t) :
    t = { s with pin := t.pin, trace := t.trace } := by
  by_cases hd : s.stp.direction = .stop
  · cases (advanceBlocking_stop hd).symm.trans h
    rfl
  · obtain ⟨l, hl⟩ := exists_directionLevel hd
    by_cases hv : s.stp.speed = 0
    · cases (advanceBlocking_speed_zero hl hv).symm.trans h
      rfl
    · rw [advanceBlocking_moving hl hv, blockingPulse_eq] at h
      cases h
      rfl

/-- What a step of the control loop can write. -/
structure State.ControlWrites (s t : State) : Prop where
  frame : t = { s with
    cc := { s.cc with head := t.cc.head, headSync := t.cc.headSync }
    stp := t.stp
    pin := t.pin
    pwm := t.pwm
    flg := { s.flg with tickReady := t.flg.tickReady }
    trace := t.trace
    ctl := t.ctl
    res := t.res }
  copies : s.cfg.syncMode = .lagged → t.cc.headSync = s.cc.headSync

theorem ctlDequeue_writes (h : ctlDequeue s = .next t) : s.ControlWrites t := by
  obtain ⟨u, hdeq, hnext⟩ := andThen_eq_next h
  obtain ⟨hu, hlag⟩ := execCcDeq_writes hdeq
  split at hnext <;> cases hnext <;> exact ⟨by rw [hu]; rfl, hlag⟩

theorem runCommand_writes {c : Command} (h : runCommand c s = .next t) : s.ControlWrites t := by
  cases c <;> cases h <;> exact ⟨rfl, fun _ => rfl⟩

theorem pulse_writes (h : exec .pulse s = .next t) : s.ControlWrites t := by
  cases hp : s.cfg.pulseVariant with
  | blocking =>
    rw [advanceBlocking_writes ((pulse_blocking hp).symm.trans h)]
    exact ⟨rfl, fun _ => rfl⟩
  | tick =>
    cases hd : s.cfg.tickDelivery with
    | direct =>
      cases (pulse_direct hp hd).symm.trans h
      exact ⟨rfl, fun _ => rfl⟩
    | flag =>
      cases hf : s.flg.tickReady with
      | false =>
        cases (pulse_flag_clear hp hd hf).symm.trans h
        exact ⟨rfl, fun _ => rfl⟩
      | true =>
        rw [advanceTick_writes ((pulse_flag_set hp hd hf).symm.trans h)]
        exact ⟨rfl, fun _ => rfl⟩

/-- The loop's position is its own register. -/
theorem State.ControlWrites.of_withCtl {x : CtlPos} (h : (s.withCtl x).ControlWrites t) : s.ControlWrites t :=
  ⟨h.frame, h.copies⟩

theorem ctlTurn_writes (h : ctlTurn s = .next t) : s.ControlWrites t := by
  unfold ctlTurn at h
  split at h
  · exact ctlDequeue_writes h
  · unfold execDispatch at h
    split at h
    · exact (runCommand_writes h).of_withCtl
    · cases h
  · exact (pulse_writes h).of_withCtl

end

/-! ## The synchroniser -/

/-- A choice that is taken in its range and refused outside it, where it was taken, was taken as in its range. -/
theorem eq_of_taken_choice {n v a b : Nat} {o : Result} {r : Refusal} {t u : State}
    (hin : v < n ∧ a ≤ b → o = .next u) (hout : n ≤ v ∨ b < a → o = .refused r) (h : o = .next t) : t = u := by
  by_cases hv : v < n ∧ a ≤ b
  · exact Host.Outcome.next.inj (h.symm.trans (hin hv))
  · cases h.symm.trans (hout (by omega))

/-- Settles O17: agent by agent, and the synchroniser by the copy it names. -/
theorem agentsWriteOnlyTheirRegisters : Obligations.AgentsWriteOnlyTheirRegisters := by
  refine ⟨fun s t h => ?_, fun s t h => ?_, fun s t h => ?_, fun s t h => ?_, fun s t v => ?_⟩
  · obtain ⟨hframe, hflag, hrx, hlag⟩ := evtTurn_writes h
    exact ⟨hframe, hflag, hrx, hlag⟩
  · obtain ⟨hflag, hdirect⟩ := tickEvent_writes h
    exact ⟨hflag, fun hd => advanceTick_writes (hdirect hd)⟩
  · obtain ⟨hframe, hlag⟩ := parTurn_writes h
    exact ⟨hframe, hlag⟩
  · obtain ⟨hframe, hlag⟩ := ctlTurn_writes ((ctlStep_eq_ctlTurn s).symm.trans h)
    exact ⟨hframe, hlag⟩
  · obtain ⟨bcTail, bcHead, ccTail, ccHead, bcTail', bcHead', ccTail', ccHead'⟩ := synchroniserStepResult s v
    exact ⟨fun h => by rw [eq_of_taken_choice bcTail bcTail' h], fun h => by rw [eq_of_taken_choice bcHead bcHead' h],
      fun h => by rw [eq_of_taken_choice ccTail ccTail' h], fun h => by rw [eq_of_taken_choice ccHead ccHead' h]⟩

end Sys2Proof.Machine
end

section
/-! PROOFS. An agent's program run whole (60_exceptions.md R208, R221) is a run of the agent's own turns: the agents'
steps do not read the schedule, so turns of one agent follow each other as its steps do. -/

namespace Sys2Proof.Machine

variable {s t u : State} {τ : Turn} {rest : List Turn}

/-! ## The control loop does not read the schedule -/

theorem andThen_withSched {f : State → Result} {o : Result} (x : List Turn)
    (hf : ∀ u : State, f (u.withSched x) = (f u).map (·.withSched x)) :
    andThen (o.map (·.withSched x)) f = (andThen o f).map (·.withSched x) := by
  cases o with
  | next u => exact hf u
  | fault r => rfl
  | refused r => rfl

theorem execAdvanceTick_withSched (s : State) (x : List Turn) :
    execAdvanceTick (s.withSched x) = (execAdvanceTick s).map (·.withSched x) := by
  show exec .advanceTick (s.withSched x) = Result.map _ (exec .advanceTick s)
  by_cases hd : s.stp.direction = .stop
  · rw [advanceTick_stop hd, advanceTick_stop (s := s.withSched x) hd]
    rfl
  · obtain ⟨l, hl⟩ := exists_directionLevel hd
    by_cases hv : s.stp.speed = 0
    · rw [advanceTick_speed_zero hl hv, advanceTick_speed_zero (s := s.withSched x) hl hv]
      rfl
    · rw [advanceTick_moving hl hv, advanceTick_moving (s := s.withSched x) hl hv]
      rfl

theorem execAdvanceBlocking_withSched (s : State) (x : List Turn) :
    execAdvanceBlocking (s.withSched x) = (execAdvanceBlocking s).map (·.withSched x) := by
  show exec .advanceBlocking (s.withSched x) = Result.map _ (exec .advanceBlocking s)
  by_cases hd : s.stp.direction = .stop
  · rw [advanceBlocking_stop hd, advanceBlocking_stop (s := s.withSched x) hd]
    rfl
  · obtain ⟨l, hl⟩ := exists_directionLevel hd
    by_cases hv : s.stp.speed = 0
    · rw [advanceBlocking_speed_zero hl hv, advanceBlocking_speed_zero (s := s.withSched x) hl hv]
      rfl
    · rw [advanceBlocking_moving hl hv, advanceBlocking_moving (s := s.withSched x) hl hv]
      rfl

theorem takeAndAdvance_withSched (s : State) (x : List Turn) :
    takeAndAdvance (s.withSched x) = (takeAndAdvance s).map (·.withSched x) := by
  unfold takeAndAdvance
  rw [State.withSched_flg]
  split
  · exact execAdvanceTick_withSched ((s.withFlg _).withRes _) x
  · rfl

theorem execPulse_withSched (s : State) (x : List Turn) :
    execPulse (s.withSched x) = (execPulse s).map (·.withSched x) := by
  unfold execPulse
  rw [State.withSched_cfg]
  split
  · exact execAdvanceBlocking_withSched s x
  · split
    · exact takeAndAdvance_withSched s x
    · rfl

theorem execDispatch_withSched (w : CmdWord) (s : State) (x : List Turn) :
    execDispatch w (s.withSched x) = (execDispatch w s).map (·.withSched x) := by
  unfold execDispatch
  split
  · rename_i c _
    cases c <;> rfl
  · rfl

theorem execCcDeq_withSched (s : State) (x : List Turn) :
    execCcDeq (s.withSched x) = (execCcDeq s).map (·.withSched x) := by
  unfold execCcDeq
  rw [State.withSched_cc, State.withSched_nCc, State.withSched_cfg]
  split <;> rfl

theorem ctlDequeue_withSched (s : State) (x : List Turn) :
    ctlDequeue (s.withSched x) = (ctlDequeue s).map (·.withSched x) := by
  unfold ctlDequeue
  rw [execCcDeq_withSched]
  refine andThen_withSched x fun u => ?_
  rw [State.withSched_res]
  split <;> rfl

theorem ctlTurn_withSched (s : State) (x : List Turn) : ctlTurn (s.withSched x) = (ctlTurn s).map (·.withSched x) := by
  unfold ctlTurn
  rw [State.withSched_ctl]
  split
  · exact ctlDequeue_withSched s x
  · exact execDispatch_withSched _ (s.withCtl .pulse) x
  · exact execPulse_withSched (s.withCtl .top) x

/-! ## Turns of one agent -/

/-- `k` turns of one agent, nothing between them. -/
def turns (τ : Turn) : Nat → State → Result
  | 0, s => .next s
  | k + 1, s => andThen (runTurn τ s) (turns τ k)

theorem turns_succ_of_next (τ : Turn) (k : Nat) (h : runTurn τ s = .next u) : turns τ (k + 1) s = turns τ k u := by
  rw [turns, h, andThen_next]

theorem turns_one (τ : Turn) (s : State) : turns τ 1 s = runTurn τ s := by
  rw [turns]
  cases runTurn τ s <;> rfl

theorem turns_add {j : Nat} (k : Nat) (h : turns τ j s = .next u) : turns τ (j + k) s = turns τ k u := by
  induction j generalizing s with
  | zero =>
    cases h
    rw [Nat.zero_add]
  | succ j ih =>
    obtain ⟨v, hv, hrest⟩ := andThen_eq_next h
    rw [Nat.succ_add, turns_succ_of_next τ _ hv, ih hrest]

/-- A turn that does not read the schedule. -/
def Turn.IgnoresSched (τ : Turn) : Prop :=
  ∀ (s : State) (x : List Turn), runTurn τ (s.withSched x) = (runTurn τ s).map (·.withSched x)

theorem ignoresSched_evt : Turn.evt.IgnoresSched := evtTurn_withSched

theorem ignoresSched_par : Turn.par.IgnoresSched := parTurn_withSched

theorem ignoresSched_ctl : Turn.ctl.IgnoresSched := fun s x => by
  show ctlStep _ = Result.map _ (ctlStep s)
  rw [ctlStep_eq_ctlTurn, ctlStep_eq_ctlTurn, ctlTurn_withSched]

theorem coreRun_succ_of_next {M : Host.Core} {a b : M.State} (k : Nat) (h : M.step a = .next b) :
    M.run (k + 1) a = M.run k b := by
  rw [Host.Core.run, h]

/-- The machine with a turn scheduled next takes it. -/
theorem run_succ_of_next (k : Nat) (h : runTurn τ (s.withSched rest) = .next u) :
    Host.Core.run core (k + 1) (s.withSched (τ :: rest)) = Host.Core.run core k u :=
  coreRun_succ_of_next (M := core) k h

/-- The machine with turns of one agent scheduled takes these turns. -/
theorem run_replicate (hτ : τ.IgnoresSched) (k : Nat) (rest : List Turn) : ∀ {s t : State},
    turns τ k (s.withSched rest) = .next t →
      Host.Core.run core k (s.withSched (List.replicate k τ ++ rest)) = .next t := by
  induction k with
  | zero => exact id
  | succ k ih =>
    intro s t h
    obtain ⟨v, hv, hrest⟩ := andThen_eq_next h
    rw [hτ] at hv
    obtain ⟨u, hu, huv⟩ := andThen_eq_next hv
    cases huv
    have hturn : runTurn τ (s.withSched (List.replicate k τ ++ rest)) =
        .next (u.withSched (List.replicate k τ ++ rest)) := by
      rw [hτ, hu]
      rfl
    exact (run_succ_of_next k hturn).trans (ih hrest)

/-! ## The programs as turns -/

/-- Where the event context rests, RX_EVENT is the byte raised and three turns. -/
theorem rxEvent_turns {b : Byte} (hevt : s.evt = .waiting) (hrx : s.rx = []) (h : exec (.rxEvent b) s = .next t) :
    turns .evt 3 (raiseByte b s) = .next t := by
  rw [rxEvent_resting b hevt hrx] at h
  obtain ⟨v, hv, hflag⟩ := andThen_eq_next h
  obtain ⟨u, hecho, henq⟩ := andThen_eq_next hv
  rw [turns_succ_of_next .evt 2 hecho, turns_succ_of_next .evt 1 henq, turns_one]
  exact hflag

/-- The loop of a call is turns of the parsing side. -/
theorem parseLoop_turns (k : Nat) (h : s.Inv) (hp : s.p.pstate ≠ .idle) (hloop : parseLoop k s = .next t) :
    ∃ j, turns .par j s = .next t := by
  induction k generalizing s with
  | zero => exact ⟨1, by rw [turns_one]; exact (parTurn_in_call (h.resting hp) hp).trans hloop⟩
  | succ k ih =>
    obtain ⟨u, hu, hrest⟩ := andThen_eq_next hloop
    have hturn : runTurn .par s = .next u := (parTurn_in_call (h.resting hp) hp).trans hu
    split at hrest
    · exact ⟨1, by rw [turns_one, hturn, hrest]⟩
    · rename_i hne
      have hinv := execParseStep_sound s h
      rw [hu] at hinv
      obtain ⟨j, hj⟩ := ih hinv hne hrest
      exact ⟨j + 1, (turns_succ_of_next .par j hturn).trans hj⟩

theorem forwardHeld_turns (h : forwardHeld s = .next t) : ∃ j, turns .par j s = .next t := by
  unfold forwardHeld at h
  split at h
  · rename_i r hr
    exact ⟨1, by rw [turns_one]; exact (parTurn_of_result hr).trans h⟩
  · exact ⟨0, h⟩

/-- PARSE_AND_FORWARD is the start of a call, its steps, and the forwarding of its result. -/
theorem parseAndForward_turns (h : s.Inv) (hrun : exec .parseAndForward s = .next t) :
    ∃ j, turns .par j s = .next t := by
  change execParseAndForward s = .next t at hrun
  unfold execParseAndForward at hrun
  split at hrun
  · rename_i hrest
    obtain ⟨u, hcall, hforward⟩ := andThen_eq_next hrun
    obtain ⟨j, hj⟩ := parseLoop_turns _ (startCall_inv s h) PState.noConfusion hcall
    obtain ⟨k, hk⟩ := forwardHeld_turns hforward
    refine ⟨j + k + 1, ?_⟩
    rw [turns_succ_of_next .par _ (parTurn_idle hrest.2 hrest.1), turns_add k hj, hk]
  · cases hrun

theorem ctlFinish_turns (k : Nat) (h : ctlFinish k s = .next t) : ∃ j, j ≤ k ∧ turns .ctl j s = .next t := by
  induction k generalizing s with
  | zero => exact ⟨0, le_rfl, h⟩
  | succ k ih =>
    unfold ctlFinish at h
    split at h
    · exact ⟨0, Nat.zero_le _, h⟩
    · obtain ⟨u, hu, hrest⟩ := andThen_eq_next h
      obtain ⟨j, hjk, hj⟩ := ih hrest
      exact ⟨j + 1, Nat.succ_le_succ hjk, (turns_succ_of_next .ctl j ((ctlStep_eq_ctlTurn s).trans hu)).trans hj⟩

/-- CONTROL_ITER is the dequeue line and at most two more turns. -/
theorem controlIter_turns (h : exec .controlIter s = .next t) : ∃ j, j ≤ 3 ∧ turns .ctl j s = .next t := by
  change execControlIter s = .next t at h
  unfold execControlIter at h
  split at h
  · obtain ⟨u, hu, hrest⟩ := andThen_eq_next h
    obtain ⟨j, hj2, hj⟩ := ctlFinish_turns 2 hrest
    exact ⟨j + 1, Nat.succ_le_succ hj2, (turns_succ_of_next .ctl j ((ctlStep_eq_ctlTurn s).trans hu)).trans hj⟩
  · cases h

/-- Settles O19: each program is turns of its agent, and the machine with these scheduled takes them. -/
theorem wholeProgramsAreAgentSteps : Obligations.WholeProgramsAreAgentSteps := by
  refine ⟨fun b s t rest h => ⟨fun ⟨hevt, hrx⟩ => ?_, fun hbusy => ?_⟩, fun s t rest hinv h => ?_,
    fun s t rest _ h => ?_⟩
  · have hturns : turns .evt 3 ((raiseByte b s).withSched rest) = .next t :=
      rxEvent_turns (s := s.withSched rest) hevt hrx h
    exact (run_succ_of_next (s := s) (τ := .byteIn b) 3 rfl).trans (run_replicate ignoresSched_evt 3 rest hturns)
  · have hraise : Host.Outcome.next (raiseByte b (s.withSched rest)) = .next t :=
      (rxEvent_busy (s := s.withSched rest) b hbusy).symm.trans h
    exact (step_cons (t := .byteIn b) (rest := rest) rfl).trans hraise
  · obtain ⟨k, hk⟩ := parseAndForward_turns (hinv.withSched rest) h
    exact ⟨k, run_replicate (s := s) ignoresSched_par k rest hk⟩
  · obtain ⟨k, hk3, hk⟩ := controlIter_turns h
    exact ⟨k, hk3, run_replicate (s := s) ignoresSched_ctl k rest hk⟩

end Sys2Proof.Machine
end
